-- ==== Sys2Proof/Word.lean ====
section
/-! DEFINITION. The two word types of the block: octets, and the `W`-bit registers (spec/00_scope.md R5, R6). -/

namespace Sys2Proof

/-- An octet: 8 bits, unsigned (spec/00_scope.md section 6). -/
abbrev Byte := BitVec 8

/-- A register of width `W` (R5); the model takes the default `W = 32` (log 5). -/
abbrev Word := BitVec 32

end Sys2Proof
end

