-- ==== Sys2Proof/Config.lean ====
section
/-! DEFINITION. The parameters of the block (spec/00_scope.md R4, R5) and the free values: bytes and offsets
the spec leaves unspecified, as constants without a body. -/

namespace Sys2Proof

/-- The two engines that have a job interface and memories (R1). -/
inductive Engine where
  | dec
  | enc
  deriving DecidableEq, Repr

/-- `W`, the width of every offset, length and count register (R5, D2; log 5). -/
def Config.width : Nat := 32

/-- `MAX_LIT`: bytes in one literal token, at most (R4). -/
def Config.maxLit : Nat := 32

/-- `MIN_LEN`: shortest back-reference (R4). -/
def Config.minLen : Nat := 3

/-- `MAX_LEN`: longest back-reference (R4). -/
def Config.maxLen : Nat := 264

/-- `MAX_DIST`: farthest back-reference (R4). -/
def Config.maxDist : Nat := 8192

/-- Bytes of the longest token (R4: a token is 2 to 33 bytes long). -/
def Config.maxToken : Nat := 33

/-- `HLOG`: log2 of the number of entries of `HTAB` (R5; log 5). -/
def Config.hlog : Nat := 14

/-- What a build of `ENC` fixes (R5): the size of the table and the hash, any total function of three bytes into the
table's indices (R164, D14). The machine runs with one value of this, `Sys2Proof.Machine.encParams`; claims about
compression are made for every value (R182). -/
structure EncParams where
  hlog : Nat
  hash : Byte → Byte → Byte → BitVec hlog

/-- FREE VALUE. The byte an engine's `IN` holds at an offset nobody has written: whatever the platform memory holds
(R36). It depends on nothing but the engine and the offset, since neither jobs nor reset change `IN` (R51, R231; log 3). -/
opaque Config.unplacedInByte : Engine → Nat → Byte

/-- FREE VALUE. The byte an engine's `OUT` holds at an offset whose contents are unspecified (R36, R64, R65, R231): by
engine, by when this byte's contents were last left unspecified (0: never so far), and by offset (log 3, log 4). -/
opaque Config.unspecifiedOutByte : Engine → Nat → Nat → Byte

/-- FREE VALUE. The offset field of an empty entry of `HTAB` (R163: "off = unspecified"), by job and by cursor position;
the probe reads it into `ref` and nothing ever tests it (log 7). -/
opaque Config.emptyEntryOffset : Nat → Nat → Word

end Sys2Proof
end

