-- ==== Sys2Proof/Machine/State.lean ====
section
/-! DEFINITION. The state of the block as plain data (spec/10_state.md), the reasons a step can stop, and the state after
reset. -/

namespace Sys2Proof.Machine

/-- Error kinds, the values of `STATUS.ERR` (R22, R200). `unknown` is kept though nothing raises it (R203). -/
inductive ErrKind where
  | ok
  | insufficientBuffer
  | dataCorruption
  | unknown
  deriving DecidableEq, Repr

/-- Phases of the `DEC` sequencer (R27). -/
inductive DecPhase where
  | idle
  | fetch
  | lit
  | ext
  | low
  | copy
  | done
  deriving DecidableEq, Repr

/-- Phases of the `ENC` sequencer (R31, R180). -/
inductive EncPhase where
  | idle
  | probe
  | extend
  | emit
  | flush
  | done
  deriving DecidableEq, Repr

/-- A sparse table: entries in strictly rising order of their keys; an unlisted key has no entry. -/
abbrev Table (α : Type) := List (Nat × α)

/-- A byte memory by offset (R50): the bytes whose contents are known; an unlisted byte reads as no known value (log 3,
log 4). -/
abbrev Memory := List Host.Cell

/-- The hash table (R32): the entries with `valid = 1` and their offsets; an unlisted entry is empty. -/
abbrev HTab := Table Word

/-- What an engine shares with the host: its job registers (R20 to R23, R30) and its two ranges (R34, R50). -/
structure Job where
  /-- `IN_LEN` (R23). -/
  inLen : Word
  /-- `OUT_CAP` (R23). -/
  outCap : Word
  /-- `STATUS.ERR` of the finished job (R22). -/
  err : ErrKind
  /-- `STATUS.EMPTY` of the finished job (R22). -/
  empty : Bool
  /-- `COUNT` of the finished job (R23). -/
  count : Word
  /-- The contents of `IN` that are known (R51). -/
  inp : Memory
  /-- The contents of `OUT` that are known (R52). -/
  out : Memory
  /-- The model's own: the spans `lo ≤ a < hi` of `OUT` whose contents were left unspecified, the newest first; they number the
  free value an unlisted byte of `OUT` reads as (log 4). -/
  forgotten : List (Nat × Nat)
  deriving DecidableEq, Repr

/-- The decompressor engine (R24 to R27). -/
structure Dec where
  job : Job
  phase : DecPhase
  /-- The program counter: offset in `IN` of the next unread byte (R24). -/
  ip : Word
  /-- The number of bytes of `OUT` written so far (R25). -/
  op : Word
  /-- The control byte of the token being executed (R26). -/
  ctrl : Byte
  /-- Bytes the current copy still has to move (R26). -/
  len : BitVec 9
  /-- The distance of the current back-reference (R26). -/
  dist : BitVec 14
  deriving DecidableEq, Repr

/-- The compressor engine (R31, R32). -/
structure Enc where
  job : Job
  phase : EncPhase
  /-- The input cursor. -/
  i : Word
  /-- Offset in `IN` of the first byte of the pending literal run. -/
  ls : Word
  /-- The number of bytes of `OUT` written so far. -/
  eop : Word
  /-- The table entry read at the current position: its offset. -/
  ref : Word
  /-- The table entry read at the current position: whether it was valid. -/
  refValid : Bool
  /-- The length of the match being extended. -/
  mlen : BitVec 9
  /-- `HTAB` (R32). -/
  htab : HTab
  deriving DecidableEq, Repr

/-- One move of an agent: of the host at the block's interface (R121, R242, R230) or of an engine. -/
inductive Move where
  /-- The host writes a job register, by number (R20, R30, R33). -/
  | writeReg (n : Nat) (v : Word)
  /-- The host reads a job register. -/
  | readReg (n : Nat)
  /-- The host places a byte in an engine's `IN`. -/
  | writeIn (u : Engine) (a : Word) (b : Byte)
  /-- The host reads a byte of an engine's `IN`. -/
  | readIn (u : Engine) (a : Word)
  /-- The host writes a byte of an engine's `OUT`. -/
  | writeOut (u : Engine) (a : Word) (b : Byte)
  /-- The host reads a byte of an engine's `OUT`. -/
  | readOut (u : Engine) (a : Word)
  /-- The reset input (R230). -/
  | reset
  /-- The engine takes its next step, if it has one. -/
  | run (u : Engine)
  deriving DecidableEq, Repr

/-- The block, and the moves its environment still has to make. -/
structure State where
  dec : Dec
  enc : Enc
  /-- `BOUND_N` (R33). -/
  boundN : Word
  /-- The model's own: the moves to come, first to last (log 11). -/
  moves : List Move
  deriving DecidableEq, Repr

/-- Why the machine stops with a fault: an engine would access a byte outside its range. The spec has no such step (R58:
"never occurs in any rule"), and no run reaches a state in which one happens; safe (log 8). -/
inductive Fault where
  /-- An engine would read `IN` at or beyond `in_len` (R58 (a)); raised by `Job.readIn` and by the token meanings when the
  control byte itself lies outside `IN`; safe. -/
  | readPastInput
  /-- An engine would write `OUT` at or beyond `out_cap` (R58 (b)); raised by `Dec.putByte` and `Enc.putByte`; safe. -/
  | writePastOutput
  /-- `DEC` would read `OUT` at or beyond `op` (R58 (c)); raised by `Dec.readBack`; safe. -/
  | readAheadOutput
  deriving DecidableEq, Repr

/-- Why a step is given no meaning. -/
inductive Refusal where
  /-- An instruction without a meaning yet, by its mnemonic; raised by `exec` only; no instruction is left so. Safe. -/
  | notModelled (mnemonic : String)
  /-- The host writes `IN`, or reads or writes `OUT`, of an engine whose job is running: it has no such move (R234, U5), at any
  offset (log 22); raised by `hostMove`. Errs toward proving, as the spec says, so unsafe where a platform breaks the premise
  (log 9). -/
  | handsOff
  deriving DecidableEq, Repr

/-- A job interface after reset, with the given memories (R36). -/
def Job.reset (inp out : Memory) (forgotten : List (Nat × Nat)) : Job :=
  { inLen := 0, outCap := 0, err := .ok, empty := false, count := 0, inp := inp, out := out, forgotten := forgotten }

/-- `DEC` after reset (R36; the working registers are unspecified, log 2). -/
def Dec.reset (job : Job) : Dec :=
  { job := job, phase := .idle, ip := 0, op := 0, ctrl := 0, len := 0, dist := 0 }

/-- `ENC` after reset (R36; the working registers and `HTAB` are unspecified, log 2). -/
def Enc.reset (job : Job) : Enc :=
  { job := job, phase := .idle, i := 0, ls := 0, eop := 0, ref := 0, refValid := false, mlen := 0, htab := [] }

/-- The machine right after reset (R36, R230): engines idle, job registers 0, memories with nothing listed, no move pending. -/
def State.reset : State :=
  { dec := Dec.reset (Job.reset [] [] []), enc := Enc.reset (Job.reset [] [] []), boundN := 0, moves := [] }

end Sys2Proof.Machine
end

