-- ==== Sys2Proof/Machine/Flags.lean ====
section
/-! DEFINITION. The flags: the fields of `DEC_STATUS` and `ENC_STATUS` (spec/10_state.md R22, R27, R29, R30; spec/60_exceptions.md
R200). -/

namespace Sys2Proof.Machine

/-- `BUSY` of `DEC`, a function of the phase (R27). -/
def DecPhase.busy : DecPhase → Bool
  | .idle => false
  | .fetch => true
  | .lit => true
  | .ext => true
  | .low => true
  | .copy => true
  | .done => false

/-- `DONE` of `DEC`, a function of the phase (R27). -/
def DecPhase.finished : DecPhase → Bool
  | .idle => false
  | .fetch => false
  | .lit => false
  | .ext => false
  | .low => false
  | .copy => false
  | .done => true

/-- `BUSY` of `ENC` (R30). -/
def EncPhase.busy : EncPhase → Bool
  | .idle => false
  | .probe => true
  | .extend => true
  | .emit => true
  | .flush => true
  | .done => false

/-- `DONE` of `ENC` (R30). -/
def EncPhase.finished : EncPhase → Bool
  | .idle => false
  | .probe => false
  | .extend => false
  | .emit => false
  | .flush => false
  | .done => true

/-- The code of an error kind in `STATUS.ERR` (R200). -/
def ErrKind.code : ErrKind → BitVec 2
  | .ok => 0
  | .insufficientBuffer => 1
  | .dataCorruption => 2
  | .unknown => 3

/-- A status word: `BUSY` bit 0, `DONE` bit 1, `ERR` bits 3:2, `EMPTY` bit 4, every other bit 0 (R22). -/
def statusWord (busy finished : Bool) (err : ErrKind) (empty : Bool) : Word :=
  (BitVec.ofBool empty ++ err.code ++ BitVec.ofBool finished ++ BitVec.ofBool busy : BitVec 5).setWidth 32

/-- What `STATUS` reads: while `DONE = 0`, `ERR` and `EMPTY` read 0 (R22). -/
def Job.status (busy finished : Bool) (j : Job) : Word :=
  statusWord busy finished (if finished then j.err else .ok) (finished && j.empty)

/-- What `COUNT` reads: 0 while `DONE = 0` (R23). -/
def Job.countRead (finished : Bool) (j : Job) : Word := if finished then j.count else 0

/-- `DEC_STATUS` as the host reads it (R22). -/
def Dec.status (d : Dec) : Word := d.job.status d.phase.busy d.phase.finished

/-- `ENC_STATUS` as the host reads it (R30). -/
def Enc.status (e : Enc) : Word := e.job.status e.phase.busy e.phase.finished

end Sys2Proof.Machine
end

