-- ==== Sys2Proof/Syntax.lean ====
section
/-! DEFINITION. The instructions of the block: the tokens of the LZF wire format (spec/30_encoding.md R80 to R84),
one constructor per row of spec/opcode_table.json. -/

namespace Sys2Proof

/-- A token, with the fields the table names. Every value of every field is legal (R91); only the number of literal bytes
needs a check (`Instr.wellFormed`). -/
inductive Instr where
  /-- `LIT`: a literal run of the given data bytes; the field `n` of the control byte is their number minus 1 (R82). -/
  | lit (data : List Byte)
  /-- `SREF` with `lcode = 1`, length 3 (R83): `dh` is bits 12:8 and `r` bits 7:0 of `distance - 1`. -/
  | srefL3 (dh : BitVec 5) (r : Byte)
  /-- `SREF` with `lcode = 2`, length 4 (R83). -/
  | srefL4 (dh : BitVec 5) (r : Byte)
  /-- `SREF` with `lcode = 3`, length 5 (R83). -/
  | srefL5 (dh : BitVec 5) (r : Byte)
  /-- `SREF` with `lcode = 4`, length 6 (R83). -/
  | srefL6 (dh : BitVec 5) (r : Byte)
  /-- `SREF` with `lcode = 5`, length 7 (R83). -/
  | srefL7 (dh : BitVec 5) (r : Byte)
  /-- `SREF` with `lcode = 6`, length 8 (R83). -/
  | srefL8 (dh : BitVec 5) (r : Byte)
  /-- `LREF` (R84): `e` is `length - 9`; `dh` and `r` as in `SREF`. -/
  | lref (dh : BitVec 5) (e r : Byte)
  deriving DecidableEq, Repr

end Sys2Proof
end

