-- ==== Sys2Proof/WellFormed.lean ====
section
/-! DEFINITION. When a term of `Instr` is an instruction: the two bounds on a literal run (spec/30_encoding.md R82, R86);
all other fields are legal at every value (R91). -/

namespace Sys2Proof

/-- A literal token carries 1 to 32 bytes (R4, R86: "a count of zero cannot be encoded"); every field value of a
back-reference is legal (R91). -/
def Instr.wellFormed : Instr → Bool
  | .lit data => decide (1 ≤ data.length) && decide (data.length ≤ Config.maxLit)
  | .srefL3 _ _ => true
  | .srefL4 _ _ => true
  | .srefL5 _ _ => true
  | .srefL6 _ _ => true
  | .srefL7 _ _ => true
  | .srefL8 _ _ => true
  | .lref _ _ _ => true

end Sys2Proof
end

