-- ==== Sys2Proof/Decode.lean ====
section
/-! DEFINITION. The wire format (spec/30_encoding.md): decoding of tokens, total on any bytes and rejecting by name; then
the encoder, written from the same formats. -/

namespace Sys2Proof

/-- `lcode = c[7:5]` (R81). -/
def lcode (c : Byte) : BitVec 3 := c.extractLsb' 5 3

/-- `low5 = c[4:0]` (R81). -/
def low5 (c : Byte) : BitVec 5 := c.extractLsb' 0 5

/-- A control byte from its two fields (R81). -/
def controlByte (lc : BitVec 3) (lo : BitVec 5) : Byte := lc ++ lo

/-- `toklen(c)`: the number of bytes of a token, told by its control byte alone (R85). -/
def tokenLength (c : Byte) : Nat :=
  if c.toNat < 32 then 2 + (low5 c).toNat
  else if c.toNat < 224 then 2
  else 3

/-- The token a control byte starts, its follow-up bytes given by position. Total over all control bytes (R90, R91). -/
def decodeToken (c : Byte) (follow : Nat → Byte) : Instr :=
  match (lcode c).toNat with
  | 0 => .lit ((List.range ((low5 c).toNat + 1)).map follow)
  | 1 => .srefL3 (low5 c) (follow 0)
  | 2 => .srefL4 (low5 c) (follow 0)
  | 3 => .srefL5 (low5 c) (follow 0)
  | 4 => .srefL6 (low5 c) (follow 0)
  | 5 => .srefL7 (low5 c) (follow 0)
  | 6 => .srefL8 (low5 c) (follow 0)
  | _ => .lref (low5 c) (follow 0) (follow 1)

/-- Why bytes are not a token: there are none, or the token's follow-up bytes are not all there (R92 (a)). -/
inductive DecodeError where
  /-- No byte at all: the end of the stream, no token (R80). -/
  | endOfStream
  /-- A `LIT` control byte followed by too few data bytes (`DC1`, R201). -/
  | literalTruncated
  /-- An `LREF` control byte with no extension byte (`DC2`, R201). -/
  | extensionMissing
  /-- No reference-low byte (`DC3`, R201). -/
  | lowByteMissing
  deriving DecidableEq, Repr

/-- Decoding the token at the head of a byte string, with the rest of the string (R80 to R85). No byte pattern is refused
for its bits (R91), only for being cut short. -/
def decode : List Byte → Except DecodeError (Instr × List Byte)
  | [] => .error .endOfStream
  | c :: rest =>
    if tokenLength c ≤ 1 + rest.length then
      .ok (decodeToken c (fun k => rest.getD k 0), rest.drop (tokenLength c - 1))
    else if c.toNat < 32 then .error .literalTruncated
    else if 224 ≤ c.toNat ∧ rest.length = 0 then .error .extensionMissing
    else .error .lowByteMissing

/-- The control byte of a token (R82 to R84, R97). -/
def Instr.control : Instr → Byte
  | .lit data => controlByte 0 (BitVec.ofNat 5 (data.length - 1))
  | .srefL3 dh _ => controlByte 1 dh
  | .srefL4 dh _ => controlByte 2 dh
  | .srefL5 dh _ => controlByte 3 dh
  | .srefL6 dh _ => controlByte 4 dh
  | .srefL7 dh _ => controlByte 5 dh
  | .srefL8 dh _ => controlByte 6 dh
  | .lref dh _ _ => controlByte 7 dh

/-- The follow-up bytes of a token, in stream order (R82 to R84; the extension byte comes before the low byte). -/
def Instr.followUp : Instr → List Byte
  | .lit data => data
  | .srefL3 _ r => [r]
  | .srefL4 _ r => [r]
  | .srefL5 _ r => [r]
  | .srefL6 _ r => [r]
  | .srefL7 _ r => [r]
  | .srefL8 _ r => [r]
  | .lref _ e r => [e, r]

/-- The bytes of a token (R97). -/
def encode (i : Instr) : List Byte := i.control :: i.followUp

/-- The back-reference token for a distance (1 to 8192) and a length (3 to 264): the short form up to length 8, the long
form above (R96, R97). -/
def refInstr (distance length : Nat) : Instr :=
  let f := BitVec.ofNat 13 (distance - 1)
  let dh : BitVec 5 := f.extractLsb' 8 5
  let r : Byte := f.extractLsb' 0 8
  match length with
  | 3 => .srefL3 dh r
  | 4 => .srefL4 dh r
  | 5 => .srefL5 dh r
  | 6 => .srefL6 dh r
  | 7 => .srefL7 dh r
  | 8 => .srefL8 dh r
  | l => .lref dh (BitVec.ofNat 8 (l - 9)) r

/-- `LITS`: a span of bytes as literal tokens, full groups of 32 first, the short group last, nothing for no bytes (R98,
R170). The first argument bounds the number of groups. -/
def literalRunAux : Nat → List Byte → List Instr
  | 0, _ => []
  | _ + 1, [] => []
  | n + 1, b :: bs => .lit ((b :: bs).take Config.maxLit) :: literalRunAux n ((b :: bs).drop Config.maxLit)

/-- `LITS` of a whole span (R98). -/
def literalRun (bytes : List Byte) : List Instr := literalRunAux bytes.length bytes

/-- The bytes of an instruction whose bits, numbered as spec/opcode_table.json numbers them, are `w`: byte `k` is bits
`8 k + 7 .. 8 k`, and every bit above `nbits` is 0; as many bytes as the longest token has. -/
def tableBytes (nbits w : Nat) : List Byte :=
  (List.range Config.maxToken).map (fun k => BitVec.ofNat 8 ((w % 2 ^ nbits) / 2 ^ (8 * k)))

/-- The instruction the decoder reads from a word of the opcode table, operand bytes zero. -/
def decodeTableWord (nbits w : Nat) : Option Instr :=
  match decode (tableBytes nbits w) with
  | .ok (i, _) => some i
  | .error _ => none

end Sys2Proof
end

