-- ==== Sys2Proof/Machine/Operands.lean ====
section
/-! DEFINITION. The operands of the tokens: counts, lengths and distances from their encoded fields
(spec/30_encoding.md R86 to R89), and the hash of `ENC` (spec/45_compressor.md R164). -/

namespace Sys2Proof.Machine

/-- Literal count: `c[4:0] + 1` in 9 bits, 1 to 32 (R86). -/
def literalCount (c : Byte) : BitVec 9 := (low5 c).setWidth 9 + 1

/-- Length of an `SREF`: `lcode + 2` in 9 bits, 3 to 8 (R87). -/
def shortLength (lc : BitVec 3) : BitVec 9 := lc.setWidth 9 + 2

/-- Length of an `LREF`: `e + 9` in 9 bits, 9 to 264, never wrapping (R87, R141). -/
def longLength (e : Byte) : BitVec 9 := e.setWidth 9 + 9

/-- Distance of a back-reference: the 13 bits `{dh, r}` plus 1, in 14 bits, 1 to 8192 (R88). -/
def distance (dh : BitVec 5) (r : Byte) : BitVec 14 := (dh ++ r).setWidth 14 + 1

/-- The default hash (R164): a little-endian 3-byte load times 40503, formed in 32 bits, of which the top `hlog` bits are the
index. -/
def defaultHash (hlog : Nat) (b0 b1 b2 : Byte) : BitVec hlog :=
  let v : BitVec 32 := (b2 ++ b1 ++ b0).setWidth 32
  ((v * 40503#32) >>> (32 - hlog)).setWidth hlog

/-- The parameters the machine's `ENC` runs with: the defaults of R5 and R164 (log 5, log 6). -/
def encParams : EncParams := { hlog := Config.hlog, hash := defaultHash Config.hlog }

/-- `bound(n) = floor(n * 1.04) + 1`, computed exactly (R176). -/
def boundNat (n : Nat) : Nat := n + n / 25 + 1

/-- `BOUND_RESULT`, `W + 1` bits (R33, R176). -/
def boundResult (n : Word) : BitVec 33 := BitVec.ofNat 33 (boundNat n.toNat)

end Sys2Proof.Machine
end

