-- ==== Sys2Proof/Machine/Ops.lean ====
section
/-! DEFINITION. The named operations every meaning is made of: tables and memories, the bounded accesses of the engines
(spec/20_memory.md R50 to R58), ending a job and raising an error (spec/60_exceptions.md R206), and the byte moves of the
decompressor. -/

namespace Sys2Proof.Machine

/-! ## Tables and memories -/

/-- The entry of a key. -/
def Table.get? {α : Type} : Table α → Nat → Option α
  | [], _ => none
  | (k, v) :: t, a => if k = a then some v else Table.get? t a

/-- Sets the entry of a key, keeping the keys in rising order. -/
def Table.set {α : Type} : Table α → Nat → α → Table α
  | [], a, v => [(a, v)]
  | (k, w) :: t, a, v =>
    if a < k then (a, v) :: (k, w) :: t
    else if a = k then (a, v) :: t
    else (k, w) :: Table.set t a v

/-- Drops the entries of the keys `lo ≤ a < hi`. -/
def Table.forget {α : Type} (t : Table α) (lo hi : Nat) : Table α :=
  t.filter (fun c => !(decide (lo ≤ c.1) && decide (c.1 < hi)))

/-- The canonical form: keys strictly rising and below a bound. -/
abbrev Table.wf {α : Type} (bound : Nat) (t : Table α) : Prop :=
  t.Pairwise (fun x y => x.1 < y.1) ∧ ∀ c ∈ t, c.1 < bound

/-- The model's read of one byte: what is known of it; an unlisted byte reads as no known value (log 3, log 4). -/
def Memory.read? (m : Memory) (a : Nat) : Option Byte := Table.get? m a

/-- `MemWrite(S, a, 1, b)` (spec/00_scope.md section 6). -/
def Memory.write (m : Memory) (a : Nat) (b : Byte) : Memory := Table.set m a b

/-- The bytes of a string at consecutive offsets, from the given one up. -/
def Memory.place : List Byte → Nat → Memory → Memory
  | [], _, m => m
  | b :: bs, a, m => Memory.place bs (a + 1) (m.write a b)

/-- The canonical form of a memory: offsets strictly rising, each a `W`-bit number (R50). An unlisted byte reads as no
value, so no entry can equal it. -/
abbrev Memory.wf (m : Memory) : Prop := Table.wf (2 ^ Config.width) m

/-! ## The ranges of a job -/

/-- The byte `IN` holds at an offset; one nobody placed is a free value (R36, log 3). -/
def Job.inByte (u : Engine) (j : Job) (a : Nat) : Byte := (j.inp.read? a).getD (Config.unplacedInByte u a)

/-- The number of the newest span that covers an offset, the oldest being 1; 0 where none does (log 4). -/
def lastForgotten : List (Nat × Nat) → Nat → Nat
  | [], _ => 0
  | (lo, hi) :: older, a => if lo ≤ a ∧ a < hi then older.length + 1 else lastForgotten older a

/-- The byte `OUT` holds at an offset; unspecified contents are a free value, a new one each time the byte's contents were left
unspecified (R64, R65, log 4). -/
def Job.outByte (u : Engine) (j : Job) (a : Nat) : Byte :=
  (j.out.read? a).getD (Config.unspecifiedOutByte u (lastForgotten j.forgotten a) a)

/-- An engine's read of `IN`, inside the range only (R58 (a)). -/
def Job.readIn (u : Engine) (j : Job) (a : Nat) : Except Fault Byte :=
  if a < j.inLen.toNat then .ok (j.inByte u a) else .error .readPastInput

/-- Leaves the contents of `OUT` at offsets `lo ≤ a < hi` unspecified, and no other byte's (R64, R65). -/
def Job.forgetOut (j : Job) (lo hi : Nat) : Job :=
  { j with out := Table.forget j.out lo hi, forgotten := (lo, hi) :: j.forgotten }

/-! ## The end of a job -/

/-- The result registers of a job that ends with an error: the kind, `COUNT = 0`, `EMPTY = 0` (R206), all of `OUT`
unspecified (R65). -/
def Job.fail (k : ErrKind) (j : Job) : Job :=
  { j.forgetOut 0 j.outCap.toNat with err := k, count := 0, empty := false }

/-- The result registers of a job that ends well: `ERR = OK`, the count, `EMPTY` (R114), `OUT` beyond the count unspecified
(R64). -/
def Job.succeed (count : Word) (j : Job) : Job :=
  { j.forgetOut count.toNat j.outCap.toNat with err := .ok, count := count, empty := decide (j.inLen = 0) }

/-- **Taking an exception** in `DEC`: `raise K` ends the job; nothing is saved, no vector, no mode (R115, R206). -/
def Dec.raise (k : ErrKind) (d : Dec) : Dec := { d with phase := .done, job := d.job.fail k }

/-- Taking an exception in `ENC` (R172, R206). -/
def Enc.raise (k : ErrKind) (e : Enc) : Enc := { e with phase := .done, job := e.job.fail k }

/-- Successful end of a `DEC` job (R114). There is no other way out of a job, and no return from an error (R207). -/
def Dec.finish (d : Dec) : Dec := { d with phase := .done, job := d.job.succeed d.op }

/-- Successful end of an `ENC` job (R171). -/
def Enc.finish (e : Enc) : Enc := { e with phase := .done, job := e.job.succeed e.eop }

/-! ## The start of a job -/

/-- `START` of `DEC` (R110): the cursors and the phase, nothing else; ignored while `BUSY = 1` (R236). -/
def Dec.start (d : Dec) : Dec := if d.phase.busy then d else { d with ip := 0, op := 0, phase := .fetch }

/-- `START` of `ENC` (R162): cursors, an empty `HTAB`, the phase; ignored while `BUSY = 1` (R236). -/
def Enc.start (e : Enc) : Enc :=
  if e.phase.busy then e else { e with i := 0, ls := 0, eop := 0, htab := [], phase := .probe }

/-! ## Moves of the decompressor -/

/-- `ip == in_len`: the stream is exhausted (R111, R144, R145). -/
def Dec.atEnd (d : Dec) : Bool := decide (d.ip = d.job.inLen)

/-- Consumes one byte of `IN`: `ip` advances by 1 (R24), inside the range only (R58 (a)). -/
def Dec.advance (d : Dec) : Except Fault Dec :=
  if d.ip.toNat < d.job.inLen.toNat then .ok { d with ip := d.ip + 1 } else .error .readPastInput

/-- Consumes the control byte of a token: `ip <- ip + 1`, `ctrl <- c` (R112). -/
def Dec.takeControl (c : Byte) (d : Dec) : Except Fault Dec := do
  let d ← d.advance
  .ok { d with ctrl := c }

/-- Writes one byte at `op`, which advances (R25, R52), and counts it off `len` (R131, R143). -/
def Dec.putByte (b : Byte) (d : Dec) : Except Fault Dec :=
  if d.op.toNat < d.job.outCap.toNat then
    .ok { d with job := { d.job with out := d.job.out.write d.op.toNat b }, op := d.op + 1, len := d.len - 1 }
  else .error .writePastOutput

/-- Reads back the byte `dist` behind `op` (R143), only bytes below `op` (R58 (c)). -/
def Dec.readBack (d : Dec) : Except Fault Byte :=
  if 1 ≤ d.dist.toNat ∧ d.dist.toNat ≤ d.op.toNat then .ok (d.job.outByte .dec (d.op.toNat - d.dist.toNat))
  else .error .readAheadOutput

/-- One iteration of the literal loop: `OUT[op] <- IN[ip]`, both cursors advance (R130, R131). -/
def Dec.literalByte (b : Byte) (d : Dec) : Except Fault Dec := do
  let d ← d.putByte b
  d.advance

/-- One iteration of the copy loop: `OUT[op] <- OUT[op - dist]` with the current `op` (R142, R143). -/
def Dec.copyByte (d : Dec) : Except Fault Dec := do
  let b ← d.readBack
  d.putByte b

/-- The literal loop, in ascending order (R130). -/
def Dec.literalLoop : List Byte → Dec → Except Fault Dec
  | [], d => .ok d
  | b :: bs, d => do
    let d ← d.literalByte b
    Dec.literalLoop bs d

/-- The copy loop: byte by byte, ascending, each iteration reading after the previous write (R142, R147). -/
def Dec.copyLoop : Nat → Dec → Except Fault Dec
  | 0, d => .ok d
  | n + 1, d => do
    let d ← d.copyByte
    Dec.copyLoop n d

/-- `ValidateAndCopy(distance, length)`: underflow is tested first, room second, then the copy (R142, R205). -/
def Dec.validateAndCopy (dist : BitVec 14) (length : BitVec 9) (d : Dec) : Except Fault Dec :=
  if dist.toNat > d.op.toNat then .ok (d.raise .dataCorruption)
  else if length.toNat > d.job.outCap.toNat - d.op.toNat then .ok (d.raise .insufficientBuffer)
  else do
    let d ← Dec.copyLoop length.toNat { d with dist := dist, len := length }
    .ok { d with phase := .fetch }

/-! ## Outcomes -/

/-- What an engine's step leaves, as an outcome of the block: the other units and the moves to come are as they were (R2). -/
def State.ofDec (s : State) (r : Except Fault Dec) : Host.Outcome State Fault Refusal :=
  match r with
  | .ok d => .next { s with dec := d }
  | .error f => .fault f

/-- The same for `ENC`. -/
def State.ofEnc (s : State) (r : Except Fault Enc) : Host.Outcome State Fault Refusal :=
  match r with
  | .ok e => .next { s with enc := e }
  | .error f => .fault f

end Sys2Proof.Machine
end

