-- ==== Sys2Proof/Machine/BackRef.lean ====
section
/-! DEFINITION. The back-reference tokens `SREF` and `LREF` (spec/42_backref.md R140 to R142). -/

namespace Sys2Proof.Machine

/-- The whole short token of R140, `ip` at its control byte: the low byte must be there (`DC3`), then `ValidateAndCopy`. -/
def Dec.shortToken (lc : BitVec 3) (dh : BitVec 5) (r : Byte) (d : Dec) : Except Fault Dec := do
  let d ← d.takeControl (controlByte lc dh)
  let d := { d with len := shortLength lc }
  if d.atEnd then .ok (d.raise .dataCorruption)
  else do
    let d ← d.advance
    d.validateAndCopy (distance dh r) (shortLength lc)

/-- The whole long token of R141, `ip` at its control byte: the extension byte must be there (`DC2`), then the low byte
(`DC3`), then `ValidateAndCopy`. -/
def Dec.longToken (dh : BitVec 5) (e r : Byte) (d : Dec) : Except Fault Dec := do
  let d ← d.takeControl (controlByte 7 dh)
  if d.atEnd then .ok (d.raise .dataCorruption)
  else do
    let d ← d.advance
    let d := { d with len := longLength e }
    if d.atEnd then .ok (d.raise .dataCorruption)
    else do
      let d ← d.advance
      d.validateAndCopy (distance dh r) (longLength e)

/-- `SREF` of length 3 (R140). -/
def execSrefL3 (dh : BitVec 5) (r : Byte) (s : State) : Host.Outcome State Fault Refusal :=
  s.ofDec (s.dec.shortToken 1 dh r)

/-- `SREF` of length 4 (R140). -/
def execSrefL4 (dh : BitVec 5) (r : Byte) (s : State) : Host.Outcome State Fault Refusal :=
  s.ofDec (s.dec.shortToken 2 dh r)

/-- `SREF` of length 5 (R140). -/
def execSrefL5 (dh : BitVec 5) (r : Byte) (s : State) : Host.Outcome State Fault Refusal :=
  s.ofDec (s.dec.shortToken 3 dh r)

/-- `SREF` of length 6 (R140). -/
def execSrefL6 (dh : BitVec 5) (r : Byte) (s : State) : Host.Outcome State Fault Refusal :=
  s.ofDec (s.dec.shortToken 4 dh r)

/-- `SREF` of length 7 (R140). -/
def execSrefL7 (dh : BitVec 5) (r : Byte) (s : State) : Host.Outcome State Fault Refusal :=
  s.ofDec (s.dec.shortToken 5 dh r)

/-- `SREF` of length 8 (R140). -/
def execSrefL8 (dh : BitVec 5) (r : Byte) (s : State) : Host.Outcome State Fault Refusal :=
  s.ofDec (s.dec.shortToken 6 dh r)

/-- `LREF` (R141). -/
def execLref (dh : BitVec 5) (e r : Byte) (s : State) : Host.Outcome State Fault Refusal :=
  s.ofDec (s.dec.longToken dh e r)

end Sys2Proof.Machine
end

