-- ==== Sys2Proof/Machine/Literal.lean ====
section
/-! DEFINITION. The literal token `LIT` (spec/41_literal.md R130). -/

namespace Sys2Proof.Machine

/-- The whole literal token of R130, `ip` at its control byte: the input test (`DC1`) first, the room test (`IB1`) second, then
the copy; `len` is the number of bytes still to move (R112, R131). -/
def Dec.literalToken (c : Byte) (data : List Byte) (d : Dec) : Except Fault Dec := do
  let d ← d.takeControl c
  if d.job.inLen.toNat - d.ip.toNat < data.length then .ok (d.raise .dataCorruption)
  else if d.job.outCap.toNat - d.op.toNat < data.length then .ok (d.raise .insufficientBuffer)
  else do
    let d ← Dec.literalLoop data { d with len := BitVec.ofNat 9 data.length }
    .ok { d with phase := .fetch }

/-- `LIT` (R130). -/
def execLit (data : List Byte) (s : State) : Host.Outcome State Fault Refusal :=
  s.ofDec (s.dec.literalToken (Instr.lit data).control data)

end Sys2Proof.Machine
end

