-- ==== Sys2Proof/Machine/Dispatch.lean ====
section
/-! DEFINITION. What each instruction does: one arm per row of the opcode table. -/

namespace Sys2Proof.Machine

-- The literal token (R130), the six rows of the short back-reference (R140), the long back-reference (R141).
def exec (i : Instr) (s : State) : Host.Outcome State Fault Refusal :=
  match i with
  | .lit data => Sys2Proof.Machine.execLit data s
  | .srefL3 dh r => Sys2Proof.Machine.execSrefL3 dh r s
  | .srefL4 dh r => Sys2Proof.Machine.execSrefL4 dh r s
  | .srefL5 dh r => Sys2Proof.Machine.execSrefL5 dh r s
  | .srefL6 dh r => Sys2Proof.Machine.execSrefL6 dh r s
  | .srefL7 dh r => Sys2Proof.Machine.execSrefL7 dh r s
  | .srefL8 dh r => Sys2Proof.Machine.execSrefL8 dh r s
  | .lref dh e r => Sys2Proof.Machine.execLref dh e r s

end Sys2Proof.Machine
end

