-- ==== Sys2Proof/Machine/Encoder.lean ====
section
/-! DEFINITION. The compressor engine `ENC`: the reference engine of spec/45_compressor.md, phase by phase (R162 to R172, R180). -/

namespace Sys2Proof.Machine

/-- A read of `IN` by `ENC`, inside the range only (R58 (a)). -/
def Enc.readIn (e : Enc) (a : Nat) : Except Fault Byte := e.job.readIn .enc a

/-- `IN[a .. a + n]`, in ascending order. -/
def Enc.readSpan (e : Enc) : Nat → Nat → Except Fault (List Byte)
  | _, 0 => .ok []
  | a, n + 1 => do
    let b ← e.readIn a
    let bs ← e.readSpan (a + 1) n
    .ok (b :: bs)

/-- Writes one byte at `eop`, which advances (R52), inside the range only (R58 (b)). -/
def Enc.putByte (b : Byte) (e : Enc) : Except Fault Enc :=
  if e.eop.toNat < e.job.outCap.toNat then
    .ok { e with job := { e.job with out := e.job.out.write e.eop.toNat b }, eop := e.eop + 1 }
  else .error .writePastOutput

/-- The bytes of a token, in order. -/
def Enc.putBytes : List Byte → Enc → Except Fault Enc
  | [], e => .ok e
  | b :: bs, e => do
    let e ← e.putByte b
    Enc.putBytes bs e

/-- `Emit`: the exact room test, then the whole token, or the job ends with `InsufficientBuffer` (`IB3`, R172). The function
`go` says what follows a token that was written. -/
def Enc.emitToken (bytes : List Byte) (go : Enc → Enc) (e : Enc) : Except Fault Enc :=
  if e.job.outCap.toNat - e.eop.toNat < bytes.length then .ok (e.raise .insufficientBuffer)
  else do
    let e ← Enc.putBytes bytes e
    .ok (go e)

/-- Clause (c) of viability: the three bytes at `r` equal the window (R166); the bytes are read in order and only as far as they
agree. -/
def Enc.windowMatches (e : Enc) (r : Nat) (b0 b1 b2 : Byte) : Except Fault Bool := do
  let x0 ← e.readIn r
  let x1 ← e.readIn (r + 1)
  let x2 ← e.readIn (r + 2)
  .ok (decide (x0 = b0 ∧ x1 = b1 ∧ x2 = b2))

/-- Clauses (a) and (b) of viability: an entry was there and its distance fits (R166). -/
def Enc.candidateInReach (e : Enc) : Bool :=
  e.refValid && decide (1 ≤ e.i.toNat - e.ref.toNat) && decide (e.i.toNat - e.ref.toNat ≤ Config.maxDist)

/-- Viability of the candidate in `ref` (R166); (d): a byte lies beyond the window (D15). -/
def Enc.viable (e : Enc) (b0 b1 b2 : Byte) : Except Fault Bool :=
  if e.candidateInReach then do
    let same ← e.windowMatches e.ref.toNat b0 b1 b2
    .ok (same && decide (3 < e.job.inLen.toNat - e.i.toNat))
  else .ok false

/-- The table access of a probe: read the entry, then write the position (R165). The offset of an empty entry is
unspecified (log 7). -/
def Enc.probeTable (h : Nat) (e : Enc) : Enc :=
  let entry := e.htab.get? h
  { e with
    refValid := entry.isSome
    ref := entry.getD (Config.emptyEntryOffset e.job.forgotten.length e.i.toNat)
    htab := e.htab.set h e.i }

/-- The byte at `i` joins the literal run (R166, R171). -/
def Enc.skipByte (e : Enc) : Enc := { e with i := e.i + 1 }

/-- PROBE step: one cursor position (R165, R166), or the end of the input (R171). -/
def Enc.probeStep (P : EncParams) (e : Enc) : Except Fault Enc :=
  if e.i = e.job.inLen then .ok { e with phase := .flush }
  else if 3 ≤ e.job.inLen.toNat - e.i.toNat then do
    let b0 ← e.readIn e.i.toNat
    let b1 ← e.readIn (e.i.toNat + 1)
    let b2 ← e.readIn (e.i.toNat + 2)
    let e := e.probeTable (P.hash b0 b1 b2).toNat
    let ok ← e.viable b0 b1 b2
    .ok (if ok then { e with mlen := BitVec.ofNat 9 Config.minLen, phase := .extend } else e.skipByte)
  else do
    let _ ← e.readIn e.i.toNat
    .ok e.skipByte

/-- EXTEND step: one byte comparison (R167); a match that cannot grow is followed by the flush of the pending run (R168). -/
def Enc.extendStep (e : Enc) : Except Fault Enc :=
  if e.mlen.toNat < Config.maxLen ∧ e.i.toNat + e.mlen.toNat < e.job.inLen.toNat then do
    let x ← e.readIn (e.ref.toNat + e.mlen.toNat)
    let y ← e.readIn (e.i.toNat + e.mlen.toNat)
    .ok (if x = y then { e with mlen := e.mlen + 1 } else { e with phase := .flush })
  else .ok { e with phase := .flush }

/-- FLUSH step: one literal token of the pending run, at most 32 bytes (R170); an empty run is followed by the match token, or
by the end of the job when the input is exhausted (R168, R171). -/
def Enc.flushStep (e : Enc) : Except Fault Enc :=
  if e.i.toNat ≤ e.ls.toNat then
    .ok (if e.i = e.job.inLen then e.finish else { e with phase := .emit })
  else do
    let n := min Config.maxLit (e.i.toNat - e.ls.toNat)
    let data ← e.readSpan e.ls.toNat n
    e.emitToken (encode (.lit data)) (fun e => { e with ls := e.ls + BitVec.ofNat 32 n })

/-- EMIT step: the match token (R168), then the cursor moves past the match and the run is empty (R169). -/
def Enc.emitStep (e : Enc) : Except Fault Enc :=
  e.emitToken (encode (refInstr (e.i.toNat - e.ref.toNat) e.mlen.toNat))
    (fun e => { e with i := e.i + e.mlen.setWidth 32, ls := e.i + e.mlen.setWidth 32, phase := .probe })

/-- One step of `ENC`, by phase (R180). -/
def Enc.step (P : EncParams) (e : Enc) : Except Fault Enc :=
  match e.phase with
  | .idle => .ok e
  | .probe => e.probeStep P
  | .extend => e.extendStep
  | .emit => e.emitStep
  | .flush => e.flushStep
  | .done => .ok e

/-- `n` steps of `ENC`. -/
def Enc.steps (P : EncParams) : Nat → Enc → Except Fault Enc
  | 0, e => .ok e
  | n + 1, e => do
    let e ← e.step P
    Enc.steps P n e

end Sys2Proof.Machine
end

