-- ==== Sys2Proof/Machine/HostPort.lean ====
section
/-! DEFINITION. What the host can do to the block: job registers (spec/10_state.md R20 to R23, R30, R33), the ranges and reset
(spec/70_reset_and_hazards.md R230 to R237, R242). -/

namespace Sys2Proof.Machine

/-- A read of a job register; it has no side effect (R236). Write-only and unused numbers read 0 (R20, R30, U17, log 13). Register
18 shows bit `W` of the bound in bit 0 (R33); that its bits `W-1 .. 1` read 0 is the model's choice (log 21). -/
def State.regRead (n : Nat) (s : State) : Word :=
  match n with
  | 1 => s.dec.status
  | 2 => s.dec.job.inLen
  | 3 => s.dec.job.outCap
  | 4 => s.dec.job.countRead s.dec.phase.finished
  | 9 => s.enc.status
  | 10 => s.enc.job.inLen
  | 11 => s.enc.job.outCap
  | 12 => s.enc.job.countRead s.enc.phase.finished
  | 16 => s.boundN
  | 17 => (boundResult s.boundN).setWidth 32
  | 18 => ((boundResult s.boundN) >>> 32).setWidth 32
  | _ => 0

/-- A write of `DEC_CTRL` (R21): bit 0 starts a job; other bits have no effect. -/
def Dec.writeCtrl (v : Word) (d : Dec) : Dec := if v.getLsbD 0 then d.start else d

/-- A write of `ENC_CTRL` (R30, R162). -/
def Enc.writeCtrl (v : Word) (e : Enc) : Enc := if v.getLsbD 0 then e.start else e

/-- A write of `DEC_IN_LEN`, ignored while busy (R23, R236). -/
def Dec.writeInLen (v : Word) (d : Dec) : Dec :=
  if d.phase.busy then d else { d with job := { d.job with inLen := v } }

/-- A write of `DEC_OUT_CAP`, ignored while busy (R23, R236). -/
def Dec.writeOutCap (v : Word) (d : Dec) : Dec :=
  if d.phase.busy then d else { d with job := { d.job with outCap := v } }

/-- A write of `ENC_IN_LEN`, ignored while busy (R30, R236). -/
def Enc.writeInLen (v : Word) (e : Enc) : Enc :=
  if e.phase.busy then e else { e with job := { e.job with inLen := v } }

/-- A write of `ENC_OUT_CAP`, ignored while busy (R30, R236). -/
def Enc.writeOutCap (v : Word) (e : Enc) : Enc :=
  if e.phase.busy then e else { e with job := { e.job with outCap := v } }

/-- A write of a job register; writes to read-only and unused numbers are ignored (R20, R30, U17, log 13). -/
def State.regWrite (n : Nat) (v : Word) (s : State) : State :=
  match n with
  | 0 => { s with dec := s.dec.writeCtrl v }
  | 2 => { s with dec := s.dec.writeInLen v }
  | 3 => { s with dec := s.dec.writeOutCap v }
  | 8 => { s with enc := s.enc.writeCtrl v }
  | 10 => { s with enc := s.enc.writeInLen v }
  | 11 => { s with enc := s.enc.writeOutCap v }
  | 16 => { s with boundN := v }
  | _ => s

/-- Whether an engine's job is running. -/
def State.busy (u : Engine) (s : State) : Bool :=
  match u with
  | .dec => s.dec.phase.busy
  | .enc => s.enc.phase.busy

/-- An engine's job interface. -/
def State.job (u : Engine) (s : State) : Job :=
  match u with
  | .dec => s.dec.job
  | .enc => s.enc.job

/-- The block with an engine's job interface replaced. -/
def State.withJob (u : Engine) (j : Job) (s : State) : State :=
  match u with
  | .dec => { s with dec := { s.dec with job := j } }
  | .enc => { s with enc := { s.enc with job := j } }

/-- The byte the host reads from an engine's `IN` (R234: harmless at any time). -/
def State.hostReadIn (u : Engine) (a : Word) (s : State) : Byte := (s.job u).inByte u a.toNat

/-- The byte the host reads from an engine's `OUT` between jobs; unspecified contents are a free value (R64, R65). -/
def State.hostReadOut (u : Engine) (a : Word) (s : State) : Byte := (s.job u).outByte u a.toNat

/-- `OUT` of an engine that reset finds busy holds unspecified contents (R231); otherwise reset leaves it (R36). -/
def Job.cut (busy : Bool) (j : Job) : Job := if busy then j.forgetOut 0 j.outCap.toNat else j

/-- An engine's job interface after the reset input was asserted: registers at their reset values, `IN` as it was (R230,
R231, R36). -/
def Job.afterReset (busy : Bool) (j : Job) : Job :=
  Job.reset j.inp (j.cut busy).out (j.cut busy).forgotten

/-- The block after the reset input was asserted (R230, R231); the moves to come are the environment's. -/
def State.afterReset (s : State) : State :=
  { dec := Dec.reset (s.dec.job.afterReset s.dec.phase.busy)
    enc := Enc.reset (s.enc.job.afterReset s.enc.phase.busy)
    boundN := 0
    moves := s.moves }

/-- What a move of the host does. While a job runs the host has no move on `OUT` and none that writes `IN` of that engine
(R234): such a move is refused (log 9). That it is refused at every offset, also at or beyond the lengths, is the model's choice
(log 22). -/
def State.hostMove (m : Move) (s : State) : Host.Outcome State Fault Refusal :=
  match m with
  | .writeReg n v => .next (s.regWrite n v)
  | .readReg _ => .next s
  | .writeIn u a b =>
    if s.busy u then .refused .handsOff
    else .next (s.withJob u { s.job u with inp := (s.job u).inp.write a.toNat b })
  | .readIn _ _ => .next s
  | .writeOut u a b =>
    if s.busy u then .refused .handsOff
    else .next (s.withJob u { s.job u with out := (s.job u).out.write a.toNat b })
  | .readOut u _ => if s.busy u then .refused .handsOff else .next s
  | .reset => .next s.afterReset
  | .run _ => .next s

end Sys2Proof.Machine
end

