-- ==== Sys2Proof/Machine/Sequencer.lean ====
section
/-! DEFINITION. The sequencer of `DEC`: fetching a token, and the byte-granular phases (spec/40_decoder_control.md R110 to R115,
spec/41_literal.md R131, spec/42_backref.md R143 to R145). -/

namespace Sys2Proof.Machine

/-- The follow-up bytes of the token at `ip`, by position. A byte beyond `in_len` is not read (R58 (a)); it stands as 0 here, and
the token's meaning never looks at it: its length test finds it missing first (R130, R140, R141). -/
def Dec.followUp (d : Dec) (k : Nat) : Byte :=
  if d.ip.toNat + 1 + k < d.job.inLen.toNat then d.job.inByte .dec (d.ip.toNat + 1 + k) else 0

/-- Fetches the token at `ip`: its control byte, inside the range only, tells which token it is (R85, R112). -/
def Dec.fetchToken (d : Dec) : Except Fault Instr := do
  let c ← d.job.readIn .dec d.ip.toNat
  .ok (decodeToken c d.followUp)

/-- FETCH step after the control byte has been read: dispatch (R112). -/
def Dec.dispatch (c : Byte) (d : Dec) : Dec :=
  if c.toNat < 32 then
    if d.job.inLen.toNat - d.ip.toNat < (literalCount c).toNat then d.raise .dataCorruption
    else if d.job.outCap.toNat - d.op.toNat < (literalCount c).toNat then d.raise .insufficientBuffer
    else { d with len := literalCount c, phase := .lit }
  else if lcode c = 7 then { d with phase := .ext }
  else { d with len := shortLength (lcode c), phase := .low }

/-- FETCH step (R111, R112). -/
def Dec.fetchStep (d : Dec) : Except Fault Dec :=
  if d.atEnd then .ok d.finish
  else do
    let c ← d.job.readIn .dec d.ip.toNat
    let d ← d.takeControl c
    .ok (d.dispatch c)

/-- Whether the copy in progress ends with this step: `len == 1` before it (R131, R143). -/
def Dec.afterCopy (d : Dec) (stay : DecPhase) : DecPhase := if d.len = 1 then .fetch else stay

/-- LIT step (R131). -/
def Dec.litStep (d : Dec) : Except Fault Dec := do
  let b ← d.job.readIn .dec d.ip.toNat
  let d' ← d.literalByte b
  .ok { d' with phase := d.afterCopy .lit }

/-- EXT step (R144). -/
def Dec.extStep (d : Dec) : Except Fault Dec :=
  if d.atEnd then .ok (d.raise .dataCorruption)
  else do
    let b ← d.job.readIn .dec d.ip.toNat
    let d ← d.advance
    .ok { d with len := longLength b, phase := .low }

/-- LOW step (R145). -/
def Dec.lowStep (d : Dec) : Except Fault Dec :=
  if d.atEnd then .ok (d.raise .dataCorruption)
  else do
    let r ← d.job.readIn .dec d.ip.toNat
    let d ← d.advance
    let dist := distance (low5 d.ctrl) r
    if dist.toNat > d.op.toNat then .ok (d.raise .dataCorruption)
    else if d.len.toNat > d.job.outCap.toNat - d.op.toNat then .ok (d.raise .insufficientBuffer)
    else .ok { d with dist := dist, phase := .copy }

/-- COPY step (R143). -/
def Dec.copyStep (d : Dec) : Except Fault Dec := do
  let d' ← d.copyByte
  .ok { d' with phase := d.afterCopy .copy }

/-- One byte step of `DEC`, by phase; IDLE and DONE have no step of their own (R123). -/
def Dec.byteStep (d : Dec) : Except Fault Dec :=
  match d.phase with
  | .idle => .ok d
  | .fetch => d.fetchStep
  | .lit => d.litStep
  | .ext => d.extStep
  | .low => d.lowStep
  | .copy => d.copyStep
  | .done => .ok d

/-- `n` byte steps of `DEC`. -/
def Dec.byteSteps : Nat → Dec → Except Fault Dec
  | 0, d => .ok d
  | n + 1, d => do
    let d ← d.byteStep
    Dec.byteSteps n d

end Sys2Proof.Machine
end

