-- ==== Sys2Proof/Machine/Turn.lean ====
section
/-! DEFINITION. The turn of each agent. `DEC` takes a whole token at a time from FETCH (spec/40_decoder_control.md R111 to R114,
R119), and a byte at a time inside a token; the two granularities agree (R122; log 1). -/

namespace Sys2Proof.Machine

/-- FETCH: the end of the stream ends the job (R114); else the token at `ip` is fetched and executed (R112). -/
def State.fetchTurn (s : State) : Host.Outcome State Fault Refusal :=
  if s.dec.atEnd then .next { s with dec := s.dec.finish }
  else
    match s.dec.fetchToken with
    | .ok i => exec i s
    | .error f => .fault f

/-- The turn of `DEC`. -/
def State.decTurn (s : State) : Host.Outcome State Fault Refusal :=
  match s.dec.phase with
  | .idle => .next s
  | .fetch => s.fetchTurn
  | .lit => s.ofDec s.dec.byteStep
  | .ext => s.ofDec s.dec.byteStep
  | .low => s.ofDec s.dec.byteStep
  | .copy => s.ofDec s.dec.byteStep
  | .done => .next s

/-- The turn of `ENC`. -/
def State.encTurn (s : State) : Host.Outcome State Fault Refusal := s.ofEnc (s.enc.step encParams)

/-- The turn of an engine. -/
def State.turn (u : Engine) (s : State) : Host.Outcome State Fault Refusal :=
  match u with
  | .dec => s.decTurn
  | .enc => s.encTurn

/-- A move: of an engine, or of the host. -/
def State.perform (m : Move) (s : State) : Host.Outcome State Fault Refusal :=
  match m with
  | .run u => s.turn u
  | m => s.hostMove m

/-- Which move comes next, and the block with that move taken off the list. With no move listed a running engine goes on, `DEC`
before `ENC` (log 11); with none running there is no step (R123, R212). -/
def State.nextMove (s : State) : Option (Move × State) :=
  match s.moves with
  | m :: rest => some (m, { s with moves := rest })
  | [] =>
    if s.dec.phase.busy then some (.run .dec, s)
    else if s.enc.phase.busy then some (.run .enc, s)
    else none

/-- One step of the block: the next move, or nothing while nobody moves. -/
def State.advance (s : State) : Host.Outcome State Fault Refusal :=
  match s.nextMove with
  | some (m, s') => s'.perform m
  | none => .next s

/-- The launch of a job whose stream begins with the given bytes: what the host's writes of `IN`, `IN_LEN` and `START` leave
(R232, R110; log 14). `OUT_CAP`, `OUT` and `op` are as they were. -/
def State.launch (bytes : List Byte) (s : State) : State :=
  { s with
    dec := { s.dec with
      job := { s.dec.job with inp := Memory.place bytes 0 s.dec.job.inp, inLen := BitVec.ofNat 32 bytes.length }
      phase := .fetch
      ip := 0 }
    moves := [] }

end Sys2Proof.Machine
end

