-- ==== Sys2Proof/Machine/Step.lean ====
section
/-! DEFINITION. One step of the block, and how the host places an instruction where the next step fetches it. -/

namespace Sys2Proof.Machine

/-- One step (spec/40_decoder_control.md R110 to R123, spec/70_reset_and_hazards.md R242): the next move of the environment's list,
or the running engine. -/
def step (s : State) : Host.Outcome State Fault Refusal := s.advance

/-- `s` with an instruction's bytes placed where the next step fetches: a job launched on a stream that begins with them (log
14). -/
def State.withFetchWord (s : State) (nbits w : Nat) : State := s.launch (tableBytes nbits w)

end Sys2Proof.Machine
end

