-- ==== Sys2Proof/Machine/Reference.lean ====
section
/-! DEFINITION. The big-step functions of the spec, over byte strings and natural numbers: the meaning of a stream
(spec/30_encoding.md R94), `DecodeAll` (spec/40_decoder_control.md R119) and `Compress` (spec/45_compressor.md R163). They are
transcribed from those rules alone and share nothing with the decoder, the sequencer or the engine they are compared with. -/

namespace Sys2Proof.Machine

/-- Abstract tokens (R94). -/
inductive Token where
  /-- `Lit(b)`. -/
  | lit (b : List Byte)
  /-- `Ref(d, l)`. -/
  | ref (d l : Nat)
  deriving DecidableEq, Repr

/-- The distance formula of R94: `(((c & 0x1F) << 8) | r) + 1`. -/
def refDistance (c r : Byte) : Nat := (((c.toNat &&& 0x1F) <<< 8) ||| r.toNat) + 1

/-- One step of `parse` (R94): the first token and the rest, or nothing when the token is truncated (or the string empty). -/
def parseOne : List Byte → Option (Token × List Byte)
  | [] => none
  | c :: s =>
    if c.toNat < 32 then
      if s.length < c.toNat + 1 then none
      else some (.lit (s.take (c.toNat + 1)), s.drop (c.toNat + 1))
    else if c.toNat >>> 5 < 7 then
      match s with
      | r :: s => some (.ref (refDistance c r) ((c.toNat >>> 5) + 2), s)
      | [] => none
    else
      match s with
      | e :: r :: s => some (.ref (refDistance c r) (e.toNat + 9), s)
      | _ => none

/-- `parse` with a bound on the number of tokens (R94); none is TRUNCATED. -/
def parseAux : Nat → List Byte → Option (List Token)
  | _, [] => some []
  | 0, _ :: _ => none
  | n + 1, c :: s =>
    match parseOne (c :: s) with
    | none => none
    | some (t, rest) => (parseAux n rest).map (t :: ·)

/-- `parse(s)` (R94): a string has at most as many tokens as bytes. -/
def parse (s : List Byte) : Option (List Token) := parseAux s.length s

/-- "`l` times in sequence, append the byte `o[|o| - d]`", `|o|` read anew each time (R94). -/
def appendBack (d : Nat) : Nat → List Byte → List Byte
  | 0, o => o
  | l + 1, o => appendBack d l (o ++ [o.getD (o.length - d) 0])

/-- One token of `expand` (R94); none is UNDERFLOW. -/
def expandOne (t : Token) (o : List Byte) : Option (List Byte) :=
  match t with
  | .lit b => some (o ++ b)
  | .ref d l => if d ≤ o.length then some (appendBack d l o) else none

/-- `expand` from an output string (R94). -/
def expandFrom : List Token → List Byte → Option (List Byte)
  | [], o => some o
  | t :: ts, o =>
    match expandOne t o with
    | none => none
    | some o' => expandFrom ts o'

/-- `expand(ts)` (R94). -/
def expand (ts : List Token) : Option (List Byte) := expandFrom ts []

/-- The decoded data of a valid token stream; none when the string is no valid token stream (R94). -/
def decodedData (s : List Byte) : Option (List Byte) := (parse s).bind expand

/-- What the longest run of complete tokens that do not underflow, from the start of the string, produces: `expand(T)` of R122
(b). The first argument bounds the number of tokens. -/
def goodOutputAux : Nat → List Byte → List Byte → List Byte
  | 0, _, o => o
  | n + 1, s, o =>
    match parseOne s with
    | none => o
    | some (t, rest) =>
      match expandOne t o with
      | none => o
      | some o' => goodOutputAux n rest o'

/-- `expand(T)` of R122 (b); its length is the `D` of that rule. -/
def goodOutput (s : List Byte) : List Byte := goodOutputAux s.length s []

/-- The result of a job: `OK` with the output, whose length is the count; or an error, with count 0 and no output promised (R119,
R65). -/
inductive JobResult where
  | ok (out : List Byte)
  | error (k : ErrKind)
  deriving DecidableEq, Repr

/-- `DecodeAll` (R119), on the rest of the stream and the output so far: `in_len - ip` is the number of bytes left and `op` the
length of the output. The first argument bounds the number of tokens. -/
def decodeAllAux (cap : Nat) : Nat → List Byte → List Byte → JobResult
  | _, [], out => .ok out
  | 0, _ :: _, out => .ok out
  | n + 1, c :: rest, out =>
    if c.toNat < 32 then
      if rest.length < c.toNat + 1 then .error .dataCorruption
      else if cap - out.length < c.toNat + 1 then .error .insufficientBuffer
      else decodeAllAux cap n (rest.drop (c.toNat + 1)) (out ++ rest.take (c.toNat + 1))
    else if c.toNat >>> 5 = 7 then
      match rest with
      | [] => .error .dataCorruption
      | [_] => .error .dataCorruption
      | e :: r :: rest =>
        if refDistance c r > out.length then .error .dataCorruption
        else if e.toNat + 9 > cap - out.length then .error .insufficientBuffer
        else decodeAllAux cap n rest (appendBack (refDistance c r) (e.toNat + 9) out)
    else
      match rest with
      | [] => .error .dataCorruption
      | r :: rest =>
        if refDistance c r > out.length then .error .dataCorruption
        else if (c.toNat >>> 5) + 2 > cap - out.length then .error .insufficientBuffer
        else decodeAllAux cap n rest (appendBack (refDistance c r) ((c.toNat >>> 5) + 2) out)

/-- `DecodeAll(IN, in_len, out_cap)` (R119). -/
def decodeAll (inp : List Byte) (cap : Nat) : JobResult := decodeAllAux cap inp.length inp []

/-- The variables of the loop of `Compress` (R163): `out` is `OUT[0 .. eop]`. -/
structure CompressVars where
  htab : Table Nat
  i : Nat
  ls : Nat
  out : List Byte
  deriving DecidableEq, Repr

/-- `Emit` (R163, R172): none is InsufficientBuffer. -/
def emitBytes (cap : Nat) (bytes out : List Byte) : Option (List Byte) :=
  if cap - out.length < bytes.length then none else some (out ++ bytes)

/-- `Flush(a, b)` (R163, R170), with a bound on the number of groups. -/
def flushAux (inp : List Byte) (cap : Nat) : Nat → Nat → Nat → List Byte → Option (List Byte)
  | 0, _, _, out => some out
  | n + 1, a, b, out =>
    if a < b then
      let l := min 32 (b - a)
      match emitBytes cap (BitVec.ofNat 8 (l - 1) :: (inp.drop a).take l) out with
      | none => none
      | some out => flushAux inp cap n (a + l) b out
    else some out

/-- `Flush(a, b)`: a span has at most as many groups as bytes. -/
def flushSpan (inp : List Byte) (cap a b : Nat) (out : List Byte) : Option (List Byte) :=
  flushAux inp cap (b - a) a b out

/-- The extension loop (R163, R167), at most `n` more bytes, from a length of `mlen`. -/
def extendMatch (inp : List Byte) (r i : Nat) : Nat → Nat → Nat
  | 0, mlen => mlen
  | n + 1, mlen =>
    if mlen < 264 ∧ i + mlen < inp.length ∧ inp.getD (r + mlen) 0 = inp.getD (i + mlen) 0 then
      extendMatch inp r i n (mlen + 1)
    else mlen

/-- `encode_ref(d, l)` (R97): `f = d - 1`; two bytes up to length 8, three above. -/
def encodeRef (d l : Nat) : List Byte :=
  if l ≤ 8 then
    [BitVec.ofNat 8 (((l - 2) <<< 5) ||| ((d - 1) >>> 8)), BitVec.ofNat 8 ((d - 1) &&& 0xFF)]
  else [BitVec.ofNat 8 (0xE0 ||| ((d - 1) >>> 8)), BitVec.ofNat 8 (l - 9), BitVec.ofNat 8 ((d - 1) &&& 0xFF)]

/-- The viability test of R163 (R166 (a) to (d)) for the entry found at position `i`. -/
def viableMatch (inp : List Byte) (entry : Option Nat) (i : Nat) : Option Nat :=
  match entry with
  | none => none
  | some r =>
    if 1 ≤ i - r ∧ i - r ≤ 8192 ∧ inp.getD r 0 = inp.getD i 0 ∧ inp.getD (r + 1) 0 = inp.getD (i + 1) 0
        ∧ inp.getD (r + 2) 0 = inp.getD (i + 2) 0 ∧ 3 < inp.length - i then some r
    else none

/-- The index a probe at position `i` hashes to (R164). -/
def hashAt (P : EncParams) (inp : List Byte) (i : Nat) : Nat :=
  (P.hash (inp.getD i 0) (inp.getD (i + 1) 0) (inp.getD (i + 2) 0)).toNat

/-- One pass of the main loop of `Compress` (R163) at a position `i < in_len`. -/
def compressPass (P : EncParams) (inp : List Byte) (cap : Nat) (v : CompressVars) : Option CompressVars :=
  if 3 ≤ inp.length - v.i then
    let h := hashAt P inp v.i
    let htab := v.htab.set h v.i
    match viableMatch inp (v.htab.get? h) v.i with
    | some r =>
      let mlen := extendMatch inp r v.i 261 3
      match flushSpan inp cap v.ls v.i v.out with
      | none => none
      | some out =>
        match emitBytes cap (encodeRef (v.i - r) mlen) out with
        | none => none
        | some out => some { htab := htab, i := v.i + mlen, ls := v.i + mlen, out := out }
    | none => some { v with htab := htab, i := v.i + 1 }
  else some { v with i := v.i + 1 }

/-- The main loop of `Compress` (R163), at most `n` passes. -/
def compressLoop (P : EncParams) (inp : List Byte) (cap : Nat) : Nat → CompressVars → Option CompressVars
  | 0, v => some v
  | n + 1, v =>
    if v.i < inp.length then
      match compressPass P inp cap v with
      | none => none
      | some v => compressLoop P inp cap n v
    else some v

/-- `Compress(IN, in_len, out_cap)` (R163): each pass moves the cursor, so there are at most `in_len` passes. -/
def compress (P : EncParams) (inp : List Byte) (cap : Nat) : JobResult :=
  match compressLoop P inp cap inp.length { htab := [], i := 0, ls := 0, out := [] } with
  | none => .error .insufficientBuffer
  | some v =>
    match flushSpan inp cap v.ls inp.length v.out with
    | none => .error .insufficientBuffer
    | some out => .ok out

end Sys2Proof.Machine
end

