-- ==== Sys2Proof/Safety.lean ====
section
/-! DEFINITION. What a safe state of the block is: the invariants of spec/10_state.md R37, R31, R32 and the result registers
(spec/60_exceptions.md R203, R206), in the terms claims use. -/

namespace Sys2Proof.Machine

/-- Canonical memories, and what the result registers of an engine hold at any time. -/
structure Job.Inv (j : Job) : Prop where
  /-- The memories are in canonical form. -/
  inpWf : j.inp.wf
  outWf : j.out.wf
  /-- `Unknown` is never raised (R203). -/
  errKnown : j.err ≠ .unknown
  /-- An error reports count 0 and not EMPTY (R206). -/
  errResult : j.err ≠ .ok → j.count = 0 ∧ j.empty = false

/-- R37 (c) to (f): what each phase of `DEC` may rely on. -/
def Dec.phaseInv (d : Dec) : Prop :=
  match d.phase with
  | .idle => True
  | .fetch => True
  | .lit => 1 ≤ d.len.toNat ∧ d.len.toNat ≤ 32 ∧ d.ip.toNat + d.len.toNat ≤ d.job.inLen.toNat
      ∧ d.op.toNat + d.len.toNat ≤ d.job.outCap.toNat
  | .ext => lcode d.ctrl = 7
  | .low => 32 ≤ d.ctrl.toNat ∧ 3 ≤ d.len.toNat ∧ d.len.toNat ≤ 264
  | .copy => 1 ≤ d.len.toNat ∧ d.len.toNat ≤ 264 ∧ 1 ≤ d.dist.toNat ∧ d.dist.toNat ≤ 8192
      ∧ d.dist.toNat ≤ d.op.toNat ∧ d.op.toNat + d.len.toNat ≤ d.job.outCap.toNat
  | .done => True

/-- R37 (a) to (f) for `DEC`, with what a running job may rely on; (g) compares two runs and is no property of one state. -/
structure Dec.Inv (d : Dec) : Prop where
  job : d.job.Inv
  /-- R37 (a). -/
  ipBound : d.phase.busy = true → d.ip.toNat ≤ d.job.inLen.toNat
  /-- R37 (b). -/
  opBound : d.phase.busy = true → d.op.toNat ≤ d.job.outCap.toNat
  /-- R52: the bytes written so far are `OUT[0 .. op]`. -/
  written : d.phase.busy = true → ∀ a, a < d.op.toNat → (d.job.out.read? a).isSome = true
  /-- R37 (c) to (f). -/
  phaseInv : d.phaseInv

/-- A match in progress: a candidate in reach whose first `mlen` bytes repeat (R166, R167). -/
def Enc.matchInv (e : Enc) : Prop :=
  e.ref.toNat < e.i.toNat ∧ e.i.toNat - e.ref.toNat ≤ 8192 ∧ 3 ≤ e.mlen.toNat ∧ e.mlen.toNat ≤ 264
    ∧ e.i.toNat + e.mlen.toNat ≤ e.job.inLen.toNat
    ∧ ∀ k, k < e.mlen.toNat → e.job.inByte .enc (e.ref.toNat + k) = e.job.inByte .enc (e.i.toNat + k)

/-- What each phase of `ENC` may rely on (R165 to R171). -/
def Enc.phaseInv (e : Enc) : Prop :=
  match e.phase with
  | .idle => True
  | .probe => ∀ c ∈ e.htab, c.2.toNat < e.i.toNat
  | .extend => e.matchInv ∧ ∀ c ∈ e.htab, c.2.toNat ≤ e.i.toNat
  | .flush => e.i = e.job.inLen ∨ (e.matchInv ∧ ∀ c ∈ e.htab, c.2.toNat ≤ e.i.toNat)
  | .emit => e.ls = e.i ∧ e.matchInv ∧ ∀ c ∈ e.htab, c.2.toNat ≤ e.i.toNat
  | .done => True

/-- The invariant of `ENC` (R31, R32, R165). -/
structure Enc.Inv (e : Enc) : Prop where
  job : e.job.Inv
  /-- `ENC` never reports `DataCorruption` (R30, R160). -/
  errKind : e.job.err ≠ .dataCorruption
  /-- `HTAB` has `2 ^ HLOG` entries (R32). -/
  htabWf : Table.wf (2 ^ Config.hlog) e.htab
  cursor : e.phase.busy = true → e.ls.toNat ≤ e.i.toNat ∧ e.i.toNat ≤ e.job.inLen.toNat
  eopBound : e.phase.busy = true → e.eop.toNat ≤ e.job.outCap.toNat
  phaseInv : e.phaseInv

/-- The invariant of the block. -/
structure State.Inv (s : State) : Prop where
  dec : s.dec.Inv
  enc : s.enc.Inv

/-- A launched `DEC` job (R110, R232): what `START` leaves, the stream being the bytes of `IN`. -/
def Dec.launched (stream : List Byte) (d : Dec) : Prop :=
  d.phase = .fetch ∧ d.ip = 0 ∧ d.op = 0 ∧ d.job.inLen.toNat = stream.length
    ∧ ∀ a, a < stream.length → d.job.inByte .dec a = stream.getD a 0

/-- A launched `ENC` job (R162, R232). -/
def Enc.launched (input : List Byte) (e : Enc) : Prop :=
  e.phase = .probe ∧ e.i = 0 ∧ e.ls = 0 ∧ e.eop = 0 ∧ e.htab = [] ∧ e.job.inLen.toNat = input.length
    ∧ ∀ a, a < input.length → e.job.inByte .enc a = input.getD a 0

/-- The bytes of the stream from `ip` to its end: what the parser has not read yet (R24). -/
def Dec.remaining (d : Dec) : List Byte :=
  (List.range (d.job.inLen.toNat - d.ip.toNat)).map (fun k => d.job.inByte .dec (d.ip.toNat + k))

/-- The six rows of `SREF`, each with the length it encodes (R90). -/
def srefRows (dh : BitVec 5) (r : Byte) : List (Instr × Nat) :=
  [(.srefL3 dh r, 3), (.srefL4 dh r, 4), (.srefL5 dh r, 5), (.srefL6 dh r, 6), (.srefL7 dh r, 7), (.srefL8 dh r, 8)]

/-- The distance of a back-reference as a number (R88). -/
def refDist (dh : BitVec 5) (r : Byte) : Nat := dh.toNat * 256 + r.toNat + 1

/-- The abstract token an instruction stands for (R94). -/
def tokenOf : Instr → Token
  | .lit data => .lit data
  | .srefL3 dh r => .ref (refDist dh r) 3
  | .srefL4 dh r => .ref (refDist dh r) 4
  | .srefL5 dh r => .ref (refDist dh r) 5
  | .srefL6 dh r => .ref (refDist dh r) 6
  | .srefL7 dh r => .ref (refDist dh r) 7
  | .srefL8 dh r => .ref (refDist dh r) 8
  | .lref dh e r => .ref (refDist dh r) (e.toNat + 9)

/-- The value of `lcode` an instruction's row has in the opcode table (R90). -/
def rowOf : Instr → Nat
  | .lit _ => 0
  | .srefL3 _ _ => 1
  | .srefL4 _ _ => 2
  | .srefL5 _ _ => 3
  | .srefL6 _ _ => 4
  | .srefL7 _ _ => 5
  | .srefL8 _ _ => 6
  | .lref _ _ _ => 7

/-- What a conforming encoder may emit as one token (R174, R95). -/
def conformingToken : Token → Prop
  | .lit b => 1 ≤ b.length ∧ b.length ≤ 32
  | .ref d l => 1 ≤ d ∧ d ≤ 8192 ∧ 3 ≤ l ∧ l ≤ 264

/-- A finished job interface reports a result (R114, R206): the error kind, the count, and for `OK` the bytes `OUT[0 .. count]`,
known. -/
def Job.reports (r : JobResult) (j : Job) : Prop :=
  match r with
  | .ok out => j.err = .ok ∧ j.count.toNat = out.length ∧ ∀ a, a < out.length → j.out.read? a = out[a]?
  | .error k => j.err = k ∧ j.count = 0 ∧ j.empty = false

end Sys2Proof.Machine
end

