-- ==== Sys2Proof/Certificates/Slice0/Obligations.lean ====
section
/-! DEFINITION. The statements about the model, for the provers. -/

open Sys2Proof Sys2Proof.Machine

/-! ## The wire format -/

/-- Token bytes of spec/95_test_vectors.md section 2, written out from the formats of R82 to R84, decode to the tokens they stand
for. -/
def Obligations.TableWordsDecodeToTheirTokens : Prop :=
  decode [0x02, 0x61, 0x62, 0x63] = .ok (.lit [0x61, 0x62, 0x63], [])
    ∧ decode [0x3F, 0xFF] = .ok (.srefL3 31 255, [])
    ∧ decode [0x40, 0x00] = .ok (.srefL4 0 0, [])
    ∧ decode [0x60, 0x01] = .ok (.srefL5 0 1, [])
    ∧ decode [0x80, 0x02, 0x99] = .ok (.srefL6 0 2, [0x99])
    ∧ decode [0xA1, 0x00] = .ok (.srefL7 1 0, [])
    ∧ decode [0xC0, 0x07] = .ok (.srefL8 0 7, [])
    ∧ decode [0xE1, 0xFF, 0x07] = .ok (.lref 1 255 7, [])

/-- Decoding an encoded instruction, whatever follows it, gives the instruction and what follows (R82 to R85, R97). -/
def Obligations.DecodeOfEncodeIsTheInstruction : Prop :=
  ∀ (i : Instr) (rest : List Byte), i.wellFormed = true → decode (encode i ++ rest) = .ok (i, rest)

/-- Whatever decodes is the encoding of a well-formed instruction, followed by the rest: no bit of a token is dropped. -/
def Obligations.EncodeOfDecodeIsTheBytes : Prop :=
  ∀ (bytes rest : List Byte) (i : Instr),
    decode bytes = .ok (i, rest) → i.wellFormed = true ∧ bytes = encode i ++ rest

/-- The opcode map is total (R90, R91): with its follow-up bytes there, every control byte starts a token, of the row its top
three bits select, and the token has the length the control byte tells (R85). -/
def Obligations.EveryControlByteStartsAToken : Prop :=
  ∀ (c : Byte) (rest : List Byte), tokenLength c ≤ 1 + rest.length →
    ∃ i : Instr, decode (c :: rest) = .ok (i, rest.drop (tokenLength c - 1))
      ∧ i.wellFormed = true ∧ i.control = c ∧ rowOf i = c.toNat / 32 ∧ (encode i).length = tokenLength c

/-- The immediates as numbers (R86 to R89): none wraps in its register. -/
def Obligations.ImmediatesAreTheirFormulas : Prop :=
  (∀ c : Byte, (literalCount c).toNat = c.toNat % 32 + 1)
    ∧ (∀ lc : BitVec 3, (shortLength lc).toNat = lc.toNat + 2)
    ∧ (∀ e : Byte, (longLength e).toNat = e.toNat + 9)
    ∧ (∀ (dh : BitVec 5) (r : Byte), (distance dh r).toNat = dh.toNat * 256 + r.toNat + 1
        ∧ 1 ≤ (distance dh r).toNat ∧ (distance dh r).toNat ≤ 8192)

/-- `encode_ref` and `encode_lit` (R97): the token built for a distance and a length has exactly the bytes of the formula, and
those bytes parse back to that distance and length by the formulas of R94 (R96: one encoding each); a literal token is its count
minus 1 followed by its bytes. -/
def Obligations.ReferenceEncodingIsInverse : Prop :=
  (∀ (d l : Nat) (rest : List Byte), 1 ≤ d → d ≤ 8192 → 3 ≤ l → l ≤ 264 →
    encode (refInstr d l) = encodeRef d l ∧ tokenOf (refInstr d l) = .ref d l
      ∧ parseOne (encodeRef d l ++ rest) = some (.ref d l, rest))
  ∧ ∀ b : List Byte, 1 ≤ b.length → b.length ≤ 32 → encode (.lit b) = BitVec.ofNat 8 (b.length - 1) :: b

/-- The decoder reads the tokens of R94's `parse`: the same abstract token and the same rest, and truncation exactly where `parse`
is truncated. -/
def Obligations.DecoderAgreesWithParse : Prop :=
  ∀ s : List Byte, parseOne s =
    match decode s with
    | .ok (i, rest) => some (tokenOf i, rest)
    | .error _ => none

/-- `LITS` (R98): a span of bytes becomes well-formed tokens, each of them a literal, that carry exactly the span, all but the last
of 32 bytes, and their number is the ceiling of a 32nd of the span. -/
def Obligations.LiteralRunCarriesTheSpan : Prop :=
  ∀ bytes : List Byte,
    (∀ i ∈ literalRun bytes, i.wellFormed = true ∧ ∃ data : List Byte, i = .lit data)
      ∧ (literalRun bytes).flatMap Instr.followUp = bytes
      ∧ (∀ i ∈ (literalRun bytes).dropLast, i.followUp.length = 32)
      ∧ (literalRun bytes).length = (bytes.length + 31) / 32

/-! ## The literal token -/

/-- A literal token whose bytes are in `IN` and fit in `OUT` completes (R130, R132): its bytes are at `OUT[op ..]`, the cursors
are past them, the phase is FETCH, and nothing else changes: no flag, no other register, no other byte of any memory. -/
def Obligations.LiteralCopiesItsBytes : Prop :=
  ∀ (data : List Byte) (s : State), (Instr.lit data).wellFormed = true →
    s.dec.ip.toNat + 1 + data.length ≤ s.dec.job.inLen.toNat →
    s.dec.op.toNat + data.length ≤ s.dec.job.outCap.toNat →
    ∃ out : Memory,
      exec (.lit data) s = .next { s with dec := { s.dec with
        job := { s.dec.job with out := out }
        phase := .fetch
        ip := s.dec.ip + BitVec.ofNat 32 (data.length + 1)
        op := s.dec.op + BitVec.ofNat 32 data.length
        ctrl := BitVec.ofNat 8 (data.length - 1)
        len := 0 } }
      ∧ ∀ a, out.read? a =
          if s.dec.op.toNat ≤ a ∧ a < s.dec.op.toNat + data.length then data[a - s.dec.op.toNat]?
          else s.dec.job.out.read? a

/-- A literal token that cannot be executed raises, before any byte is copied (R130, R205): `DataCorruption` when its bytes are
not all in `IN`, whatever room there is; else `InsufficientBuffer` when they do not fit in `OUT`. -/
def Obligations.LiteralErrorsInOrder : Prop :=
  ∀ (data : List Byte) (s : State), (Instr.lit data).wellFormed = true →
    s.dec.ip.toNat < s.dec.job.inLen.toNat →
    (s.dec.job.inLen.toNat < s.dec.ip.toNat + 1 + data.length →
      exec (.lit data) s = .next { s with dec := Dec.raise .dataCorruption { s.dec with
        ip := s.dec.ip + 1, ctrl := BitVec.ofNat 8 (data.length - 1) } })
    ∧ (s.dec.ip.toNat + 1 + data.length ≤ s.dec.job.inLen.toNat →
      s.dec.job.outCap.toNat < s.dec.op.toNat + data.length →
      exec (.lit data) s = .next { s with dec := Dec.raise .insufficientBuffer { s.dec with
        ip := s.dec.ip + 1, ctrl := BitVec.ofNat 8 (data.length - 1) } })

/-! ## The back-reference tokens -/

/-- `ValidateAndCopy` (R142, R146): underflow is tested first, room second; else the bytes at `op ..` become the `d`-byte pattern
that ended at `op`, repeated, and no other byte changes. -/
def Obligations.ValidateAndCopyFollowsItsRule : Prop :=
  ∀ (dist : BitVec 14) (length : BitVec 9) (d : Dec), 1 ≤ dist.toNat →
    (d.op.toNat < dist.toNat → d.validateAndCopy dist length = .ok (d.raise .dataCorruption))
    ∧ (dist.toNat ≤ d.op.toNat → d.job.outCap.toNat - d.op.toNat < length.toNat →
      d.validateAndCopy dist length = .ok (d.raise .insufficientBuffer))
    ∧ (dist.toNat ≤ d.op.toNat → d.op.toNat + length.toNat ≤ d.job.outCap.toNat → ∃ out : Memory,
      d.validateAndCopy dist length = .ok { d with
        job := { d.job with out := out }
        phase := .fetch
        op := d.op + BitVec.ofNat 32 length.toNat
        len := 0
        dist := dist }
      ∧ (∀ j, j < length.toNat → out.read? (d.op.toNat + j) =
          some (d.job.outByte .dec (d.op.toNat - dist.toNat + j % dist.toNat)))
      ∧ ∀ a, a < d.op.toNat ∨ d.op.toNat + length.toNat ≤ a → out.read? a = d.job.out.read? a)

/-- A short back-reference, of each of the six rows, that reaches back into the output and fits completes (R140, R142, R146): the
bytes written are the `distance`-byte pattern that ended at `op`, repeated as often as the length asks, overlap included; nothing
else changes but the registers named. -/
def Obligations.ShortReferencesRepeatThePattern : Prop :=
  ∀ (dh : BitVec 5) (r : Byte) (s : State), ∀ row ∈ srefRows dh r,
    s.dec.ip.toNat + 2 ≤ s.dec.job.inLen.toNat →
    refDist dh r ≤ s.dec.op.toNat →
    s.dec.op.toNat + row.2 ≤ s.dec.job.outCap.toNat →
    ∃ out : Memory,
      exec row.1 s = .next { s with dec := { s.dec with
        job := { s.dec.job with out := out }
        phase := .fetch
        ip := s.dec.ip + 2
        op := s.dec.op + BitVec.ofNat 32 row.2
        ctrl := row.1.control
        len := 0
        dist := BitVec.ofNat 14 (refDist dh r) } }
      ∧ ∀ a, out.read? a =
          if s.dec.op.toNat ≤ a ∧ a < s.dec.op.toNat + row.2 then
            some (s.dec.job.outByte .dec
              (s.dec.op.toNat - refDist dh r + (a - s.dec.op.toNat) % refDist dh r))
          else s.dec.job.out.read? a

/-- A short back-reference that cannot be executed raises, in the order of R205: no low byte (`DC3`), underflow (`DC4`), no room
(`IB2`); no byte is written. -/
def Obligations.ShortReferenceErrorsInOrder : Prop :=
  ∀ (dh : BitVec 5) (r : Byte) (s : State), ∀ row ∈ srefRows dh r,
    (s.dec.ip.toNat + 1 = s.dec.job.inLen.toNat →
      exec row.1 s = .next { s with dec := Dec.raise .dataCorruption { s.dec with
        ip := s.dec.ip + 1, ctrl := row.1.control, len := BitVec.ofNat 9 row.2 } })
    ∧ (s.dec.ip.toNat + 2 ≤ s.dec.job.inLen.toNat → s.dec.op.toNat < refDist dh r →
      exec row.1 s = .next { s with dec := Dec.raise .dataCorruption { s.dec with
        ip := s.dec.ip + 2, ctrl := row.1.control, len := BitVec.ofNat 9 row.2 } })
    ∧ (s.dec.ip.toNat + 2 ≤ s.dec.job.inLen.toNat → refDist dh r ≤ s.dec.op.toNat →
      s.dec.job.outCap.toNat < s.dec.op.toNat + row.2 →
      exec row.1 s = .next { s with dec := Dec.raise .insufficientBuffer { s.dec with
        ip := s.dec.ip + 2, ctrl := row.1.control, len := BitVec.ofNat 9 row.2 } })

/-- A long back-reference that reaches back into the output and fits completes (R141, R142, R146), as the short one, with length
`e + 9`. -/
def Obligations.LongReferenceRepeatsThePattern : Prop :=
  ∀ (dh : BitVec 5) (e r : Byte) (s : State),
    s.dec.ip.toNat + 3 ≤ s.dec.job.inLen.toNat →
    refDist dh r ≤ s.dec.op.toNat →
    s.dec.op.toNat + (e.toNat + 9) ≤ s.dec.job.outCap.toNat →
    ∃ out : Memory,
      exec (.lref dh e r) s = .next { s with dec := { s.dec with
        job := { s.dec.job with out := out }
        phase := .fetch
        ip := s.dec.ip + 3
        op := s.dec.op + BitVec.ofNat 32 (e.toNat + 9)
        ctrl := BitVec.ofNat 8 (224 + dh.toNat)
        len := 0
        dist := BitVec.ofNat 14 (refDist dh r) } }
      ∧ ∀ a, out.read? a =
          if s.dec.op.toNat ≤ a ∧ a < s.dec.op.toNat + (e.toNat + 9) then
            some (s.dec.job.outByte .dec
              (s.dec.op.toNat - refDist dh r + (a - s.dec.op.toNat) % refDist dh r))
          else s.dec.job.out.read? a

/-- A long back-reference that cannot be executed raises, in the order of R205: no extension byte (`DC2`), no low byte (`DC3`),
underflow (`DC4`), no room (`IB2`); no byte is written. -/
def Obligations.LongReferenceErrorsInOrder : Prop :=
  ∀ (dh : BitVec 5) (e r : Byte) (s : State),
    (s.dec.ip.toNat + 1 = s.dec.job.inLen.toNat →
      exec (.lref dh e r) s = .next { s with dec := Dec.raise .dataCorruption { s.dec with
        ip := s.dec.ip + 1, ctrl := BitVec.ofNat 8 (224 + dh.toNat) } })
    ∧ (s.dec.ip.toNat + 2 = s.dec.job.inLen.toNat →
      exec (.lref dh e r) s = .next { s with dec := Dec.raise .dataCorruption { s.dec with
        ip := s.dec.ip + 2, ctrl := BitVec.ofNat 8 (224 + dh.toNat), len := BitVec.ofNat 9 (e.toNat + 9) } })
    ∧ (s.dec.ip.toNat + 3 ≤ s.dec.job.inLen.toNat → s.dec.op.toNat < refDist dh r →
      exec (.lref dh e r) s = .next { s with dec := Dec.raise .dataCorruption { s.dec with
        ip := s.dec.ip + 3, ctrl := BitVec.ofNat 8 (224 + dh.toNat), len := BitVec.ofNat 9 (e.toNat + 9) } })
    ∧ (s.dec.ip.toNat + 3 ≤ s.dec.job.inLen.toNat → refDist dh r ≤ s.dec.op.toNat →
      s.dec.job.outCap.toNat < s.dec.op.toNat + (e.toNat + 9) →
      exec (.lref dh e r) s = .next { s with dec := Dec.raise .insufficientBuffer { s.dec with
        ip := s.dec.ip + 3, ctrl := BitVec.ofNat 8 (224 + dh.toNat), len := BitVec.ofNat 9 (e.toNat + 9) } })

/-! ## All tokens -/

/-- The frame of every token, of every form, whether it completes or raises: the other units, `IN`, the lengths and `OUT` beyond
`out_cap` are as they were (R51, R58 (b)). When it completes, the result registers are as they were (R29) and `OUT` changes only
between the old and the new `op` (R52). When it raises, `op` has not moved and the result is an error kind with count 0 and not
EMPTY (R206). -/
def Obligations.TokensChangeOnlyTheirRange : Prop :=
  ∀ (i : Instr) (s t : State), exec i s = .next t →
    t = { s with dec := t.dec }
      ∧ t.dec.job.inp = s.dec.job.inp ∧ t.dec.job.inLen = s.dec.job.inLen ∧ t.dec.job.outCap = s.dec.job.outCap
      ∧ (∀ a, s.dec.job.outCap.toNat ≤ a → t.dec.job.out.read? a = s.dec.job.out.read? a
        ∧ t.dec.job.outByte .dec a = s.dec.job.outByte .dec a)
      ∧ ((t.dec.phase = .fetch ∧ s.dec.op.toNat ≤ t.dec.op.toNat
            ∧ t.dec.job = { s.dec.job with out := t.dec.job.out }
            ∧ ∀ a, a < s.dec.op.toNat ∨ t.dec.op.toNat ≤ a → t.dec.job.out.read? a = s.dec.job.out.read? a)
        ∨ (t.dec.phase = .done ∧ t.dec.op = s.dec.op ∧ t.dec.job.count = 0 ∧ t.dec.job.empty = false
            ∧ (t.dec.job.err = .dataCorruption ∨ t.dec.job.err = .insufficientBuffer)))

/-- A token whose control byte would lie outside `IN` is not executed: the access is a fault by name (R58 (a)); in every other
state every token, of every form, answers a next state. The fault is the model's (log 8). -/
def Obligations.TokensFaultOnlyOutsideTheInput : Prop :=
  ∀ (i : Instr) (s : State),
    (s.dec.job.inLen.toNat ≤ s.dec.ip.toNat → exec i s = .fault .readPastInput)
      ∧ (s.dec.ip.toNat < s.dec.job.inLen.toNat → ∃ t, exec i s = .next t)

/-- What raising an error leaves (R206), in each engine: DONE with the kind, count 0, not EMPTY, as the host reads them; the
lengths, `IN` and the working registers as they were, and nothing beyond `OUT` written. (What is left of `OUT` is the model's form
of R65, `Obligations.UnspecifiedContentsAreForgotten`.) -/
def Obligations.RaiseLeavesOnlyTheKind : Prop :=
  (∀ (k : ErrKind) (d : Dec), (d.raise k).status = BitVec.ofNat 32 (2 + 4 * k.code.toNat)
      ∧ (d.raise k).job.countRead (d.raise k).phase.finished = 0
      ∧ d.raise k = { d with phase := .done, job := { d.job with
          err := k, count := 0, empty := false, out := (d.raise k).job.out, forgotten := (d.raise k).job.forgotten } }
      ∧ ∀ a, d.job.outCap.toNat ≤ a → (d.raise k).job.out.read? a = d.job.out.read? a
        ∧ (d.raise k).job.outByte .dec a = d.job.outByte .dec a)
  ∧ (∀ (k : ErrKind) (e : Enc), (e.raise k).status = BitVec.ofNat 32 (2 + 4 * k.code.toNat)
      ∧ (e.raise k).job.countRead (e.raise k).phase.finished = 0
      ∧ e.raise k = { e with phase := .done, job := { e.job with
          err := k, count := 0, empty := false, out := (e.raise k).job.out, forgotten := (e.raise k).job.forgotten } }
      ∧ ∀ a, e.job.outCap.toNat ≤ a → (e.raise k).job.out.read? a = e.job.out.read? a
        ∧ (e.raise k).job.outByte .enc a = e.job.outByte .enc a)

/-- What the end of a job leaves of `OUT` (R64, R65), in the model's form (log 4): after an error no byte below `out_cap` is
known; after success the bytes below the count are as they were, and none from the count to `out_cap` is known; beyond `out_cap`
nothing changes. As read, the bytes left unspecified are new free values, and every other byte, known or not, is as it was. -/
def Obligations.UnspecifiedContentsAreForgotten : Prop :=
  (∀ (k : ErrKind) (j : Job) (a : Nat), (j.fail k).out.read? a =
      if a < j.outCap.toNat then none else j.out.read? a)
  ∧ (∀ (c : Word) (j : Job) (a : Nat), (j.succeed c).out.read? a =
      if c.toNat ≤ a ∧ a < j.outCap.toNat then none else j.out.read? a)
  ∧ (∀ (u : Engine) (k : ErrKind) (j : Job) (a : Nat), (j.fail k).outByte u a =
      if a < j.outCap.toNat then Config.unspecifiedOutByte u (j.forgotten.length + 1) a else j.outByte u a)
  ∧ ∀ (u : Engine) (c : Word) (j : Job) (a : Nat), (j.succeed c).outByte u a =
      if c.toNat ≤ a ∧ a < j.outCap.toNat then Config.unspecifiedOutByte u (j.forgotten.length + 1) a
      else j.outByte u a

/-! ## The step of the decompressor -/

/-- When `DEC` moves in FETCH and the stream from `ip` on decodes to an instruction, the step is that instruction (R85, R112; the
granularity is the model's, log 1). -/
def Obligations.StepRunsTheDecodedToken : Prop :=
  ∀ (s s' : State) (i : Instr) (rest : List Byte), s.nextMove = some (.run .dec, s') →
    s'.dec.phase = .fetch → s'.dec.ip.toNat < s'.dec.job.inLen.toNat →
    decode s'.dec.remaining = .ok (i, rest) → step s = exec i s'

/-- When the stream ends inside a token, the step ends the job with `DataCorruption` and count 0 (R92 (a), R201; the
granularity is the model's, log 1). -/
def Obligations.TruncatedStreamIsDataCorruption : Prop :=
  ∀ (s s' : State) (err : DecodeError), s.nextMove = some (.run .dec, s') →
    s'.dec.phase = .fetch → s'.dec.ip.toNat < s'.dec.job.inLen.toNat →
    decode s'.dec.remaining = .error err →
    ∃ t, step s = .next t ∧ t = { s' with dec := t.dec } ∧ t.dec.phase = .done
      ∧ t.dec.job.err = .dataCorruption ∧ t.dec.job.count = 0 ∧ t.dec.job.empty = false

/-- In FETCH at the end of the stream the step ends the job well (R114): DONE, `OK`, the count is `op`, EMPTY tells an empty
input; `OUT[0 .. count]` stays, nothing beyond `OUT` is written and nothing else changes. -/
def Obligations.EndOfStreamEndsTheJob : Prop :=
  ∀ s s' : State, s.nextMove = some (.run .dec, s') →
    s'.dec.phase = .fetch → s'.dec.ip = s'.dec.job.inLen →
    ∃ (out : Memory) (spans : List (Nat × Nat)), step s = .next { s' with dec := { s'.dec with
        phase := .done
        job := { s'.dec.job with
          err := .ok, count := s'.dec.op, empty := decide (s'.dec.job.inLen = 0), out := out, forgotten := spans } } }
      ∧ ∀ a, a < s'.dec.op.toNat ∨ s'.dec.job.outCap.toNat ≤ a → out.read? a = s'.dec.job.out.read? a
        ∧ Job.outByte .dec { s'.dec.job with out := out, forgotten := spans } a = s'.dec.job.outByte .dec a

/-- A step in FETCH on a literal control byte moves the bytes that follow it in `IN` to `OUT[op ..]` (R132), and neither memory
changes elsewhere. That one step of the block moves the whole run is the model's granularity (log 1). -/
def Obligations.LiteralStepCopiesInToOut : Prop :=
  ∀ (s s' : State), s.nextMove = some (.run .dec, s') → s'.dec.phase = .fetch →
    let c := s'.dec.job.inByte .dec s'.dec.ip.toNat
    c.toNat < 32 →
    s'.dec.ip.toNat + 1 + (c.toNat + 1) ≤ s'.dec.job.inLen.toNat →
    s'.dec.op.toNat + (c.toNat + 1) ≤ s'.dec.job.outCap.toNat →
    ∃ t, step s = .next t ∧ t.dec.phase = .fetch ∧ t.dec.job = { s'.dec.job with out := t.dec.job.out }
      ∧ t.dec.ip.toNat = s'.dec.ip.toNat + tokenLength c ∧ t.dec.op.toNat = s'.dec.op.toNat + (c.toNat + 1)
      ∧ (∀ j, j < c.toNat + 1 →
          t.dec.job.out.read? (s'.dec.op.toNat + j) = some (s'.dec.job.inByte .dec (s'.dec.ip.toNat + 1 + j)))
      ∧ ∀ a, a < s'.dec.op.toNat ∨ s'.dec.op.toNat + (c.toNat + 1) ≤ a →
          t.dec.job.out.read? a = s'.dec.job.out.read? a

/-- With no move pending and no engine running there is no step: every register keeps its value (R123, R212);
that the model's step then answers the same state is its own choice (log 15). -/
def Obligations.IdleBlockKeepsItsState : Prop :=
  ∀ s : State, s.moves = [] → s.dec.phase.busy = false → s.enc.phase.busy = false → step s = .next s

/-! ## The phases, byte by byte -/

/-- A step in a copy phase moves one byte and raises nothing: in LIT the next byte of `IN` (R131), in COPY the byte `dist` behind
`op`, the latest written there (R143, R60); after the last one the phase is FETCH. -/
def Obligations.CopyPhasesMoveOneByte : Prop :=
  (∀ s s' : State, s.nextMove = some (.run .dec, s') → s'.dec.phase = .lit →
    s'.dec.ip.toNat < s'.dec.job.inLen.toNat → s'.dec.op.toNat < s'.dec.job.outCap.toNat →
    ∃ out : Memory, step s = .next { s' with dec := { s'.dec with
        job := { s'.dec.job with out := out }
        phase := if s'.dec.len = 1 then .fetch else .lit
        ip := s'.dec.ip + 1
        op := s'.dec.op + 1
        len := s'.dec.len - 1 } }
      ∧ ∀ a, out.read? a =
          if a = s'.dec.op.toNat then some (s'.dec.job.inByte .dec s'.dec.ip.toNat) else s'.dec.job.out.read? a)
  ∧ ∀ s s' : State, s.nextMove = some (.run .dec, s') → s'.dec.phase = .copy →
    1 ≤ s'.dec.dist.toNat → s'.dec.dist.toNat ≤ s'.dec.op.toNat → s'.dec.op.toNat < s'.dec.job.outCap.toNat →
    ∃ out : Memory, step s = .next { s' with dec := { s'.dec with
        job := { s'.dec.job with out := out }
        phase := if s'.dec.len = 1 then .fetch else .copy
        op := s'.dec.op + 1
        len := s'.dec.len - 1 } }
      ∧ ∀ a, out.read? a =
          if a = s'.dec.op.toNat then some (s'.dec.job.outByte .dec (s'.dec.op.toNat - s'.dec.dist.toNat))
          else s'.dec.job.out.read? a

/-- A step in phase EXT (R144). -/
def Obligations.ExtensionPhaseReadsTheLength : Prop :=
  ∀ s s' : State, s.nextMove = some (.run .dec, s') → s'.dec.phase = .ext →
    (s'.dec.ip = s'.dec.job.inLen → step s = .next { s' with dec := s'.dec.raise .dataCorruption })
    ∧ (s'.dec.ip.toNat < s'.dec.job.inLen.toNat → step s = .next { s' with dec := { s'.dec with
        phase := .low
        ip := s'.dec.ip + 1
        len := BitVec.ofNat 9 ((s'.dec.job.inByte .dec s'.dec.ip.toNat).toNat + 9) } })

/-- A step in phase LOW (R145), by its tests in order. -/
def Obligations.LowPhaseChecksTheReference : Prop :=
  ∀ s s' : State, s.nextMove = some (.run .dec, s') → s'.dec.phase = .low →
    let d := (s'.dec.ctrl.toNat % 32) * 256 + (s'.dec.job.inByte .dec s'.dec.ip.toNat).toNat + 1
    (s'.dec.ip = s'.dec.job.inLen → step s = .next { s' with dec := s'.dec.raise .dataCorruption })
    ∧ (s'.dec.ip.toNat < s'.dec.job.inLen.toNat → s'.dec.op.toNat < d →
      step s = .next { s' with dec := Dec.raise .dataCorruption { s'.dec with ip := s'.dec.ip + 1 } })
    ∧ (s'.dec.ip.toNat < s'.dec.job.inLen.toNat → d ≤ s'.dec.op.toNat →
      s'.dec.job.outCap.toNat - s'.dec.op.toNat < s'.dec.len.toNat →
      step s = .next { s' with dec := Dec.raise .insufficientBuffer { s'.dec with ip := s'.dec.ip + 1 } })
    ∧ (s'.dec.ip.toNat < s'.dec.job.inLen.toNat → d ≤ s'.dec.op.toNat →
      s'.dec.len.toNat ≤ s'.dec.job.outCap.toNat - s'.dec.op.toNat →
      step s = .next { s' with dec := { s'.dec with
        phase := .copy, ip := s'.dec.ip + 1, dist := BitVec.ofNat 14 d } })

/-- The byte-granular FETCH step (R112): what each kind of control byte leaves, `ip` inside `IN`. -/
def Obligations.FetchPhaseDispatches : Prop :=
  ∀ d : Dec, d.phase = .fetch → d.ip.toNat < d.job.inLen.toNat →
    let c := d.job.inByte .dec d.ip.toNat
    let d' : Dec := { d with ip := d.ip + 1, ctrl := c }
    (c.toNat < 32 → d.job.inLen.toNat - (d.ip.toNat + 1) < c.toNat + 1 →
      d.byteStep = .ok (d'.raise .dataCorruption))
    ∧ (c.toNat < 32 → c.toNat + 1 ≤ d.job.inLen.toNat - (d.ip.toNat + 1) →
      d.job.outCap.toNat - d.op.toNat < c.toNat + 1 → d.byteStep = .ok (d'.raise .insufficientBuffer))
    ∧ (c.toNat < 32 → c.toNat + 1 ≤ d.job.inLen.toNat - (d.ip.toNat + 1) →
      c.toNat + 1 ≤ d.job.outCap.toNat - d.op.toNat →
      d.byteStep = .ok { d' with phase := .lit, len := BitVec.ofNat 9 (c.toNat + 1) })
    ∧ (224 ≤ c.toNat → d.byteStep = .ok { d' with phase := .ext })
    ∧ (32 ≤ c.toNat → c.toNat < 224 →
      d.byteStep = .ok { d' with phase := .low, len := BitVec.ofNat 9 (c.toNat / 32 + 2) })

/-- A token is its byte steps (R113): executing the token fetched at `ip` leaves exactly what the sequencer leaves after the steps
of that token, at most 267 of them. -/
def Obligations.TokenIsItsByteSteps : Prop :=
  ∀ (s t : State) (i : Instr), s.dec.phase = .fetch → s.dec.ip.toNat < s.dec.job.inLen.toNat →
    s.dec.op.toNat ≤ s.dec.job.outCap.toNat → s.dec.fetchToken = .ok i → exec i s = .next t →
    ∃ n, 1 ≤ n ∧ n ≤ 267 ∧ Dec.byteSteps n s.dec = .ok t.dec

/-! ## Whole jobs -/

/-- The sequencer, launched on any stream and any capacity, is DONE after at most `in_len + out_cap + 1` byte steps with the
result of `DecodeAll` (R118, R119, R122 (a)); EMPTY tells an empty input, and `IN` is as it was. -/
def Obligations.SequencerComputesDecodeAll : Prop :=
  ∀ (stream : List Byte) (d : Dec), d.launched stream →
    ∃ n d', n ≤ d.job.inLen.toNat + d.job.outCap.toNat + 1 ∧ Dec.byteSteps n d = .ok d' ∧ d'.phase = .done
      ∧ d'.job.reports (decodeAll stream d.job.outCap.toNat)
      ∧ d'.job.empty = decide (stream = []) ∧ d'.job.inp = d.job.inp

/-- The block's own steps compute the same: with nothing else pending, a launched `DEC` job is DONE after at most `in_len + 1`
steps of the block (log 1, log 11) with the result of `DecodeAll`, and the rest of the block is as it was (R119, R122 (a),
R68). -/
def Obligations.BlockComputesDecodeAll : Prop :=
  ∀ (stream : List Byte) (s : State), s.moves = [] → s.dec.launched stream →
    ∃ n t, n ≤ stream.length + 1 ∧ Sys2Proof.core.run n s = .next t ∧ t.dec.phase = .done
      ∧ t.dec.job.reports (decodeAll stream s.dec.job.outCap.toNat)
      ∧ t.dec.job.empty = decide (stream = []) ∧ t.dec.job.inp = s.dec.job.inp
      ∧ t.enc = s.enc ∧ t.boundN = s.boundN ∧ t.moves = []

/-- The closed form of the result (R122 (b)): with `D` the size of what the tokens before the first bad one produce, the result is
`InsufficientBuffer` when `D > out_cap`, else `DataCorruption` when the stream is not valid, else its decoded data. -/
def Obligations.DecodeAllHasItsClosedForm : Prop :=
  ∀ (s : List Byte) (cap : Nat), decodeAll s cap =
    if cap < (goodOutput s).length then .error .insufficientBuffer
    else
      match decodedData s with
      | none => .error .dataCorruption
      | some out => .ok out

/-- The result of a job depends on the stream and the capacity alone (R61, R117): two engines launched on the same stream with the
same capacity, whatever else they hold (`OUT`, working registers, earlier results), are DONE at the same step with the same kind,
count, EMPTY and bytes `OUT[0 .. count]`. And while a job runs, `OUT[0 .. op]` depends on `IN[0 .. ip]` alone (R37 (g)): two
engines launched on any streams with any capacities, still running after the same number of byte steps, with the same bytes of
`IN` below the `ip` of one, have the same `ip`, `op` and `OUT[0 .. op]`. -/
def Obligations.ResultDependsOnStreamAndCapacity : Prop :=
  (∀ (stream : List Byte) (d₁ d₂ e₁ : Dec) (n : Nat), d₁.launched stream → d₂.launched stream →
    d₁.job.outCap = d₂.job.outCap → Dec.byteSteps n d₁ = .ok e₁ → e₁.phase = .done →
    ∃ e₂, Dec.byteSteps n d₂ = .ok e₂ ∧ e₂.phase = .done ∧ e₂.job.err = e₁.job.err
      ∧ e₂.job.count = e₁.job.count ∧ e₂.job.empty = e₁.job.empty
      ∧ ∀ a, a < e₁.job.count.toNat → e₂.job.out.read? a = e₁.job.out.read? a)
  ∧ ∀ (stream₁ stream₂ : List Byte) (d₁ d₂ e₁ e₂ : Dec) (n : Nat), d₁.launched stream₁ → d₂.launched stream₂ →
    Dec.byteSteps n d₁ = .ok e₁ → Dec.byteSteps n d₂ = .ok e₂ → e₁.phase.busy = true → e₂.phase.busy = true →
    stream₂.take e₁.ip.toNat = stream₁.take e₁.ip.toNat →
    e₂.ip = e₁.ip ∧ e₂.op = e₁.op ∧ ∀ a, a < e₁.op.toNat → e₂.job.out.read? a = e₁.job.out.read? a

/-! ## The host's registers, start and reset -/

/-- The status words (R22, R27, R30): BUSY, DONE, ERR and EMPTY at their bits, ERR and EMPTY 0 while DONE is 0, every other bit 0,
and never BUSY and DONE together. -/
def Obligations.StatusFieldsReadAsListed : Prop :=
  (∀ s : State, (s.regRead 1).getLsbD 0 = s.dec.phase.busy ∧ (s.regRead 1).getLsbD 1 = s.dec.phase.finished
      ∧ (s.regRead 1).extractLsb' 2 2 = (if s.dec.phase.finished then s.dec.job.err.code else 0)
      ∧ (s.regRead 1).getLsbD 4 = (s.dec.phase.finished && s.dec.job.empty)
      ∧ (∀ k, 5 ≤ k → (s.regRead 1).getLsbD k = false)
      ∧ ((s.regRead 1).getLsbD 0 && (s.regRead 1).getLsbD 1) = false)
  ∧ (∀ s : State, (s.regRead 9).getLsbD 0 = s.enc.phase.busy ∧ (s.regRead 9).getLsbD 1 = s.enc.phase.finished
      ∧ (s.regRead 9).extractLsb' 2 2 = (if s.enc.phase.finished then s.enc.job.err.code else 0)
      ∧ (s.regRead 9).getLsbD 4 = (s.enc.phase.finished && s.enc.job.empty)
      ∧ (∀ k, 5 ≤ k → (s.regRead 9).getLsbD k = false)
      ∧ ((s.regRead 9).getLsbD 0 && (s.regRead 9).getLsbD 1) = false)

/-- The register map (R20, R23, R30, R33): the control registers and the unused numbers read 0, the counts read 0 until DONE. That
the bits of register 18 above bit 0 read 0 is the model's choice (log 21). -/
def Obligations.RegisterMapReadsAsListed : Prop :=
  ∀ s : State,
    (∀ n ∈ [0, 5, 6, 7, 8, 13, 14, 15], s.regRead n = 0)
      ∧ s.regRead 2 = s.dec.job.inLen ∧ s.regRead 3 = s.dec.job.outCap
      ∧ s.regRead 4 = (if s.dec.phase = .done then s.dec.job.count else 0)
      ∧ s.regRead 10 = s.enc.job.inLen ∧ s.regRead 11 = s.enc.job.outCap
      ∧ s.regRead 12 = (if s.enc.phase = .done then s.enc.job.count else 0)
      ∧ s.regRead 16 = s.boundN
      ∧ ∀ k, 1 ≤ k → (s.regRead 18).getLsbD k = false

/-- A length register written while its engine is not busy holds what was written, and nothing else changes (R23, R30, R33); a
write to a read-only or unused number is ignored in every state, whatever the engines do (R20, R30, R33, U17). -/
def Obligations.LengthRegistersHoldWhatIsWritten : Prop :=
  ∀ (s : State) (v : Word) (rest : List Move),
    (s.dec.phase.busy = false →
      (s.moves = .writeReg 2 v :: rest → step s = .next { s with moves := rest, dec := { s.dec with
        job := { s.dec.job with inLen := v } } })
      ∧ (s.moves = .writeReg 3 v :: rest → step s = .next { s with moves := rest, dec := { s.dec with
        job := { s.dec.job with outCap := v } } }))
    ∧ (s.enc.phase.busy = false →
      (s.moves = .writeReg 10 v :: rest → step s = .next { s with moves := rest, enc := { s.enc with
        job := { s.enc.job with inLen := v } } })
      ∧ (s.moves = .writeReg 11 v :: rest → step s = .next { s with moves := rest, enc := { s.enc with
        job := { s.enc.job with outCap := v } } }))
    ∧ (s.moves = .writeReg 16 v :: rest → step s = .next { s with moves := rest, boundN := v })
    ∧ ∀ n ∈ [1, 4, 5, 6, 7, 9, 12, 13, 14, 15, 17, 18], s.moves = .writeReg n v :: rest →
      step s = .next { s with moves := rest }

/-- While an engine is busy a write to any of its job registers changes nothing; a read of a register never does (R236, R21). -/
def Obligations.WritesWhileBusyAreIgnored : Prop :=
  (∀ (s : State) (n : Nat) (v : Word) (rest : List Move), s.moves = .writeReg n v :: rest →
    (s.dec.phase.busy = true ∧ n < 8) ∨ (s.enc.phase.busy = true ∧ 8 ≤ n ∧ n < 16) →
    step s = .next { s with moves := rest })
  ∧ ∀ (s : State) (n : Nat) (rest : List Move), s.moves = .readReg n :: rest → step s = .next { s with moves := rest }

/-- A write of `DEC_CTRL` (R21): bit 0 starts a job while not busy, in IDLE or DONE (R110, R237), whatever the reserved bits: it
sets the cursors and the phase, and STATUS then reads BUSY alone and COUNT 0. Nothing else changes; of `ctrl`, `len` and `dist`,
which R110 calls unspecified then, nothing is said. A value with bit 0 clear, and any value while busy, does nothing. The register
reads 0. -/
def Obligations.DecoderStartBeginsAJob : Prop :=
  (∀ (s : State) (v : Word) (rest : List Move), s.moves = .writeReg 0 v :: rest →
    (s.dec.phase.busy = false → v.getLsbD 0 = true →
      ∃ t, step s = .next t
        ∧ t = { s with moves := rest, dec := { s.dec with
            ip := 0, op := 0, phase := .fetch, ctrl := t.dec.ctrl, len := t.dec.len, dist := t.dec.dist } }
        ∧ t.regRead 1 = 1 ∧ t.regRead 4 = 0)
    ∧ (s.dec.phase.busy = true ∨ v.getLsbD 0 = false → step s = .next { s with moves := rest }))
  ∧ ∀ s : State, s.regRead 0 = 0

/-- `START` of `ENC` (R162): the cursors, an empty table and the phase; STATUS then reads BUSY alone and COUNT 0. Nothing else
changes; of `ref`, `ref_valid` and `mlen`, which no rule reads before it is written (log 7), nothing is said. A value with bit 0
clear, and any value while busy, does nothing (R30, R236). -/
def Obligations.EncoderStartBeginsAJob : Prop :=
  ∀ (s : State) (v : Word) (rest : List Move), s.moves = .writeReg 8 v :: rest →
    (s.enc.phase.busy = false → v.getLsbD 0 = true →
      ∃ t, step s = .next t
        ∧ t = { s with moves := rest, enc := { s.enc with
            i := 0, ls := 0, eop := 0, htab := [], phase := .probe,
            ref := t.enc.ref, refValid := t.enc.refValid, mlen := t.enc.mlen } }
        ∧ t.regRead 9 = 1 ∧ t.regRead 12 = 0)
    ∧ (s.enc.phase.busy = true ∨ v.getLsbD 0 = false → step s = .next { s with moves := rest })

/-- Right after reset every job register reads its reset value, and `BOUND_RESULT` reads `bound(0) = 1` (R36, R230; the
bits of register 18 above bit 0 are log 21). -/
def Obligations.ResetRegistersReadTheirValues : Prop :=
  (∀ n ∈ [0, 1, 2, 3, 4, 8, 9, 10, 11, 12, 16, 18], State.reset.regRead n = 0) ∧ State.reset.regRead 17 = 1
    ∧ State.reset.dec.phase = .idle ∧ State.reset.enc.phase = .idle

/-- The reset input, in any state, also during a job (R230, R231, R36; register 18 above bit 0: log 21): the engines are idle, the
job registers read their reset values, `IN` is as it was; `OUT` is as it was, but for an engine that was busy nothing is known of
it (the model's form of R231, log 4), and beyond `OUT` nothing changed. -/
def Obligations.ResetStopsEverything : Prop :=
  ∀ (s : State) (rest : List Move), s.moves = .reset :: rest →
    ∃ t, step s = .next t ∧ t.moves = rest ∧ t.dec.phase = .idle ∧ t.enc.phase = .idle
      ∧ (∀ n ∈ [0, 1, 2, 3, 4, 8, 9, 10, 11, 12, 16, 18], t.regRead n = 0) ∧ t.regRead 17 = 1
      ∧ (∀ u, (t.job u).inp = (s.job u).inp)
      ∧ (∀ u a, (t.job u).out.read? a =
          if s.busy u = true ∧ a < (s.job u).outCap.toNat then none else (s.job u).out.read? a)
      ∧ ∀ u a, s.busy u = false ∨ (s.job u).outCap.toNat ≤ a → (t.job u).outByte u a = (s.job u).outByte u a

/-- While an engine is busy the host has no move that writes its `IN` or touches its `OUT` (R234): the step refuses by name, which
is the model's form of the rule (log 9), at every offset, also at or beyond the lengths (log 22). Reading `IN` is harmless at any
time. -/
def Obligations.HandsOffDuringAJob : Prop :=
  (∀ (s : State) (u : Engine) (a : Word) (rest : List Move), s.moves = .readIn u a :: rest →
    step s = .next { s with moves := rest })
  ∧ ∀ (s : State) (u : Engine) (a : Word) (b : Byte) (rest : List Move), s.busy u = true →
    (s.moves = .writeIn u a b :: rest ∨ s.moves = .writeOut u a b :: rest ∨ s.moves = .readOut u a :: rest) →
    step s = .refused .handsOff

/-- While an engine is not busy the host places bytes in its memories (R242, R232), each at its offset and nowhere else, and then
reads what was placed; nothing else of the block changes. A read of its `OUT` takes the move off the list and changes nothing
(R242, R55). That the host may do so at any `W`-bit offset, also at or beyond `in_len` and `out_cap`, is the model's choice
(log 20). -/
def Obligations.HostPlacesBytesBetweenJobs : Prop :=
  ∀ (s : State) (u : Engine) (a : Word) (b : Byte) (rest : List Move), s.busy u = false →
    (s.moves = .writeIn u a b :: rest → ∃ m : Memory,
      step s = .next (State.withJob u { s.job u with inp := m } { s with moves := rest })
        ∧ (∀ x, m.read? x = if x = a.toNat then some b else (s.job u).inp.read? x)
        ∧ ∀ x, State.hostReadIn u x (State.withJob u { s.job u with inp := m } { s with moves := rest }) =
            if x = a then b else s.hostReadIn u x)
    ∧ (s.moves = .writeOut u a b :: rest → ∃ m : Memory,
      step s = .next (State.withJob u { s.job u with out := m } { s with moves := rest })
        ∧ (∀ x, m.read? x = if x = a.toNat then some b else (s.job u).out.read? x)
        ∧ ∀ x, State.hostReadOut u x (State.withJob u { s.job u with out := m } { s with moves := rest }) =
            if x = a then b else s.hostReadOut u x)
    ∧ (s.moves = .readOut u a :: rest → step s = .next { s with moves := rest })

/-- `BOUND_RESULT` (R33, R176): register 17 and bit 0 of register 18 together hold `floor(n * 26 / 25) + 1` of `BOUND_N`, in 33
bits, never wrapping. -/
def Obligations.BoundRegistersHoldTheBound : Prop :=
  (∀ s : State, (s.regRead 17).toNat + 2 ^ 32 * ((s.regRead 18).getLsbD 0).toNat = s.boundN.toNat * 26 / 25 + 1)
  ∧ ∀ n : Nat, boundNat n = n * 26 / 25 + 1

/-! ## The whole block -/

/-- Every step keeps the invariant: R37 (a) to (f) for `DEC` (item (g), of two runs, is
`Obligations.ResultDependsOnStreamAndCapacity`), the table and match invariants of `ENC` (R31, R32, R165 to R167), canonical
memories, and no `Unknown` result (R203). -/
def Obligations.StepKeepsTheInvariant : Prop :=
  ∀ s t : State, s.Inv → step s = .next t → t.Inv

/-- The invariant holds right after reset. -/
def Obligations.ResetMeetsTheInvariant : Prop := State.reset.Inv

/-- From every state that meets the invariant no step faults: no access outside a range, whatever the stream (R58;
the faults are the model's, log 8). -/
def Obligations.NoAccessOutsideTheRanges : Prop :=
  ∀ (s : State) (f : Fault), s.Inv → step s ≠ .fault f

/-- A step is refused only where the host breaks the hands-off rule (R234, log 9, log 22): no token, no engine and no register
access is ever refused. -/
def Obligations.OnlyTheHostIsRefused : Prop :=
  ∀ (s : State) (r : Refusal), step s = .refused r →
    r = .handsOff ∧ ∃ (u : Engine) (a : Word) (b : Byte) (rest : List Move), s.busy u = true ∧
      (s.moves = .writeIn u a b :: rest ∨ s.moves = .writeOut u a b :: rest ∨ s.moves = .readOut u a :: rest)

/-- An engine's turn changes nothing but that engine, and of it neither `IN` nor the lengths nor `OUT` beyond `out_cap`, as known
and as read (R2, R51, R58 (b), R68). A turn of `ENC` is one step of its sequencer, with the default parameters (log 6, log 18). -/
def Obligations.EngineTurnsStayInTheirEngine : Prop :=
  (∀ (s s' t : State) (u : Engine), s.nextMove = some (.run u, s') → step s = .next t →
    t.moves = s'.moves ∧ t.boundN = s'.boundN
      ∧ (u = .dec → t.enc = s'.enc) ∧ (u = .enc → t.dec = s'.dec)
      ∧ (t.job u).inp = (s'.job u).inp ∧ (t.job u).inLen = (s'.job u).inLen
      ∧ (t.job u).outCap = (s'.job u).outCap
      ∧ ∀ a, (s'.job u).outCap.toNat ≤ a → (t.job u).out.read? a = (s'.job u).out.read? a
        ∧ (t.job u).outByte u a = (s'.job u).outByte u a)
  ∧ ∀ s s' : State, s.nextMove = some (.run .enc, s') → step s = s'.ofEnc (s'.enc.step encParams)

/-- The engines do not interact (R68): their turns commute. -/
def Obligations.EngineTurnsCommute : Prop :=
  ∀ s t u : State, s.decTurn = .next t → t.encTurn = .next u → ∃ t', s.encTurn = .next t' ∧ t'.decTurn = .next u

/-! ## The compressor -/

/-- The default hash as a number (R164), for every size of the table: the little-endian load times 40503, in 32 bits, of which the
top `HLOG` bits are the index; the machine's engine runs with it at `HLOG = 14` (log 5, log 6). -/
def Obligations.DefaultHashIsItsFormula : Prop :=
  (∀ (hlog : Nat) (b0 b1 b2 : Byte), 1 ≤ hlog → hlog ≤ 24 → (defaultHash hlog b0 b1 b2).toNat =
    ((b0.toNat + 256 * b1.toNat + 65536 * b2.toNat) * 40503 % 2 ^ 32) / 2 ^ (32 - hlog))
  ∧ encParams = { hlog := 14, hash := defaultHash 14 }

/-- A probe (R165, R166, R171). At the end of the input the phase goes to FLUSH and nothing else changes. With a full window the
entry of the window's hash is read, then set to the position, whether or not the candidate is viable; the phase goes to EXTEND
exactly when clauses (a) to (d) hold of the entry read, else the byte joins the literal run. Where fewer than three bytes are left
the byte joins the run with no table access (w). One step is one cursor position (log 18). -/
def Obligations.ProbeReadsThenWritesThenDecides : Prop :=
  (∀ (P : EncParams) (e : Enc), e.phase = .probe → e.i = e.job.inLen → e.step P = .ok { e with phase := .flush })
  ∧ (∀ (P : EncParams) (e : Enc), e.phase = .probe → e.i.toNat < e.job.inLen.toNat →
    e.job.inLen.toNat < e.i.toNat + 3 → e.step P = .ok { e with i := e.i + 1 })
  ∧ ∀ (P : EncParams) (e : Enc), e.phase = .probe → e.i.toNat + 3 ≤ e.job.inLen.toNat →
    let byte := fun a => e.job.inByte .enc a
    let h := (P.hash (byte e.i.toNat) (byte (e.i.toNat + 1)) (byte (e.i.toNat + 2))).toNat
    let viable := ∃ r : Word, Table.get? e.htab h = some r ∧ 1 ≤ e.i.toNat - r.toNat ∧ e.i.toNat - r.toNat ≤ 8192
      ∧ (∀ k, k < 3 → byte (r.toNat + k) = byte (e.i.toNat + k)) ∧ 3 < e.job.inLen.toNat - e.i.toNat
    ∃ e', e.step P = .ok e' ∧ e'.htab = Table.set e.htab h e.i ∧ Table.get? e'.htab h = some e.i
      ∧ (∀ r, Table.get? e.htab h = some r → e'.ref = r) ∧ e'.refValid = (Table.get? e.htab h).isSome
      ∧ e'.job = e.job ∧ e'.ls = e.ls ∧ e'.eop = e.eop
      ∧ (viable → e'.phase = .extend ∧ e'.mlen = 3 ∧ e'.i = e.i)
      ∧ (¬ viable → e'.phase = .probe ∧ e'.mlen = e.mlen ∧ e'.i = e.i + 1)

/-- The extension (R167): a match grows by one byte while it is shorter than 264, the input goes on and the next bytes are equal;
else the pending run is flushed; nothing else changes. One step is one comparison (log 18). -/
def Obligations.MatchGrowsWhileBytesAreEqual : Prop :=
  ∀ (P : EncParams) (e : Enc), e.phase = .extend → e.ref.toNat < e.i.toNat →
    let grows := e.mlen.toNat < 264 ∧ e.i.toNat + e.mlen.toNat < e.job.inLen.toNat
      ∧ e.job.inByte .enc (e.ref.toNat + e.mlen.toNat) = e.job.inByte .enc (e.i.toNat + e.mlen.toNat)
    (grows → e.step P = .ok { e with mlen := e.mlen + 1 })
    ∧ (¬ grows → e.step P = .ok { e with phase := .flush })

/-- The literal flush (R170, R171, R172): a pending run of `R` bytes gives one literal token of `min 32 R` bytes at `eop`, or the
job ends with `InsufficientBuffer`; an empty run emits nothing and is followed by the match token, or, at the end of the input, by
the successful end of the job. One step is one literal token (log 18). -/
def Obligations.FlushEmitsOneGroupAtATime : Prop :=
  ∀ (P : EncParams) (e : Enc), e.phase = .flush → e.i.toNat ≤ e.job.inLen.toNat →
    let n := min 32 (e.i.toNat - e.ls.toNat)
    let token := BitVec.ofNat 8 (n - 1) ::
      (List.range n).map (fun k => e.job.inByte .enc (e.ls.toNat + k))
    (e.ls.toNat < e.i.toNat → e.job.outCap.toNat - e.eop.toNat < n + 1 →
      e.step P = .ok (e.raise .insufficientBuffer))
    ∧ (e.ls.toNat < e.i.toNat → n + 1 ≤ e.job.outCap.toNat - e.eop.toNat → ∃ out : Memory,
      e.step P = .ok { e with
        job := { e.job with out := out }, eop := e.eop + BitVec.ofNat 32 (n + 1), ls := e.ls + BitVec.ofNat 32 n }
      ∧ ∀ a, out.read? a = if e.eop.toNat ≤ a ∧ a < e.eop.toNat + (n + 1) then token[a - e.eop.toNat]?
          else e.job.out.read? a)
    ∧ (e.ls = e.i → e.i ≠ e.job.inLen → e.step P = .ok { e with phase := .emit })
    ∧ (e.ls = e.i → e.i = e.job.inLen → e.step P = .ok e.finish)

/-- The match token (R168, R169, R172): with room, `encode_ref(i - ref, mlen)` is written at `eop`, the cursor moves past the
match and the run is empty; the table is as it was. Without room the job ends with `InsufficientBuffer`. One step is the whole
match token (log 18). -/
def Obligations.MatchTokenMovesTheCursor : Prop :=
  ∀ (P : EncParams) (e : Enc), e.phase = .emit → 1 ≤ e.i.toNat - e.ref.toNat → e.i.toNat - e.ref.toNat ≤ 8192 →
    3 ≤ e.mlen.toNat → e.mlen.toNat ≤ 264 →
    let token := encodeRef (e.i.toNat - e.ref.toNat) e.mlen.toNat
    (e.job.outCap.toNat - e.eop.toNat < token.length → e.step P = .ok (e.raise .insufficientBuffer))
    ∧ (token.length ≤ e.job.outCap.toNat - e.eop.toNat → ∃ out : Memory,
      e.step P = .ok { e with
        job := { e.job with out := out }
        eop := e.eop + BitVec.ofNat 32 token.length
        i := e.i + BitVec.ofNat 32 e.mlen.toNat
        ls := e.i + BitVec.ofNat 32 e.mlen.toNat
        phase := .probe }
      ∧ ∀ a, out.read? a = if e.eop.toNat ≤ a ∧ a < e.eop.toNat + token.length then token[a - e.eop.toNat]?
          else e.job.out.read? a)

/-- The engine, launched on any input, with any hash and table size, reaches DONE with the result of `Compress` (R163, R180), its
result a function of the input and the capacity (R178); EMPTY tells an empty input (R173), and `IN` is as it was. The block takes
a launched job of its `ENC` there too, with the result of `Compress` for the default parameters (log 5, log 6), whatever `DEC`
holds; `DEC` and `BOUND` are as they were. That as many turns of `ENC` come next as that needs is said by the model's list of
moves (log 11). -/
def Obligations.EngineComputesCompress : Prop :=
  (∀ (P : EncParams) (input : List Byte) (e : Enc), e.launched input →
    ∃ n e', Enc.steps P n e = .ok e' ∧ e'.phase = .done
      ∧ e'.job.reports (compress P input e.job.outCap.toNat)
      ∧ e'.job.empty = decide (input = []) ∧ e'.job.inp = e.job.inp)
  ∧ ∀ (input : List Byte) (s : State), s.enc.launched input →
    ∃ n, ∀ rest : List Move, ∃ t,
      Sys2Proof.core.run n { s with moves := List.replicate n (.run .enc) ++ rest } = .next t ∧ t.enc.phase = .done
      ∧ t.enc.job.reports (compress encParams input s.enc.job.outCap.toNat)
      ∧ t.enc.job.empty = decide (input = []) ∧ t.enc.job.inp = s.enc.job.inp
      ∧ t.dec = s.dec ∧ t.boundN = s.boundN ∧ t.moves = rest

/-- Round trip of the two engines (R175): when `ENC` ends a job on `x` with `OK` and `k` bytes, `DEC`, launched on those bytes
with any capacity that holds `x`, ends with `OK`, the count `|x|` and `x` in `OUT`. -/
def Obligations.EnginesRoundTrip : Prop :=
  ∀ (P : EncParams) (x y : List Byte) (e e' : Enc) (d : Dec) (n : Nat), e.launched x → Enc.steps P n e = .ok e' →
    e'.phase = .done → e'.job.err = .ok → y.length = e'.job.count.toNat →
    (∀ a, a < y.length → e'.job.out.read? a = y[a]?) → d.launched y → x.length ≤ d.job.outCap.toNat →
    ∃ m d', Dec.byteSteps m d = .ok d' ∧ d'.phase = .done ∧ d'.job.err = .ok ∧ d'.job.count.toNat = x.length
      ∧ ∀ a, a < x.length → d'.job.out.read? a = x[a]?

/-- The contract's bounds (R160, R177): an emitted stream has at most `out_cap` and at most `bound(n)` bytes, and with `out_cap`
at least `bound(n)` the job succeeds; the only error is `InsufficientBuffer`. -/
def Obligations.CompressionStaysWithinTheBound : Prop :=
  ∀ (P : EncParams) (input : List Byte) (cap : Nat),
    (∀ stream, compress P input cap = .ok stream → stream.length ≤ cap ∧ stream.length ≤ boundNat input.length)
    ∧ (boundNat input.length ≤ cap → ∃ stream, compress P input cap = .ok stream)
    ∧ (∀ k, compress P input cap = .error k → k = .insufficientBuffer)

/-- Conformance of the output (R174): an emitted stream is a valid token stream whose decoded data is the input, and every token
of it is one a conforming encoder may emit. -/
def Obligations.EmittedStreamConforms : Prop :=
  ∀ (P : EncParams) (input stream : List Byte) (cap : Nat), compress P input cap = .ok stream →
    decodedData stream = some input ∧ ∃ ts, parse stream = some ts ∧ ∀ t ∈ ts, conformingToken t

/-- An empty input (R173, R116): launched on it, `ENC` is DONE after two steps (log 18) with `OK`, count 0 and EMPTY whatever the
capacity, and the status word reads DONE and EMPTY; `DEC` likewise after one step. -/
def Obligations.EmptyInputSucceeds : Prop :=
  (∀ (P : EncParams) (e : Enc), e.launched [] → ∃ e', Enc.steps P 2 e = .ok e' ∧ e'.status = 0x12
      ∧ e'.job.countRead e'.phase.finished = 0)
  ∧ (∀ d : Dec, d.launched [] → ∃ d', Dec.byteSteps 1 d = .ok d' ∧ d'.status = 0x12
      ∧ d'.job.countRead d'.phase.finished = 0)
end

