-- ==== Sys2Proof/Laws/Codec.lean ====
section
/-! SUPPORT. Laws of the control byte: its fields come apart and go together, and its value as a number
(spec/30_encoding.md R81, R85, R90). -/

namespace Sys2Proof.Laws

open Sys2Proof.Machine

@[simp] theorem lcode_controlByte (lc : BitVec 3) (lo : BitVec 5) : lcode (controlByte lc lo) = lc := by
  revert lc lo; decide

@[simp] theorem low5_controlByte (lc : BitVec 3) (lo : BitVec 5) : low5 (controlByte lc lo) = lo := by
  revert lc lo; decide

@[simp] theorem controlByte_fields (c : Byte) : controlByte (lcode c) (low5 c) = c := by
  revert c; decide

theorem controlByte_toNat (lc : BitVec 3) (lo : BitVec 5) : (controlByte lc lo).toNat = lc.toNat * 32 + lo.toNat := by
  revert lc lo; decide

theorem lcode_toNat (c : Byte) : (lcode c).toNat = c.toNat / 32 := by
  revert c; decide

theorem low5_toNat (c : Byte) : (low5 c).toNat = c.toNat % 32 := by
  revert c; decide

theorem tokenLength_controlByte (lc : BitVec 3) (lo : BitVec 5) :
    tokenLength (controlByte lc lo) = if lc.toNat = 0 then 2 + lo.toNat else if lc.toNat = 7 then 3 else 2 := by
  revert lc lo; decide

theorem lit_wellFormed (data : List Byte) :
    (Instr.lit data).wellFormed = true ↔ 1 ≤ data.length ∧ data.length ≤ 32 := by
  rw [Instr.wellFormed, Bool.and_eq_true, decide_eq_true_iff, decide_eq_true_iff, Config.maxLit]

theorem tokenLength_pos (c : Byte) : 2 ≤ tokenLength c := by
  unfold tokenLength; split
  · omega
  · split <;> omega

theorem tokenLength_le (c : Byte) : tokenLength c ≤ 33 := by
  have := (low5 c).isLt
  unfold tokenLength; split
  · omega
  · split <;> omega

end Sys2Proof.Laws
end

