-- ==== Sys2Proof/Laws/Memory.lean ====
section
/-! SUPPORT. Laws of tables and memories: read after write, what forgetting leaves, and that every operation keeps the
canonical form. -/

namespace Sys2Proof.Laws

open Sys2Proof.Machine

variable {α : Type}

@[simp] theorem get?_nil (a : Nat) : Table.get? ([] : Table α) a = none := rfl

theorem get?_cons (k : Nat) (v : α) (t : Table α) (a : Nat) :
    Table.get? ((k, v) :: t) a = if k = a then some v else Table.get? t a := rfl

@[simp] theorem get?_set_self (t : Table α) (a : Nat) (v : α) : Table.get? (Table.set t a v) a = some v := by
  induction t with
  | nil => simp [Table.set, Table.get?]
  | cons c t ih =>
    obtain ⟨k, w⟩ := c
    simp only [Table.set]
    split
    · simp [Table.get?]
    · split
      · simp [Table.get?]
      · have : k ≠ a := by omega
        simp [Table.get?, this, ih]

theorem get?_set_ne (t : Table α) {a b : Nat} (v : α) (h : b ≠ a) :
    Table.get? (Table.set t a v) b = Table.get? t b := by
  induction t with
  | nil => simp [Table.set, Table.get?, h.symm]
  | cons c t ih =>
    obtain ⟨k, w⟩ := c
    simp only [Table.set]
    split
    · simp [Table.get?, h.symm]
    · split
      · next hk => subst hk; simp [Table.get?, h.symm]
      · simp [Table.get?, ih]

theorem get?_set (t : Table α) (a b : Nat) (v : α) :
    Table.get? (Table.set t a v) b = if b = a then some v else Table.get? t b := by
  split
  · next h => subst h; simp
  · next h => exact get?_set_ne t v h

theorem get?_forget (t : Table α) (lo hi a : Nat) :
    Table.get? (Table.forget t lo hi) a = if lo ≤ a ∧ a < hi then none else Table.get? t a := by
  induction t with
  | nil => simp [Table.forget]
  | cons c t ih =>
    obtain ⟨k, w⟩ := c
    simp only [Table.forget] at ih
    simp only [Table.forget, List.filter_cons]
    by_cases hk : lo ≤ k ∧ k < hi
    · have : (!(decide (lo ≤ k) && decide (k < hi))) = false := by simp [hk]
      rw [this]
      simp only [Bool.false_eq_true, if_false, ih, get?_cons]
      by_cases ha : k = a
      · subst ha; simp [hk]
      · simp [ha]
    · have : (!(decide (lo ≤ k) && decide (k < hi))) = true := by
        simp only [Bool.not_eq_true', Bool.and_eq_false_imp, decide_eq_true_eq, decide_eq_false_iff_not]
        omega
      rw [this]
      simp only [if_true, get?_cons, ih]
      by_cases ha : k = a
      · subst ha; simp [hk]
      · simp [ha]

/-- The keys of a table after a write: the new one, or one it had. -/
theorem mem_set {t : Table α} {a : Nat} {v : α} {c : Nat × α} (h : c ∈ Table.set t a v) : c = (a, v) ∨ c ∈ t := by
  induction t with
  | nil => simpa [Table.set] using h
  | cons c' t ih =>
    obtain ⟨k, w⟩ := c'
    simp only [Table.set] at h
    split at h
    · simpa using h
    · split at h
      · simp only [List.mem_cons] at h ⊢; tauto
      · simp only [List.mem_cons] at h ⊢
        rcases h with h | h
        · exact .inr (.inl h)
        · rcases ih h with h | h
          · exact .inl h
          · exact .inr (.inr h)

theorem set_wf {bound : Nat} {t : Table α} {a : Nat} (v : α) (h : Table.wf bound t) (ha : a < bound) :
    Table.wf bound (Table.set t a v) := by
  refine ⟨?_, fun c hc => ?_⟩
  · obtain ⟨hp, -⟩ := h
    induction t with
    | nil => simp [Table.set]
    | cons c t ih =>
      obtain ⟨k, w⟩ := c
      rw [List.pairwise_cons] at hp
      simp only [Table.set]
      split
      · next hak =>
        simp only [List.pairwise_cons, List.mem_cons]
        refine ⟨fun c hc => ?_, hp.1, hp.2⟩
        rcases hc with rfl | hc
        · exact hak
        · exact lt_trans hak (hp.1 c hc)
      · split
        · next hak => subst hak; exact List.pairwise_cons.2 hp
        · refine List.pairwise_cons.2 ⟨fun c hc => ?_, ih hp.2⟩
          rcases mem_set hc with rfl | hc
          · simp only; omega
          · exact hp.1 c hc
  · rcases mem_set hc with rfl | hc
    · exact ha
    · exact h.2 c hc

theorem forget_wf {bound : Nat} {t : Table α} (lo hi : Nat) (h : Table.wf bound t) :
    Table.wf bound (Table.forget t lo hi) :=
  ⟨h.1.filter _, fun c hc => h.2 c (List.mem_filter.1 hc).1⟩

theorem nil_wf (bound : Nat) : Table.wf bound ([] : Table α) := ⟨List.Pairwise.nil, by simp⟩

/-- An entry that is read is listed. -/
theorem mem_of_get? {t : Table α} {a : Nat} {v : α} (h : Table.get? t a = some v) : (a, v) ∈ t := by
  induction t with
  | nil => simp at h
  | cons c t ih =>
    obtain ⟨k, w⟩ := c
    rw [get?_cons] at h
    split at h
    · next hk => subst hk; simp_all
    · exact List.mem_cons_of_mem _ (ih h)

/-! ### Memories -/

@[simp] theorem read?_write_self (m : Memory) (a : Nat) (b : Byte) : (m.write a b).read? a = some b :=
  get?_set_self m a b

theorem read?_write_ne (m : Memory) {a x : Nat} (b : Byte) (h : x ≠ a) : (m.write a b).read? x = m.read? x :=
  get?_set_ne m b h

theorem read?_write (m : Memory) (a x : Nat) (b : Byte) :
    (m.write a b).read? x = if x = a then some b else m.read? x := get?_set m a x b

theorem read?_forget (m : Memory) (lo hi x : Nat) :
    Memory.read? (Table.forget m lo hi) x = if lo ≤ x ∧ x < hi then none else m.read? x := get?_forget m lo hi x

/-- What a host reads of `OUT` follows from what is known of it and from the spans that were left unspecified. -/
theorem outByte_congr (u : Engine) {j k : Job} {a : Nat} (h : j.out.read? a = k.out.read? a)
    (hf : lastForgotten j.forgotten a = lastForgotten k.forgotten a) : j.outByte u a = k.outByte u a := by
  simp only [Job.outByte, h, hf]

/-- Leaving a span unspecified (R64, R65): a new free value inside it, every other byte as it was. -/
theorem outByte_forgetOut (u : Engine) (j : Job) (lo hi a : Nat) :
    (j.forgetOut lo hi).outByte u a =
      if lo ≤ a ∧ a < hi then Config.unspecifiedOutByte u (j.forgotten.length + 1) a else j.outByte u a := by
  simp only [Job.outByte, Job.forgetOut, read?_forget, lastForgotten]
  split <;> rfl

theorem write_wf {m : Memory} {a : Nat} (b : Byte) (h : m.wf) (ha : a < 2 ^ Config.width) : (m.write a b).wf :=
  set_wf b h ha

/-- What placing a string leaves: its bytes at consecutive offsets, every other byte as it was. -/
theorem read?_place (bytes : List Byte) (a : Nat) (m : Memory) (x : Nat) :
    (Memory.place bytes a m).read? x =
      if a ≤ x ∧ x < a + bytes.length then bytes[x - a]? else m.read? x := by
  induction bytes generalizing a m with
  | nil => simp only [Memory.place, List.length_nil]; rw [if_neg (by omega)]
  | cons b bs ih =>
    simp only [Memory.place, ih, read?_write, List.length_cons]
    by_cases h1 : x = a
    · subst h1
      rw [if_neg (by omega), if_pos rfl, if_pos (by omega)]; simp
    · by_cases h2 : a + 1 ≤ x ∧ x < a + 1 + bs.length
      · rw [if_pos h2, if_pos (by omega)]
        obtain ⟨y, rfl⟩ : ∃ y, x = a + 1 + y := ⟨x - (a + 1), by omega⟩
        rw [show a + 1 + y - (a + 1) = y by omega, show a + 1 + y - a = y + 1 by omega]; simp
      · rw [if_neg h2, if_neg h1, if_neg (by omega)]

theorem place_wf {bytes : List Byte} {a : Nat} {m : Memory} (h : m.wf) (ha : a + bytes.length ≤ 2 ^ Config.width) :
    (Memory.place bytes a m).wf := by
  induction bytes generalizing a m with
  | nil => exact h
  | cons b bs ih =>
    simp only [List.length_cons] at ha
    exact ih (write_wf b h (by omega)) (by omega)

end Sys2Proof.Laws
end

