-- ==== Sys2Proof/Laws/State.lean ====
section
/-! SUPPORT. One lemma per field per update of the state, true by unfolding, so that no later proof unfolds a record update. -/

namespace Sys2Proof.Laws

open Sys2Proof.Machine

/-! ### `Job.forgetOut` -/

@[simp] theorem Job_forgetOut_inLen (j : Job) (lo hi : Nat) :
    (j.forgetOut lo hi).inLen = j.inLen := rfl

@[simp] theorem Job_forgetOut_outCap (j : Job) (lo hi : Nat) :
    (j.forgetOut lo hi).outCap = j.outCap := rfl

@[simp] theorem Job_forgetOut_err (j : Job) (lo hi : Nat) :
    (j.forgetOut lo hi).err = j.err := rfl

@[simp] theorem Job_forgetOut_empty (j : Job) (lo hi : Nat) :
    (j.forgetOut lo hi).empty = j.empty := rfl

@[simp] theorem Job_forgetOut_count (j : Job) (lo hi : Nat) :
    (j.forgetOut lo hi).count = j.count := rfl

@[simp] theorem Job_forgetOut_inp (j : Job) (lo hi : Nat) :
    (j.forgetOut lo hi).inp = j.inp := rfl

@[simp] theorem Job_forgetOut_out (j : Job) (lo hi : Nat) :
    (j.forgetOut lo hi).out = Table.forget j.out lo hi := rfl

@[simp] theorem Job_forgetOut_forgotten (j : Job) (lo hi : Nat) :
    (j.forgetOut lo hi).forgotten = (lo, hi) :: j.forgotten := rfl

/-! ### `Job.fail` -/

@[simp] theorem Job_fail_inLen (k : ErrKind) (j : Job) :
    (j.fail k).inLen = j.inLen := rfl

@[simp] theorem Job_fail_outCap (k : ErrKind) (j : Job) :
    (j.fail k).outCap = j.outCap := rfl

@[simp] theorem Job_fail_err (k : ErrKind) (j : Job) :
    (j.fail k).err = k := rfl

@[simp] theorem Job_fail_empty (k : ErrKind) (j : Job) :
    (j.fail k).empty = false := rfl

@[simp] theorem Job_fail_count (k : ErrKind) (j : Job) :
    (j.fail k).count = 0 := rfl

@[simp] theorem Job_fail_inp (k : ErrKind) (j : Job) :
    (j.fail k).inp = j.inp := rfl

@[simp] theorem Job_fail_out (k : ErrKind) (j : Job) :
    (j.fail k).out = Table.forget j.out 0 j.outCap.toNat := rfl

@[simp] theorem Job_fail_forgotten (k : ErrKind) (j : Job) :
    (j.fail k).forgotten = (0, j.outCap.toNat) :: j.forgotten := rfl

/-! ### `Job.succeed` -/

@[simp] theorem Job_succeed_inLen (c : Word) (j : Job) :
    (j.succeed c).inLen = j.inLen := rfl

@[simp] theorem Job_succeed_outCap (c : Word) (j : Job) :
    (j.succeed c).outCap = j.outCap := rfl

@[simp] theorem Job_succeed_err (c : Word) (j : Job) :
    (j.succeed c).err = ErrKind.ok := rfl

@[simp] theorem Job_succeed_empty (c : Word) (j : Job) :
    (j.succeed c).empty = decide (j.inLen = 0) := rfl

@[simp] theorem Job_succeed_count (c : Word) (j : Job) :
    (j.succeed c).count = c := rfl

@[simp] theorem Job_succeed_inp (c : Word) (j : Job) :
    (j.succeed c).inp = j.inp := rfl

@[simp] theorem Job_succeed_out (c : Word) (j : Job) :
    (j.succeed c).out = Table.forget j.out c.toNat j.outCap.toNat := rfl

@[simp] theorem Job_succeed_forgotten (c : Word) (j : Job) :
    (j.succeed c).forgotten = (c.toNat, j.outCap.toNat) :: j.forgotten := rfl

/-! ### `Dec.raise` and `Dec.finish` -/

@[simp] theorem Dec_raise_job (k : ErrKind) (d : Dec) :
    (d.raise k).job = d.job.fail k := rfl

@[simp] theorem Dec_raise_phase (k : ErrKind) (d : Dec) :
    (d.raise k).phase = DecPhase.done := rfl

@[simp] theorem Dec_raise_ip (k : ErrKind) (d : Dec) :
    (d.raise k).ip = d.ip := rfl

@[simp] theorem Dec_raise_op (k : ErrKind) (d : Dec) :
    (d.raise k).op = d.op := rfl

@[simp] theorem Dec_raise_ctrl (k : ErrKind) (d : Dec) :
    (d.raise k).ctrl = d.ctrl := rfl

@[simp] theorem Dec_raise_len (k : ErrKind) (d : Dec) :
    (d.raise k).len = d.len := rfl

@[simp] theorem Dec_raise_dist (k : ErrKind) (d : Dec) :
    (d.raise k).dist = d.dist := rfl

@[simp] theorem Dec_finish_job (d : Dec) :
    (d.finish).job = d.job.succeed d.op := rfl

@[simp] theorem Dec_finish_phase (d : Dec) :
    (d.finish).phase = DecPhase.done := rfl

@[simp] theorem Dec_finish_ip (d : Dec) :
    (d.finish).ip = d.ip := rfl

@[simp] theorem Dec_finish_op (d : Dec) :
    (d.finish).op = d.op := rfl

@[simp] theorem Dec_finish_ctrl (d : Dec) :
    (d.finish).ctrl = d.ctrl := rfl

@[simp] theorem Dec_finish_len (d : Dec) :
    (d.finish).len = d.len := rfl

@[simp] theorem Dec_finish_dist (d : Dec) :
    (d.finish).dist = d.dist := rfl

/-! ### `Enc.raise` and `Enc.finish` -/

@[simp] theorem Enc_raise_job (k : ErrKind) (e : Enc) :
    (e.raise k).job = e.job.fail k := rfl

@[simp] theorem Enc_raise_phase (k : ErrKind) (e : Enc) :
    (e.raise k).phase = EncPhase.done := rfl

@[simp] theorem Enc_raise_i (k : ErrKind) (e : Enc) :
    (e.raise k).i = e.i := rfl

@[simp] theorem Enc_raise_ls (k : ErrKind) (e : Enc) :
    (e.raise k).ls = e.ls := rfl

@[simp] theorem Enc_raise_eop (k : ErrKind) (e : Enc) :
    (e.raise k).eop = e.eop := rfl

@[simp] theorem Enc_raise_ref (k : ErrKind) (e : Enc) :
    (e.raise k).ref = e.ref := rfl

@[simp] theorem Enc_raise_refValid (k : ErrKind) (e : Enc) :
    (e.raise k).refValid = e.refValid := rfl

@[simp] theorem Enc_raise_mlen (k : ErrKind) (e : Enc) :
    (e.raise k).mlen = e.mlen := rfl

@[simp] theorem Enc_raise_htab (k : ErrKind) (e : Enc) :
    (e.raise k).htab = e.htab := rfl

@[simp] theorem Enc_finish_job (e : Enc) :
    (e.finish).job = e.job.succeed e.eop := rfl

@[simp] theorem Enc_finish_phase (e : Enc) :
    (e.finish).phase = EncPhase.done := rfl

@[simp] theorem Enc_finish_i (e : Enc) :
    (e.finish).i = e.i := rfl

@[simp] theorem Enc_finish_ls (e : Enc) :
    (e.finish).ls = e.ls := rfl

@[simp] theorem Enc_finish_eop (e : Enc) :
    (e.finish).eop = e.eop := rfl

@[simp] theorem Enc_finish_ref (e : Enc) :
    (e.finish).ref = e.ref := rfl

@[simp] theorem Enc_finish_refValid (e : Enc) :
    (e.finish).refValid = e.refValid := rfl

@[simp] theorem Enc_finish_mlen (e : Enc) :
    (e.finish).mlen = e.mlen := rfl

@[simp] theorem Enc_finish_htab (e : Enc) :
    (e.finish).htab = e.htab := rfl

/-! ### `Enc.probeTable` and `Enc.skipByte` -/

@[simp] theorem Enc_probeTable_job (h : Nat) (e : Enc) :
    (e.probeTable h).job = e.job := rfl

@[simp] theorem Enc_probeTable_phase (h : Nat) (e : Enc) :
    (e.probeTable h).phase = e.phase := rfl

@[simp] theorem Enc_probeTable_i (h : Nat) (e : Enc) :
    (e.probeTable h).i = e.i := rfl

@[simp] theorem Enc_probeTable_ls (h : Nat) (e : Enc) :
    (e.probeTable h).ls = e.ls := rfl

@[simp] theorem Enc_probeTable_eop (h : Nat) (e : Enc) :
    (e.probeTable h).eop = e.eop := rfl

@[simp] theorem Enc_probeTable_ref (h : Nat) (e : Enc) :
    (e.probeTable h).ref = (Table.get? e.htab h).getD (Config.emptyEntryOffset e.job.forgotten.length e.i.toNat) := rfl

@[simp] theorem Enc_probeTable_refValid (h : Nat) (e : Enc) :
    (e.probeTable h).refValid = (Table.get? e.htab h).isSome := rfl

@[simp] theorem Enc_probeTable_mlen (h : Nat) (e : Enc) :
    (e.probeTable h).mlen = e.mlen := rfl

@[simp] theorem Enc_probeTable_htab (h : Nat) (e : Enc) :
    (e.probeTable h).htab = Table.set e.htab h e.i := rfl

@[simp] theorem Enc_skipByte_job (e : Enc) :
    (e.skipByte).job = e.job := rfl

@[simp] theorem Enc_skipByte_phase (e : Enc) :
    (e.skipByte).phase = e.phase := rfl

@[simp] theorem Enc_skipByte_i (e : Enc) :
    (e.skipByte).i = e.i + 1 := rfl

@[simp] theorem Enc_skipByte_ls (e : Enc) :
    (e.skipByte).ls = e.ls := rfl

@[simp] theorem Enc_skipByte_eop (e : Enc) :
    (e.skipByte).eop = e.eop := rfl

@[simp] theorem Enc_skipByte_ref (e : Enc) :
    (e.skipByte).ref = e.ref := rfl

@[simp] theorem Enc_skipByte_refValid (e : Enc) :
    (e.skipByte).refValid = e.refValid := rfl

@[simp] theorem Enc_skipByte_mlen (e : Enc) :
    (e.skipByte).mlen = e.mlen := rfl

@[simp] theorem Enc_skipByte_htab (e : Enc) :
    (e.skipByte).htab = e.htab := rfl

/-! ### Reset -/

@[simp] theorem Job_reset_inLen (inp out : Memory) (n : List (Nat × Nat)) :
    (Job.reset inp out n).inLen = 0 := rfl

@[simp] theorem Job_reset_outCap (inp out : Memory) (n : List (Nat × Nat)) :
    (Job.reset inp out n).outCap = 0 := rfl

@[simp] theorem Job_reset_err (inp out : Memory) (n : List (Nat × Nat)) :
    (Job.reset inp out n).err = ErrKind.ok := rfl

@[simp] theorem Job_reset_empty (inp out : Memory) (n : List (Nat × Nat)) :
    (Job.reset inp out n).empty = false := rfl

@[simp] theorem Job_reset_count (inp out : Memory) (n : List (Nat × Nat)) :
    (Job.reset inp out n).count = 0 := rfl

@[simp] theorem Job_reset_inp (inp out : Memory) (n : List (Nat × Nat)) :
    (Job.reset inp out n).inp = inp := rfl

@[simp] theorem Job_reset_out (inp out : Memory) (n : List (Nat × Nat)) :
    (Job.reset inp out n).out = out := rfl

@[simp] theorem Job_reset_forgotten (inp out : Memory) (n : List (Nat × Nat)) :
    (Job.reset inp out n).forgotten = n := rfl

@[simp] theorem Dec_reset_job (j : Job) :
    (Dec.reset j).job = j := rfl

@[simp] theorem Dec_reset_phase (j : Job) :
    (Dec.reset j).phase = DecPhase.idle := rfl

@[simp] theorem Dec_reset_ip (j : Job) :
    (Dec.reset j).ip = 0 := rfl

@[simp] theorem Dec_reset_op (j : Job) :
    (Dec.reset j).op = 0 := rfl

@[simp] theorem Dec_reset_ctrl (j : Job) :
    (Dec.reset j).ctrl = 0 := rfl

@[simp] theorem Dec_reset_len (j : Job) :
    (Dec.reset j).len = 0 := rfl

@[simp] theorem Dec_reset_dist (j : Job) :
    (Dec.reset j).dist = 0 := rfl

@[simp] theorem Enc_reset_job (j : Job) :
    (Enc.reset j).job = j := rfl

@[simp] theorem Enc_reset_phase (j : Job) :
    (Enc.reset j).phase = EncPhase.idle := rfl

@[simp] theorem Enc_reset_i (j : Job) :
    (Enc.reset j).i = 0 := rfl

@[simp] theorem Enc_reset_ls (j : Job) :
    (Enc.reset j).ls = 0 := rfl

@[simp] theorem Enc_reset_eop (j : Job) :
    (Enc.reset j).eop = 0 := rfl

@[simp] theorem Enc_reset_ref (j : Job) :
    (Enc.reset j).ref = 0 := rfl

@[simp] theorem Enc_reset_refValid (j : Job) :
    (Enc.reset j).refValid = false := rfl

@[simp] theorem Enc_reset_mlen (j : Job) :
    (Enc.reset j).mlen = 0 := rfl

@[simp] theorem Enc_reset_htab (j : Job) :
    (Enc.reset j).htab = [] := rfl

/-! ### `State.afterReset` -/

@[simp] theorem State_afterReset_dec (s : State) :
    (s.afterReset).dec = Dec.reset (s.dec.job.afterReset s.dec.phase.busy) := rfl

@[simp] theorem State_afterReset_enc (s : State) :
    (s.afterReset).enc = Enc.reset (s.enc.job.afterReset s.enc.phase.busy) := rfl

@[simp] theorem State_afterReset_boundN (s : State) :
    (s.afterReset).boundN = 0 := rfl

@[simp] theorem State_afterReset_moves (s : State) :
    (s.afterReset).moves = s.moves := rfl

/-! ### Outcomes -/

@[simp] theorem State_ofDec_ok (s : State) (d : Dec) : s.ofDec (.ok d) = .next { s with dec := d } := rfl

@[simp] theorem State_ofDec_error (s : State) (f : Fault) : s.ofDec (.error f) = .fault f := rfl

@[simp] theorem State_ofEnc_ok (s : State) (e : Enc) : s.ofEnc (.ok e) = .next { s with enc := e } := rfl

@[simp] theorem State_ofEnc_error (s : State) (f : Fault) : s.ofEnc (.error f) = .fault f := rfl

/-- What an engine step leaves, said once: a next state only from a result, with the other units as they were. -/
theorem State_ofDec_eq_next {s t : State} {r : Except Fault Dec} (h : s.ofDec r = .next t) :
    ∃ d, r = .ok d ∧ t = { s with dec := d } := by
  cases r with
  | ok d => exact ⟨d, rfl, by simpa using h.symm⟩
  | error f => simp at h

theorem State_ofEnc_eq_next {s t : State} {r : Except Fault Enc} (h : s.ofEnc r = .next t) :
    ∃ e, r = .ok e ∧ t = { s with enc := e } := by
  cases r with
  | ok e => exact ⟨e, rfl, by simpa using h.symm⟩
  | error f => simp at h

/-- A bind of engine steps that answers a state goes through a state. -/
theorem bind_eq_ok {α β : Type} {x : Except Fault α} {f : α → Except Fault β} {r : β} (h : x.bind f = .ok r) :
    ∃ a, x = .ok a ∧ f a = .ok r := by
  cases x with
  | ok a => exact ⟨a, rfl, h⟩
  | error e => cases h

end Sys2Proof.Laws
end

