-- ==== Sys2Proof/Laws/Copy.lean ====
section
/-! SUPPORT. What the byte moves of the decompressor do, said once each: one byte, the literal loop, the copy loop with its
overlap (spec/42_backref.md R142, R146), and `ValidateAndCopy`. -/

namespace Sys2Proof.Laws

open Sys2Proof.Machine

@[simp] theorem except_ok_bind {ε α β : Type} (a : α) (f : α → Except ε β) : (Except.ok a >>= f) = f a := rfl

@[simp] theorem except_error_bind {ε α β : Type} (e : ε) (f : α → Except ε β) :
    ((Except.error e : Except ε α) >>= f) = .error e := rfl

/-- Advancing a cursor by `n` and then by one is advancing it by `n + 1`. -/
theorem word_add_succ (x : Word) (n : Nat) : x + 1 + BitVec.ofNat 32 n = x + BitVec.ofNat 32 (n + 1) := by
  rw [BitVec.add_assoc, Nat.add_comm n 1, BitVec.ofNat_add]; rfl

theorem len_sub_succ (x : BitVec 9) (n : Nat) : x - 1 - BitVec.ofNat 9 n = x - BitVec.ofNat 9 (n + 1) := by
  apply BitVec.eq_of_toNat_eq
  simp only [BitVec.toNat_sub, BitVec.toNat_ofNat, BitVec.ofNat_eq_ofNat]
  omega

/-- A cursor below a limit does not wrap when it advances (R6, R24). -/
theorem word_succ_toNat {x y : Word} (h : x.toNat < y.toNat) : (x + 1).toNat = x.toNat + 1 := by
  bv_omega

theorem word_add_toNat {x y : Word} {n : Nat} (h : x.toNat + n ≤ y.toNat) :
    (x + BitVec.ofNat 32 n).toNat = x.toNat + n := by
  have := y.isLt
  rw [BitVec.toNat_add, BitVec.toNat_ofNat, Nat.mod_eq_of_lt (a := n) (by omega), Nat.mod_eq_of_lt (by omega)]

theorem advance_ok {d : Dec} (h : d.ip.toNat < d.job.inLen.toNat) : d.advance = .ok { d with ip := d.ip + 1 } := by
  simp [Dec.advance, h]

theorem takeControl_ok {d : Dec} (c : Byte) (h : d.ip.toNat < d.job.inLen.toNat) :
    d.takeControl c = .ok { d with ip := d.ip + 1, ctrl := c } := by
  simp [Dec.takeControl, advance_ok h]

theorem takeControl_fault {d : Dec} (c : Byte) (h : ¬ d.ip.toNat < d.job.inLen.toNat) :
    d.takeControl c = .error .readPastInput := by
  simp [Dec.takeControl, Dec.advance, h]

theorem putByte_ok {d : Dec} (b : Byte) (h : d.op.toNat < d.job.outCap.toNat) :
    d.putByte b = .ok { d with
      job := { d.job with out := d.job.out.write d.op.toNat b }, op := d.op + 1, len := d.len - 1 } := by
  simp [Dec.putByte, h]

/-- The literal loop of R130: the bytes at consecutive offsets from `op`, both cursors past them. -/
theorem literalLoop_ok {data : List Byte} {d : Dec} (hin : d.ip.toNat + data.length ≤ d.job.inLen.toNat)
    (hout : d.op.toNat + data.length ≤ d.job.outCap.toNat) :
    Dec.literalLoop data d = .ok { d with
      job := { d.job with out := Memory.place data d.op.toNat d.job.out }
      ip := d.ip + BitVec.ofNat 32 data.length
      op := d.op + BitVec.ofNat 32 data.length
      len := d.len - BitVec.ofNat 9 data.length } := by
  induction data generalizing d with
  | nil => simp [Dec.literalLoop, Memory.place]
  | cons b bs ih =>
    simp only [List.length_cons] at hin hout
    have ho : d.op.toNat < d.job.outCap.toNat := by omega
    have hi : d.ip.toNat < d.job.inLen.toNat := by omega
    simp only [Dec.literalLoop, Dec.literalByte, putByte_ok b ho, except_ok_bind, Dec.advance, hi, if_true]
    have e1 := word_succ_toNat ho
    have e2 := word_succ_toNat hi
    rw [ih (by simp only; omega) (by simp only; omega)]
    simp only [Memory.place, List.length_cons, word_add_succ, len_sub_succ, e1]

/-- What the copy loop writes: the `dist`-byte pattern that ends at `op`, repeated (R146). -/
def copyPattern (d : Dec) (n : Nat) : List Byte :=
  (List.range n).map (fun j => d.job.outByte .dec (d.op.toNat - d.dist.toNat + j % d.dist.toNat))

@[simp] theorem copyPattern_length (d : Dec) (n : Nat) : (copyPattern d n).length = n := by simp [copyPattern]

theorem outByte_write_ne (u : Engine) (j : Job) {a x : Nat} (b : Byte) (h : x ≠ a) :
    Job.outByte u { j with out := j.out.write a b } x = j.outByte u x := by
  simp [Job.outByte, read?_write_ne _ _ h]

theorem outByte_write_self (u : Engine) (j : Job) (a : Nat) (b : Byte) :
    Job.outByte u { j with out := j.out.write a b } a = b := by
  simp [Job.outByte]

/-- The copy loop of R142 from any state in which the distance reaches back into the output and the copy fits. -/
theorem copyLoop_ok {n : Nat} {d : Dec} (h1 : 1 ≤ d.dist.toNat) (h2 : d.dist.toNat ≤ d.op.toNat)
    (hout : d.op.toNat + n ≤ d.job.outCap.toNat) :
    Dec.copyLoop n d = .ok { d with
      job := { d.job with out := Memory.place (copyPattern d n) d.op.toNat d.job.out }
      op := d.op + BitVec.ofNat 32 n
      len := d.len - BitVec.ofNat 9 n } := by
  induction n generalizing d with
  | zero => simp [Dec.copyLoop, copyPattern, Memory.place]
  | succ n ih =>
    have ho : d.op.toNat < d.job.outCap.toNat := by omega
    have e1 := word_succ_toNat ho
    simp only [Dec.copyLoop, Dec.copyByte, Dec.readBack, h1, h2, and_self, if_true, except_ok_bind, putByte_ok _ ho]
    rw [ih (by simpa using h1) (by simp only; omega) (by simp only; omega)]
    have hp : copyPattern d (n + 1) =
        d.job.outByte .dec (d.op.toNat - d.dist.toNat) ::
          copyPattern { d with
            job := { d.job with
              out := d.job.out.write d.op.toNat (d.job.outByte .dec (d.op.toNat - d.dist.toNat)) },
            op := d.op + 1, len := d.len - 1 } n := by
      simp only [copyPattern, List.range_succ_eq_map, List.map_cons, List.map_map, Nat.zero_mod, Nat.add_zero]
      congr 1
      apply List.map_congr_left
      intro j _
      simp only [Function.comp, e1]
      have hm : j % d.dist.toNat < d.dist.toNat := Nat.mod_lt _ h1
      by_cases hj : j % d.dist.toNat + 1 = d.dist.toNat
      · have : (j + 1) % d.dist.toNat = 0 := by
          rw [Nat.add_mod]
          rcases Nat.lt_or_ge 1 d.dist.toNat with hd | hd
          · rw [Nat.mod_eq_of_lt hd, hj, Nat.mod_self]
          · have : d.dist.toNat = 1 := by omega
            rw [this]; simp [Nat.mod_one]
        rw [Nat.succ_eq_add_one, this, Nat.add_zero]
        rw [show d.op.toNat + 1 - d.dist.toNat + j % d.dist.toNat = d.op.toNat by omega, outByte_write_self]
      · have : (j + 1) % d.dist.toNat = j % d.dist.toNat + 1 := by
          rw [Nat.add_mod, Nat.mod_eq_of_lt (a := 1) (by omega), Nat.mod_eq_of_lt (by omega)]
        rw [Nat.succ_eq_add_one, this, outByte_write_ne _ _ _ (by omega)]
        congr 1; omega
    rw [hp]
    simp only [Memory.place, word_add_succ, len_sub_succ, e1]

/-- `ValidateAndCopy` when both tests pass (R142, R146). -/
theorem validateAndCopy_ok {d : Dec} {dist : BitVec 14} {length : BitVec 9} (h1 : 1 ≤ dist.toNat)
    (h2 : dist.toNat ≤ d.op.toNat) (hout : d.op.toNat + length.toNat ≤ d.job.outCap.toNat) :
    d.validateAndCopy dist length = .ok { d with
      job := { d.job with
        out := Memory.place (copyPattern { d with dist := dist } length.toNat) d.op.toNat d.job.out }
      phase := .fetch
      op := d.op + BitVec.ofNat 32 length.toNat
      dist := dist
      len := 0 } := by
  simp only [Dec.validateAndCopy]
  rw [if_neg (by omega), if_neg (by omega), copyLoop_ok (d := { d with dist := dist, len := length }) h1 h2 hout]
  simp [copyPattern]

/-- `ValidateAndCopy` when the reference underflows (`DC4`), whatever room there is (R205). -/
theorem validateAndCopy_underflow {d : Dec} {dist : BitVec 14} {length : BitVec 9} (h : d.op.toNat < dist.toNat) :
    d.validateAndCopy dist length = .ok (d.raise .dataCorruption) := by
  simp only [Dec.validateAndCopy]; rw [if_pos h]

/-- `ValidateAndCopy` when the copy does not fit (`IB2`). -/
theorem validateAndCopy_noRoom {d : Dec} {dist : BitVec 14} {length : BitVec 9} (h : dist.toNat ≤ d.op.toNat)
    (hr : d.job.outCap.toNat - d.op.toNat < length.toNat) :
    d.validateAndCopy dist length = .ok (d.raise .insufficientBuffer) := by
  simp only [Dec.validateAndCopy]; rw [if_neg (by omega), if_pos hr]

/-! ### Operand values -/

theorem distance_toNat (dh : BitVec 5) (r : Byte) : (distance dh r).toNat = dh.toNat * 256 + r.toNat + 1 := by
  have h1 := dh.isLt
  have h2 := r.isLt
  have h : (dh ++ r).toNat = dh.toNat * 256 + r.toNat := by
    rw [BitVec.toNat_append, ← Nat.shiftLeft_add_eq_or_of_lt r.isLt, Nat.shiftLeft_eq]
  simp only [distance, BitVec.toNat_add, BitVec.toNat_setWidth, h, BitVec.ofNat_eq_ofNat, BitVec.toNat_ofNat]
  omega

theorem distance_pos (dh : BitVec 5) (r : Byte) : 1 ≤ (distance dh r).toNat := by
  rw [distance_toNat]; omega

theorem shortLength_toNat (lc : BitVec 3) : (shortLength lc).toNat = lc.toNat + 2 := by
  revert lc; decide

theorem longLength_toNat (e : Byte) : (longLength e).toNat = e.toNat + 9 := by
  have := e.isLt
  simp only [longLength, BitVec.toNat_add, BitVec.toNat_setWidth, BitVec.ofNat_eq_ofNat, BitVec.toNat_ofNat]
  omega

end Sys2Proof.Laws
end

