-- ==== Sys2Proof/Laws/Encoder.lean ====
section
/-! SUPPORT. What the shared operations of the compressor do, said once each: reading `IN`, writing a token, the two outcomes of
`Emit` (spec/45_compressor.md R168 to R172). -/

namespace Sys2Proof.Laws

open Sys2Proof.Machine

/-- A read inside `IN` (R58 (a)). -/
theorem encReadIn_ok {e : Enc} {a : Nat} (h : a < e.job.inLen.toNat) : e.readIn a = .ok (e.job.inByte .enc a) := by
  simp [Enc.readIn, Job.readIn, h]

/-- A span inside `IN` is read in ascending order (R170). -/
theorem readSpan_ok {e : Enc} {n a : Nat} (h : a + n ≤ e.job.inLen.toNat) :
    e.readSpan a n = .ok ((List.range n).map (fun k => e.job.inByte .enc (a + k))) := by
  induction n generalizing a with
  | zero => simp [Enc.readSpan]
  | succ n ih =>
    simp only [Enc.readSpan, encReadIn_ok (show a < e.job.inLen.toNat by omega), except_ok_bind,
      ih (a := a + 1) (by omega)]
    rw [List.range_succ_eq_map]
    simp only [List.map_cons, List.map_map, Nat.add_zero]
    congr 2
    apply List.map_congr_left
    intro k _
    simp only [Function.comp, Nat.succ_eq_add_one]
    congr 1; omega

/-- The bytes of a token that fits are placed at `eop`, which moves past them (R52). -/
theorem putBytes_ok {bytes : List Byte} {e : Enc} (h : e.eop.toNat + bytes.length ≤ e.job.outCap.toNat) :
    Enc.putBytes bytes e = .ok { e with
      job := { e.job with out := Memory.place bytes e.eop.toNat e.job.out }
      eop := e.eop + BitVec.ofNat 32 bytes.length } := by
  induction bytes generalizing e with
  | nil => simp [Enc.putBytes, Memory.place]
  | cons b bs ih =>
    simp only [List.length_cons] at h
    have ho : e.eop.toNat < e.job.outCap.toNat := by omega
    have e1 := word_succ_toNat ho
    simp only [Enc.putBytes, Enc.putByte, ho, if_true, except_ok_bind]
    rw [ih (by simp only [e1]; omega)]
    simp only [Memory.place, List.length_cons, word_add_succ, e1]

/-- `Emit` without room (`IB3`, R172). -/
theorem emitToken_noRoom {bytes : List Byte} {go : Enc → Enc} {e : Enc}
    (h : e.job.outCap.toNat - e.eop.toNat < bytes.length) :
    e.emitToken bytes go = .ok (e.raise .insufficientBuffer) := by
  simp only [Enc.emitToken, if_pos h]

/-- `Emit` with room: the whole token (R172). -/
theorem emitToken_ok {bytes : List Byte} {go : Enc → Enc} {e : Enc} (hc : e.eop.toNat ≤ e.job.outCap.toNat)
    (h : bytes.length ≤ e.job.outCap.toNat - e.eop.toNat) :
    e.emitToken bytes go = .ok (go { e with
      job := { e.job with out := Memory.place bytes e.eop.toNat e.job.out }
      eop := e.eop + BitVec.ofNat 32 bytes.length }) := by
  simp only [Enc.emitToken,
    if_neg (show ¬ e.job.outCap.toNat - e.eop.toNat < bytes.length by omega)]
  rw [putBytes_ok (by omega)]; rfl

/-- A probe's table access (R165): the entry is read, then the position is written, whatever was there. -/
theorem probeTable_entry (e : Enc) (h : Nat) :
    (e.probeTable h).refValid = (Table.get? e.htab h).isSome
      ∧ (∀ r, Table.get? e.htab h = some r → (e.probeTable h).ref = r)
      ∧ (∀ k, Table.get? (e.probeTable h).htab k = if k = h then some e.i else Table.get? e.htab k) := by
  refine ⟨rfl, fun r hr => ?_, fun k => get?_set _ _ _ _⟩
  simp only [Enc.probeTable, hr, Option.getD_some]

end Sys2Proof.Laws
end

