-- ==== Sys2Proof/Laws/Flags.lean ====
section
/-! SUPPORT. The status word: its value and its fields (spec/10_state.md R22), and what START leaves of it. -/

namespace Sys2Proof.Laws

open Sys2Proof.Machine

/-- The value of a status word. -/
theorem statusWord_eq (busy finished : Bool) (err : ErrKind) (empty : Bool) :
    statusWord busy finished err empty =
      BitVec.ofNat 32 (busy.toNat + 2 * finished.toNat + 4 * err.code.toNat + 16 * empty.toNat) := by
  cases busy <;> cases finished <;> cases err <;> cases empty <;> decide

/-- The fields of a status word, bit by bit. -/
theorem statusWord_fields (busy finished : Bool) (err : ErrKind) (empty : Bool) :
    (statusWord busy finished err empty).getLsbD 0 = busy
      ∧ (statusWord busy finished err empty).getLsbD 1 = finished
      ∧ (statusWord busy finished err empty).extractLsb' 2 2 = err.code
      ∧ (statusWord busy finished err empty).getLsbD 4 = empty
      ∧ ∀ k, 5 ≤ k → (statusWord busy finished err empty).getLsbD k = false := by
  refine ⟨?_, ?_, ?_, ?_, fun k hk => ?_⟩
  · cases busy <;> cases finished <;> cases err <;> cases empty <;> decide
  · cases busy <;> cases finished <;> cases err <;> cases empty <;> decide
  · cases busy <;> cases finished <;> cases err <;> cases empty <;> decide
  · cases busy <;> cases finished <;> cases err <;> cases empty <;> decide
  · rw [statusWord, BitVec.getLsbD_setWidth, BitVec.getLsbD_of_ge _ _ hk, Bool.and_false]

theorem status_running (j : Job) : j.status true false = 1 := by
  simp only [Job.status, statusWord_eq]; rfl

theorem status_idle (j : Job) : j.status false false = 0 := by
  simp only [Job.status, statusWord_eq]; rfl

theorem status_finished (j : Job) :
    j.status false true = BitVec.ofNat 32 (2 + 4 * j.err.code.toNat + 16 * j.empty.toNat) := by
  simp only [Job.status, statusWord_eq]; simp

theorem busy_not_finished (p : DecPhase) : (p.busy && p.finished) = false := by cases p <;> rfl

theorem enc_busy_not_finished (p : EncPhase) : (p.busy && p.finished) = false := by cases p <;> rfl

end Sys2Proof.Laws
end

