-- ==== Sys2Proof/Laws/PerInstr.lean ====
section
/-! SUPPORT. One lemma per instruction: its encoded control byte selects its row of the opcode table, and tells the length of the
encoded token (spec/30_encoding.md R85, R90, R97). -/

namespace Sys2Proof.Laws.ControlByte

open Sys2Proof.Machine

/-- The control byte of an encoded instruction carries the row's `lcode`, and `toklen` of it is the length of the encoding. -/
def Statement (i : Instr) : Prop :=
  i.wellFormed = true → (lcode i.control).toNat = rowOf i ∧ (encode i).length = tokenLength i.control

theorem lit (data : List Byte) : Statement (.lit data) := by
  intro h
  rw [lit_wellFormed] at h
  refine ⟨by simp [Instr.control, rowOf], ?_⟩
  simp only [encode, Instr.followUp, Instr.control, List.length_cons, tokenLength_controlByte, BitVec.toNat_ofNat]
  simp
  omega

theorem srefL3 (dh : BitVec 5) (r : Byte) : Statement (.srefL3 dh r) := fun _ => by
  simp [Instr.control, encode, Instr.followUp, rowOf, tokenLength_controlByte]

theorem srefL4 (dh : BitVec 5) (r : Byte) : Statement (.srefL4 dh r) := fun _ => by
  simp [Instr.control, encode, Instr.followUp, rowOf, tokenLength_controlByte]

theorem srefL5 (dh : BitVec 5) (r : Byte) : Statement (.srefL5 dh r) := fun _ => by
  simp [Instr.control, encode, Instr.followUp, rowOf, tokenLength_controlByte]

theorem srefL6 (dh : BitVec 5) (r : Byte) : Statement (.srefL6 dh r) := fun _ => by
  simp [Instr.control, encode, Instr.followUp, rowOf, tokenLength_controlByte]

theorem srefL7 (dh : BitVec 5) (r : Byte) : Statement (.srefL7 dh r) := fun _ => by
  simp [Instr.control, encode, Instr.followUp, rowOf, tokenLength_controlByte]

theorem srefL8 (dh : BitVec 5) (r : Byte) : Statement (.srefL8 dh r) := fun _ => by
  simp [Instr.control, encode, Instr.followUp, rowOf, tokenLength_controlByte]

theorem lref (dh : BitVec 5) (e r : Byte) : Statement (.lref dh e r) := fun _ => by
  simp [Instr.control, encode, Instr.followUp, rowOf, tokenLength_controlByte]

end Sys2Proof.Laws.ControlByte
end

