-- ==== Sys2Proof/Laws/Step.lean ====
section
/-! SUPPORT. What one step of the block can do, said once: which move it makes, and what that move answers. -/

namespace Sys2Proof.Laws

open Sys2Proof.Machine

/-- A step with a move pending makes that move. -/
theorem step_of_moves {s : State} {m : Move} {rest : List Move} (h : s.moves = m :: rest) :
    step s = State.perform m { s with moves := rest } := by
  simp [step, State.advance, State.nextMove, h]

/-- A step makes the next move. -/
theorem step_of_nextMove {s s' : State} {m : Move} (h : s.nextMove = some (m, s')) : step s = s'.perform m := by
  simp [step, State.advance, h]

/-- A step when no agent moves. -/
theorem step_of_none {s : State} (h : s.nextMove = none) : step s = .next s := by
  simp [step, State.advance, h]

/-- The block when `DEC` is the one that moves. -/
theorem step_dec {s s' : State} (h : s.nextMove = some (.run .dec, s')) : step s = s'.decTurn :=
  step_of_nextMove h

/-- The block when `ENC` is the one that moves. -/
theorem step_enc {s s' : State} (h : s.nextMove = some (.run .enc, s')) : step s = s'.encTurn :=
  step_of_nextMove h

/-- Taking the next move off the list changes the list alone. -/
theorem nextMove_eq {s s' : State} {m : Move} (h : s.nextMove = some (m, s')) :
    s' = { s with moves := s'.moves } := by
  unfold State.nextMove at h
  split at h
  · cases h; rfl
  · split at h
    · cases h; rfl
    · split at h <;> cases h; rfl

/-- Every step: the block as it was, or a move made from the block less that move. -/
theorem step_cases (s : State) :
    step s = .next s ∨ ∃ m s', s.nextMove = some (m, s') ∧ step s = s'.perform m := by
  cases h : s.nextMove with
  | none => exact .inl (step_of_none h)
  | some p => exact .inr ⟨p.1, p.2, rfl, step_of_nextMove h⟩

/-- What the turn of `DEC` answers: the block as it was; the end of the job; a token, fetched inside the range; or a byte step of a
phase inside a token. -/
theorem decTurn_cases (s : State) :
    (s.dec.phase.busy = false ∧ s.decTurn = .next s)
    ∨ (s.dec.phase = .fetch ∧ s.dec.ip = s.dec.job.inLen ∧ s.decTurn = .next { s with dec := s.dec.finish })
    ∨ (s.dec.phase = .fetch ∧ s.dec.ip ≠ s.dec.job.inLen ∧ s.dec.ip.toNat < s.dec.job.inLen.toNat
        ∧ s.decTurn = exec (decodeToken (s.dec.job.inByte .dec s.dec.ip.toNat) s.dec.followUp) s)
    ∨ (s.dec.phase = .fetch ∧ s.dec.job.inLen.toNat < s.dec.ip.toNat ∧ s.decTurn = .fault .readPastInput)
    ∨ (s.dec.phase.busy = true ∧ s.dec.phase ≠ .fetch ∧ s.decTurn = s.ofDec s.dec.byteStep) := by
  cases hp : s.dec.phase
  case idle => exact .inl ⟨rfl, by simp [State.decTurn, hp]⟩
  case done => exact .inl ⟨rfl, by simp [State.decTurn, hp]⟩
  case fetch =>
    by_cases he : s.dec.ip = s.dec.job.inLen
    · exact .inr (.inl ⟨rfl, he, by simp [State.decTurn, hp, State.fetchTurn, Dec.atEnd, he]⟩)
    · by_cases hl : s.dec.ip.toNat < s.dec.job.inLen.toNat
      · refine .inr (.inr (.inl ⟨rfl, he, hl, ?_⟩))
        simp only [State.decTurn, hp, State.fetchTurn, Dec.atEnd, he, decide_false, Bool.false_eq_true, if_false,
          Dec.fetchToken, Job.readIn, hl, if_true]
        rfl
      · refine .inr (.inr (.inr (.inl ⟨rfl, ?_, ?_⟩)))
        · have : s.dec.ip.toNat ≠ s.dec.job.inLen.toNat := fun h => he (BitVec.eq_of_toNat_eq h)
          omega
        · simp only [State.decTurn, hp, State.fetchTurn, Dec.atEnd, he, decide_false, Bool.false_eq_true, if_false,
            Dec.fetchToken, Job.readIn, hl]
          rfl
  case lit => exact .inr (.inr (.inr (.inr ⟨rfl, by decide, by simp [State.decTurn, hp]⟩)))
  case ext => exact .inr (.inr (.inr (.inr ⟨rfl, by decide, by simp [State.decTurn, hp]⟩)))
  case low => exact .inr (.inr (.inr (.inr ⟨rfl, by decide, by simp [State.decTurn, hp]⟩)))
  case copy => exact .inr (.inr (.inr (.inr ⟨rfl, by decide, by simp [State.decTurn, hp]⟩)))

end Sys2Proof.Laws
end

