-- ==== Sys2Proof/Laws/Token.lean ====
section
/-! SUPPORT. What the three kinds of token do, said once each: every outcome of the literal token, the short token and the long
token whose control byte is in `IN` (spec/41_literal.md R130, spec/42_backref.md R140 to R142). -/

namespace Sys2Proof.Laws

open Sys2Proof.Machine

/-- `ValidateAndCopy` has three outcomes (R142): the two errors and the copy. -/
theorem validateAndCopy_cases {d : Dec} {dist : BitVec 14} {length : BitVec 9} (h : 1 ≤ dist.toNat)
    (hl : 1 ≤ length.toNat) :
    d.validateAndCopy dist length =
      if d.op.toNat < dist.toNat then .ok (d.raise .dataCorruption)
      else if d.job.outCap.toNat - d.op.toNat < length.toNat then .ok (d.raise .insufficientBuffer)
      else .ok { d with
        job := { d.job with
          out := Memory.place (copyPattern { d with dist := dist } length.toNat) d.op.toNat d.job.out }
        phase := .fetch
        op := d.op + BitVec.ofNat 32 length.toNat
        dist := dist
        len := 0 } := by
  split
  · next h1 => exact validateAndCopy_underflow h1
  · split
    · next h2 => exact validateAndCopy_noRoom (by omega) h2
    · exact validateAndCopy_ok h (by omega) (by omega)

/-- A literal token that is cut short (`DC1`), whatever room there is (R130, R205). -/
theorem literalToken_cut {c : Byte} {data : List Byte} {d : Dec} (hc : d.ip.toNat < d.job.inLen.toNat)
    (h : d.job.inLen.toNat < d.ip.toNat + 1 + data.length) :
    d.literalToken c data = .ok (Dec.raise .dataCorruption { d with ip := d.ip + 1, ctrl := c }) := by
  have e1 := word_succ_toNat hc
  simp only [Dec.literalToken, takeControl_ok c hc, except_ok_bind]
  rw [if_pos (by simp only [e1]; omega)]

/-- A literal token that is there and does not fit (`IB1`, R130). -/
theorem literalToken_noRoom {c : Byte} {data : List Byte} {d : Dec} (hc : d.ip.toNat < d.job.inLen.toNat)
    (hi : d.ip.toNat + 1 + data.length ≤ d.job.inLen.toNat) (h : d.job.outCap.toNat - d.op.toNat < data.length) :
    d.literalToken c data = .ok (Dec.raise .insufficientBuffer { d with ip := d.ip + 1, ctrl := c }) := by
  have e1 := word_succ_toNat hc
  simp only [Dec.literalToken, takeControl_ok c hc, except_ok_bind]
  rw [if_neg (by simp only [e1]; omega), if_pos h]

/-- A literal token that is there and fits (R130, R132). -/
theorem literalToken_ok {c : Byte} {data : List Byte} {d : Dec}
    (hi : d.ip.toNat + 1 + data.length ≤ d.job.inLen.toNat) (ho : d.op.toNat + data.length ≤ d.job.outCap.toNat) :
    d.literalToken c data = .ok { d with
      job := { d.job with out := Memory.place data d.op.toNat d.job.out }
      phase := .fetch
      ip := d.ip + BitVec.ofNat 32 (data.length + 1)
      op := d.op + BitVec.ofNat 32 data.length
      ctrl := c
      len := 0 } := by
  have hc : d.ip.toNat < d.job.inLen.toNat := by omega
  have e1 := word_succ_toNat hc
  simp only [Dec.literalToken, takeControl_ok c hc, except_ok_bind]
  rw [if_neg (by simp only [e1]; omega), if_neg (by omega),
    literalLoop_ok (by simp only [e1]; omega) (by simp only; omega)]
  simp only [except_ok_bind, word_add_succ, BitVec.sub_self]; rfl

/-- A short token (R140): no low byte (`DC3`), else `ValidateAndCopy` with `ip` past the token. -/
theorem shortToken_eq {lc : BitVec 3} {dh : BitVec 5} {r : Byte} {d : Dec} (h : d.ip.toNat < d.job.inLen.toNat) :
    d.shortToken lc dh r =
      if d.ip.toNat + 1 = d.job.inLen.toNat then
        .ok (Dec.raise .dataCorruption { d with ip := d.ip + 1, ctrl := controlByte lc dh, len := shortLength lc })
      else Dec.validateAndCopy (distance dh r) (shortLength lc)
        { d with ip := d.ip + 2, ctrl := controlByte lc dh, len := shortLength lc } := by
  have e1 := word_succ_toNat h
  simp only [Dec.shortToken, takeControl_ok _ h, except_ok_bind, Dec.atEnd]
  by_cases he : d.ip.toNat + 1 = d.job.inLen.toNat
  · have : d.ip + 1 = d.job.inLen := BitVec.eq_of_toNat_eq (by omega)
    simp only [this, decide_true, if_true, he]
  · have : ¬ d.ip + 1 = d.job.inLen := fun hh => he (by rw [← hh]; omega)
    simp only [this, decide_false, Bool.false_eq_true, if_false, he]
    rw [advance_ok (by simp only [e1]; omega)]
    simp only [except_ok_bind, BitVec.add_assoc]; rfl

/-- A long token (R141): no extension byte (`DC2`), no low byte (`DC3`), else `ValidateAndCopy` with `ip` past the token. -/
theorem longToken_eq {dh : BitVec 5} {e r : Byte} {d : Dec} (h : d.ip.toNat < d.job.inLen.toNat) :
    d.longToken dh e r =
      if d.ip.toNat + 1 = d.job.inLen.toNat then
        .ok (Dec.raise .dataCorruption { d with ip := d.ip + 1, ctrl := controlByte 7 dh })
      else if d.ip.toNat + 2 = d.job.inLen.toNat then
        .ok (Dec.raise .dataCorruption { d with ip := d.ip + 2, ctrl := controlByte 7 dh, len := longLength e })
      else Dec.validateAndCopy (distance dh r) (longLength e)
        { d with ip := d.ip + 3, ctrl := controlByte 7 dh, len := longLength e } := by
  have e1 := word_succ_toNat h
  simp only [Dec.longToken, takeControl_ok _ h, except_ok_bind, Dec.atEnd]
  by_cases he : d.ip.toNat + 1 = d.job.inLen.toNat
  · have : d.ip + 1 = d.job.inLen := BitVec.eq_of_toNat_eq (by omega)
    simp only [this, decide_true, if_true, he]
  · have : ¬ d.ip + 1 = d.job.inLen := fun hh => he (by rw [← hh]; omega)
    have h2 : (d.ip + 1).toNat < d.job.inLen.toNat := by omega
    have e2 := word_succ_toNat h2
    simp only [this, decide_false, Bool.false_eq_true, if_false, he]
    rw [advance_ok h2]
    simp only [except_ok_bind]
    have ea : d.ip + 1 + 1 = d.ip + 2 := by rw [BitVec.add_assoc]; rfl
    have eb : d.ip + 2 + 1 = d.ip + 3 := by rw [BitVec.add_assoc]; rfl
    rw [ea] at e2 ⊢
    by_cases he' : d.ip.toNat + 2 = d.job.inLen.toNat
    · have : d.ip + 2 = d.job.inLen := BitVec.eq_of_toNat_eq (by omega)
      simp only [this, decide_true, if_true, he']
    · have : ¬ d.ip + 2 = d.job.inLen := fun hh => he' (by rw [← hh]; omega)
      simp only [this, decide_false, Bool.false_eq_true, if_false, he']
      rw [advance_ok (by simp only [e2]; omega)]
      simp only [except_ok_bind, eb]

end Sys2Proof.Laws
end

