-- ==== Sys2Proof/Tests/Slice0.lean ====
section
/-! SUPPORT. Small tests whose expected results are the vectors of spec/95_test_vectors.md (or hand calculation from its rules), and
for every statement with hypotheses a state that meets them. -/

namespace Sys2Proof.Tests

open Sys2Proof Sys2Proof.Machine

/-! ## Helpers -/

/-- A block whose `DEC` is in FETCH at the start of a stream, with some output already written. -/
def at_ (stream out : List Byte) (cap : Nat) : State :=
  let s := State.reset.launch stream
  { s with dec := { s.dec with
    op := BitVec.ofNat 32 out.length
    job := { s.dec.job with out := Memory.place out 0 [], outCap := BitVec.ofNat 32 cap } } }

/-- The same with `ip` and the phase moved. -/
def inPhase (p : DecPhase) (ip : Nat) (s : State) : State :=
  { s with dec := { s.dec with phase := p, ip := BitVec.ofNat 32 ip } }

/-- A block whose `ENC` is launched on an input. -/
def encAt (input : List Byte) (cap : Nat) : Enc :=
  { Enc.reset { Job.reset (Memory.place input 0 []) [] [] with
      inLen := BitVec.ofNat 32 input.length, outCap := BitVec.ofNat 32 cap } with phase := .probe }

/-- The state after a step, if there is one. -/
def stateOf (o : Host.Outcome State Fault Refusal) : Option State :=
  match o with
  | .next t => some t
  | .fault _ => none
  | .refused _ => none

/-- Phase, `ip`, and what is known of `OUT`. -/
def sight (o : Host.Outcome State Fault Refusal) : Option (DecPhase × Nat × List Nat) :=
  (stateOf o).map (fun t => (t.dec.phase, t.dec.ip.toNat, t.dec.job.out.map (fun c => c.2.toNat)))

/-- `DEC_STATUS` and `DEC_COUNT`. -/
def result (o : Host.Outcome State Fault Refusal) : Option (Nat × Nat) :=
  (stateOf o).map (fun t => ((t.regRead 1).toNat, (t.regRead 4).toNat))

/-! ## Well-formedness: each check refuses an ill-formed term (R86) -/

theorem test_empty_literal_refused : (Instr.lit []).wellFormed = false := by decide

theorem test_literal_of_33_refused : (Instr.lit (List.replicate 33 0x41)).wellFormed = false := by decide

theorem test_literal_of_32_accepted : (Instr.lit (List.replicate 32 0x41)).wellFormed = true := by decide

/-! ## Decoding (vectors F1 to F15) -/

theorem test_decode_lit : decode [0b00000010, 0x61, 0x62, 0x63] = .ok (.lit [0x61, 0x62, 0x63], []) := by decide

theorem test_decode_lit_longest : (decode (0b00011111 :: List.replicate 32 0x55)).toOption.map
    (fun x => decide (x = (.lit (List.replicate 32 0x55), []))) = some true := by decide

theorem test_decode_srefL3 : decode [0b00111111, 0xFF] = .ok (.srefL3 31 255, []) := by decide

theorem test_decode_srefL4 : decode [0b01000000, 0x00] = .ok (.srefL4 0 0, []) := by decide

theorem test_decode_srefL5 : decode [0b01100000, 0x01] = .ok (.srefL5 0 1, []) := by decide

theorem test_decode_srefL6 : decode [0b10000000, 0x02] = .ok (.srefL6 0 2, []) := by decide

theorem test_decode_srefL7 : decode [0b10100001, 0x00] = .ok (.srefL7 1 0, []) := by decide

theorem test_decode_srefL8 : decode [0b11011111, 0xFF] = .ok (.srefL8 31 255, []) := by decide

theorem test_decode_lref : decode [0b11100001, 0xFF, 0x07] = .ok (.lref 1 255 7, []) := by decide

/-- Bytes cut short inside a token, one per name (R92 (a)). -/
theorem test_decode_truncated : decode [0x05, 0x41] = .error .literalTruncated ∧ decode [0xE0] = .error .extensionMissing
    ∧ decode [0xE0, 0x00] = .error .lowByteMissing ∧ decode [0x20] = .error .lowByteMissing
    ∧ decode [] = .error .endOfStream := by decide

theorem test_distances : (distance 31 255 = 8192#14 ∧ distance 1 0 = 257#14) ∧ longLength 255 = 264#9 := by decide

theorem test_encode_boundary : encode (refInstr 1 8) = [0xC0, 0x00] ∧ encode (refInstr 1 9) = [0xE0, 0x00, 0x00]
    ∧ encode (refInstr 256 3) = [0x20, 0xFF] ∧ encode (refInstr 257 3) = [0x21, 0x00] := by decide

theorem test_table_words : decodeTableWord 8 0xA1 = some (.srefL7 1 0) ∧ decodeTableWord 8 0x01 = some (.lit [0, 0]) := by
  decide

/-! ## One step per instruction (vectors V2 to V46) -/

/-- V3. -/
theorem test_lit_exact_fit : sight (step (at_ [0x02, 0x61, 0x62, 0x63] [] 3)) = some (.fetch, 4, [0x61, 0x62, 0x63]) := by
  decide

/-- V39: truncated and too large at once is `DataCorruption`. -/
theorem test_lit_both_tests_fail : result (step (at_ [0x05, 0x41] [] 0)) = some (0xA, 0) := by decide

/-- V10. -/
theorem test_srefL3_overlap : sight (step (at_ [0x20, 0x00] [0x61] 4)) = some (.fetch, 2, [0x61, 0x61, 0x61, 0x61]) := by
  decide

/-- V30. -/
theorem test_srefL3_underflow : result (step (at_ [0x20, 0x00] [] 16)) = some (0xA, 0) := by decide

/-- The second token of E5b. -/
theorem test_srefL4 : sight (step (at_ [0x40, 0x00] [0x61] 5)) = some (.fetch, 2, [0x61, 0x61, 0x61, 0x61, 0x61]) := by
  decide

/-- V12. -/
theorem test_srefL5 : sight (step (at_ [0x60, 0x01] [0x78, 0x79] 7)) =
    some (.fetch, 2, [0x78, 0x79, 0x78, 0x79, 0x78, 0x79, 0x78]) := by decide

/-- V14. -/
theorem test_srefL6 : sight (step (at_ [0x80, 0x02] [0x61, 0x62, 0x63] 9)) =
    some (.fetch, 2, [0x61, 0x62, 0x63, 0x61, 0x62, 0x63, 0x61, 0x62, 0x63]) := by decide

/-- V43: six bytes do not fit in five. -/
theorem test_srefL6_no_room : result (step (at_ [0x80, 0x02] [0x61, 0x62, 0x63] 8)) = some (0x6, 0) := by decide

/-- By hand from R146: length 7 at distance 2. -/
theorem test_srefL7 : sight (step (at_ [0xA0, 0x01] [0x78, 0x79] 9)) =
    some (.fetch, 2, [0x78, 0x79, 0x78, 0x79, 0x78, 0x79, 0x78, 0x79, 0x78]) := by decide

/-- V13. -/
theorem test_srefL8 : sight (step (at_ [0xC0, 0x01] [0x78, 0x79] 10)) =
    some (.fetch, 2, [0x78, 0x79, 0x78, 0x79, 0x78, 0x79, 0x78, 0x79, 0x78, 0x79]) := by decide

/-- V23. -/
theorem test_lref : sight (step (at_ [0xE0, 0x02, 0x05] [0x68, 0x65, 0x6C, 0x6C, 0x6F, 0x20] 17)) =
    some (.fetch, 3, [0x68, 0x65, 0x6C, 0x6C, 0x6F, 0x20, 0x68, 0x65, 0x6C, 0x6C, 0x6F, 0x20, 0x68, 0x65, 0x6C, 0x6C,
      0x6F]) := by decide

/-- V36: no low byte. -/
theorem test_lref_truncated : result (step (at_ [0xE0, 0x00] [0x61] 64)) = some (0xA, 0) := by decide

/-- P1, step 9: a byte copied from one written two steps before. -/
theorem test_copy_phase : sight (step (inPhase .copy 5
    { at_ [0x01, 0x78, 0x79, 0x60, 0x01, 0x00, 0x7A] [0x78, 0x79, 0x78, 0x79, 0x78] 8 with
      dec := { (at_ [0x01, 0x78, 0x79, 0x60, 0x01, 0x00, 0x7A] [0x78, 0x79, 0x78, 0x79, 0x78] 8).dec with
        len := 2, dist := 2 } })) = some (.copy, 5, [0x78, 0x79, 0x78, 0x79, 0x78, 0x79]) := by decide

/-! ## The end of a job, the host, `ENC` and `BOUND` (P7, V1, P6, B1 to B8, R164) -/

/-- P7: a finished job of three bytes reads 0x2, and forgets what lies beyond its count. -/
theorem test_end_of_stream : result (step (inPhase .fetch 4 (at_ [0x02, 0x61, 0x62, 0x63] [0x61, 0x62, 0x63] 3))) =
    some (0x2, 3) := by decide

/-- V1. -/
theorem test_empty_input : result (step (at_ [] [] 16)) = some (0x12, 0) := by decide

/-- P7: a write of `DEC_OUT_CAP` during the job is ignored. -/
theorem test_busy_write_ignored : (stateOf (step { at_ [0x00, 0x41] [] 3 with moves := [.writeReg 3 0] })).map
    (fun t => (t.regRead 3).toNat) = some 3 := by decide

/-- P7: `DEC_CTRL = 1` makes STATUS read BUSY. -/
theorem test_start : result (step { State.reset with moves := [.writeReg 0 1] }) = some (0x1, 0) := by decide

/-- P6, the probe at `i = 3`: the entry of 6916 is read as 0, set to 3, and viable. -/
theorem test_probe : ((Enc.step encParams { encAt [0x61, 0x62, 0x63, 0x61, 0x62, 0x63, 0x61, 0x62, 0x63, 0x78] 20 with
    i := 3, htab := [(3088, 1), (6916, 0), (13135, 2)] }).toOption.map
    (fun e => (e.phase, e.ref.toNat, e.refValid, e.mlen.toNat, e.htab.get? 6916))) =
      some (.extend, 0, true, 3, some 3) := by decide

/-- P6, the match token `80 02`. -/
theorem test_emit : ((Enc.step encParams { encAt [0x61, 0x62, 0x63, 0x61, 0x62, 0x63, 0x61, 0x62, 0x63, 0x78] 20 with
    phase := .emit, i := 3, ls := 3, ref := 0, mlen := 6, eop := 4 }).toOption.map
    (fun e => (e.phase, e.i.toNat, e.ls.toNat, e.eop.toNat, e.job.out.map (fun c => c.2.toNat)))) =
      some (.probe, 9, 9, 6, [0x80, 0x02]) := by decide

theorem test_hash : (encParams.hash 0x61 0x62 0x63).toNat = 6916 ∧ (encParams.hash 0 1 0).toNat = 39
    ∧ (encParams.hash 0 0 1).toNat = 10125 ∧ (encParams.hash 255 255 255).toNat = 3519 := by decide

theorem test_bound : boundResult 25 = 27#33 ∧ boundResult 1048576 = 1090520#33
    ∧ boundResult 4294967295 = 4466765987#33 := by decide

/-- P6 whole: the reference function on "abcabcabcx". -/
theorem test_compress : compress encParams [0x61, 0x62, 0x63, 0x61, 0x62, 0x63, 0x61, 0x62, 0x63, 0x78] 20 =
    .ok [0x02, 0x61, 0x62, 0x63, 0x80, 0x02, 0x00, 0x78] := by decide

/-- V38 and its neighbour. -/
theorem test_decodeAll_order : decodeAll [0x00, 0x41, 0x20] 0 = .error .insufficientBuffer
    ∧ decodeAll [0x00, 0x41, 0x20] 1 = .error .dataCorruption := by decide

/-- The host reads back a byte it placed, and a write keeps the canonical form. -/
theorem test_memory : (Memory.write [(1, 0x11), (3, 0x33)] 2 0x22) = [(1, 0x11), (2, 0x22), (3, 0x33)]
    ∧ Table.forget (Memory.write [(1, 0x11), (3, 0x33)] 2 0x22) 2 4 = [(1, 0x11)] := by decide

/-! ## Witnesses: the hypotheses of the statements can be met, each clause at a boundary -/

theorem witness_ReferenceEncodingIsInverse : (1 ≤ 1 ∧ 1 ≤ 8192 ∧ 3 ≤ 3 ∧ 3 ≤ 264) ∧ (8192 ≤ 8192 ∧ 264 ≤ 264)
    ∧ 1 ≤ [(0x41 : Byte)].length ∧ (List.replicate 32 (0x41 : Byte)).length ≤ 32 := by decide

theorem witness_UnspecifiedContentsAreForgotten :
    0 < (at_ [0x20] [] 1).dec.job.outCap.toNat ∧ (0#32).toNat ≤ 0 := by decide

theorem witness_DecodeOfEncodeIsTheInstruction :
    (Instr.lit (List.replicate 32 0x41)).wellFormed = true ∧ (Instr.lref 31 255 255).wellFormed = true := by decide

theorem witness_EncodeOfDecodeIsTheBytes : decode [0xFF, 0xFF, 0xFF, 0x20] = .ok (.lref 31 255 255, [0x20]) := by decide

theorem witness_EveryControlByteStartsAToken :
    tokenLength 0x1F ≤ 1 + (List.replicate 32 (0x41 : Byte)).length ∧ tokenLength 0xE0 ≤ 1 + [0x00, 0x00].length := by
  decide

theorem witness_LiteralCopiesItsBytes :
    let s := at_ [0x02, 0x61, 0x62, 0x63] [] 3
    (Instr.lit [0x61, 0x62, 0x63]).wellFormed = true
      ∧ s.dec.ip.toNat + 1 + 3 ≤ s.dec.job.inLen.toNat ∧ s.dec.op.toNat + 3 ≤ s.dec.job.outCap.toNat := by decide

theorem witness_LiteralErrorsInOrder :
    let s := at_ [0x02, 0x61, 0x62] [] 3
    let s' := at_ [0x02, 0x61, 0x62, 0x63] [] 2
    (s.dec.ip.toNat < s.dec.job.inLen.toNat ∧ s.dec.job.inLen.toNat < s.dec.ip.toNat + 1 + 3)
      ∧ (s'.dec.ip.toNat < s'.dec.job.inLen.toNat ∧ s'.dec.ip.toNat + 1 + 3 ≤ s'.dec.job.inLen.toNat
        ∧ s'.dec.job.outCap.toNat < s'.dec.op.toNat + 3) := by decide

theorem witness_ValidateAndCopyFollowsItsRule :
    let d1 := (at_ [0x20, 0x00] [] 4).dec
    let d2 := (at_ [0x20, 0x00] [0x61] 3).dec
    let d3 := (at_ [0x20, 0x00] [0x61] 4).dec
    1 ≤ (1#14).toNat ∧ d1.op.toNat < (1#14).toNat
      ∧ ((1#14).toNat ≤ d2.op.toNat ∧ d2.job.outCap.toNat - d2.op.toNat < (3#9).toNat)
      ∧ ((1#14).toNat ≤ d3.op.toNat ∧ d3.op.toNat + (3#9).toNat ≤ d3.job.outCap.toNat) := by decide

theorem witness_ShortReferencesRepeatThePattern : ∀ row ∈ srefRows 0 0,
    let s := at_ [row.1.control, 0x00] [0x61] (1 + row.2)
    s.dec.ip.toNat + 2 ≤ s.dec.job.inLen.toNat ∧ refDist 0 0 ≤ s.dec.op.toNat
      ∧ s.dec.op.toNat + row.2 ≤ s.dec.job.outCap.toNat := by decide

theorem witness_ShortReferenceErrorsInOrder : ∀ row ∈ srefRows 0 0,
    let s1 := at_ [row.1.control] [0x61] 9
    let s2 := at_ [row.1.control, 0x00] [] 9
    let s3 := at_ [row.1.control, 0x00] [0x61] row.2
    s1.dec.ip.toNat + 1 = s1.dec.job.inLen.toNat
      ∧ (s2.dec.ip.toNat + 2 ≤ s2.dec.job.inLen.toNat ∧ s2.dec.op.toNat < refDist 0 0)
      ∧ (s3.dec.ip.toNat + 2 ≤ s3.dec.job.inLen.toNat ∧ refDist 0 0 ≤ s3.dec.op.toNat
        ∧ s3.dec.job.outCap.toNat < s3.dec.op.toNat + row.2) := by decide

theorem witness_LongReferenceRepeatsThePattern :
    let s := at_ [0xE0, 0x00, 0x00] [0x7A] 10
    s.dec.ip.toNat + 3 ≤ s.dec.job.inLen.toNat ∧ refDist 0 0 ≤ s.dec.op.toNat
      ∧ s.dec.op.toNat + ((0x00#8).toNat + 9) ≤ s.dec.job.outCap.toNat := by decide

theorem witness_LongReferenceErrorsInOrder :
    let s1 := at_ [0xE0] [0x61] 64
    let s2 := at_ [0xE0, 0x00] [0x61] 64
    let s3 := at_ [0xE0, 0x00, 0x01] [0x61] 64
    let s4 := at_ [0xE0, 0xFF, 0x00] [0x7A] 264
    s1.dec.ip.toNat + 1 = s1.dec.job.inLen.toNat ∧ s2.dec.ip.toNat + 2 = s2.dec.job.inLen.toNat
      ∧ (s3.dec.ip.toNat + 3 ≤ s3.dec.job.inLen.toNat ∧ s3.dec.op.toNat < refDist 0 1)
      ∧ (s4.dec.ip.toNat + 3 ≤ s4.dec.job.inLen.toNat ∧ refDist 0 0 ≤ s4.dec.op.toNat
        ∧ s4.dec.job.outCap.toNat < s4.dec.op.toNat + ((0xFF#8).toNat + 9)) := by decide

theorem witness_TokensChangeOnlyTheirRange :
    (∃ t, exec (.srefL3 0 0) (at_ [0x20, 0x00] [0x61] 4) = .next t ∧ t.dec.phase = .fetch)
      ∧ ∃ t, exec (.srefL3 0 0) (at_ [0x20, 0x00] [0x61] 3) = .next t ∧ t.dec.phase = .done :=
  ⟨⟨_, rfl, rfl⟩, ⟨_, rfl, rfl⟩⟩

theorem witness_TokensFaultOnlyOutsideTheInput :
    State.reset.dec.job.inLen.toNat ≤ State.reset.dec.ip.toNat
      ∧ (at_ [0x20] [] 0).dec.ip.toNat < (at_ [0x20] [] 0).dec.job.inLen.toNat := by decide

theorem witness_StepRunsTheDecodedToken :
    let s := at_ [0xA1, 0x00, 0x00] [] 4
    s.nextMove = some (.run .dec, s) ∧ s.dec.phase = .fetch ∧ s.dec.ip.toNat < s.dec.job.inLen.toNat
      ∧ decode s.dec.remaining = .ok (.srefL7 1 0, [0x00]) := by decide

theorem witness_TruncatedStreamIsDataCorruption :
    let s := at_ [0xE0, 0x05] [0x41] 64
    s.nextMove = some (.run .dec, s) ∧ s.dec.phase = .fetch ∧ s.dec.ip.toNat < s.dec.job.inLen.toNat
      ∧ decode s.dec.remaining = .error .lowByteMissing := by decide

theorem witness_EndOfStreamEndsTheJob :
    let s := inPhase .fetch 4 (at_ [0x02, 0x61, 0x62, 0x63] [0x61, 0x62, 0x63] 3)
    let s' := at_ [] [] 0
    (s.nextMove = some (.run .dec, s) ∧ s.dec.phase = .fetch ∧ s.dec.ip = s.dec.job.inLen)
      ∧ (s'.nextMove = some (.run .dec, s') ∧ s'.dec.phase = .fetch ∧ s'.dec.ip = s'.dec.job.inLen) := by decide

theorem witness_LiteralStepCopiesInToOut :
    let s := at_ [0x02, 0x61, 0x62, 0x63] [] 3
    s.nextMove = some (.run .dec, s) ∧ s.dec.phase = .fetch ∧ s.dec.job.inByte .dec s.dec.ip.toNat = 0x02
      ∧ s.dec.ip.toNat + 1 + (2 + 1) ≤ s.dec.job.inLen.toNat ∧ s.dec.op.toNat + (2 + 1) ≤ s.dec.job.outCap.toNat := by
  decide

theorem witness_IdleBlockKeepsItsState :
    State.reset.moves = [] ∧ State.reset.dec.phase.busy = false ∧ State.reset.enc.phase.busy = false := by decide

theorem witness_CopyPhasesMoveOneByte_lit :
    let s := inPhase .lit 1 (at_ [0x00, 0x61] [] 1)
    s.nextMove = some (.run .dec, s) ∧ s.dec.phase = .lit ∧ s.dec.ip.toNat < s.dec.job.inLen.toNat
      ∧ s.dec.op.toNat < s.dec.job.outCap.toNat := by decide

/-- A `DEC` in COPY at distance 1, with one byte to go and room for one. -/
def copying : State :=
  let s := inPhase .copy 4 (at_ [0x00, 0x61, 0x20, 0x00] [0x61, 0x61, 0x61] 4)
  { s with dec := { s.dec with len := 1, dist := 1, ctrl := 0x20 } }

theorem witness_CopyPhasesMoveOneByte_copy :
    copying.nextMove = some (.run .dec, copying) ∧ copying.dec.phase = .copy ∧ 1 ≤ copying.dec.dist.toNat
      ∧ copying.dec.dist.toNat ≤ copying.dec.op.toNat ∧ copying.dec.op.toNat < copying.dec.job.outCap.toNat := by decide

theorem witness_ExtensionPhaseReadsTheLength :
    let s := inPhase .ext 1 (at_ [0xE0] [] 4)
    let s' := inPhase .ext 1 (at_ [0xE0, 0xFF] [] 4)
    (s.nextMove = some (.run .dec, s) ∧ s.dec.phase = .ext ∧ s.dec.ip = s.dec.job.inLen)
      ∧ (s'.nextMove = some (.run .dec, s') ∧ s'.dec.phase = .ext
        ∧ s'.dec.ip.toNat < s'.dec.job.inLen.toNat) := by decide

/-- A `DEC` in LOW with a length of 3 and the given stream, output and capacity. -/
def atLow (stream out : List Byte) (cap : Nat) : State :=
  let s := inPhase .low 1 (at_ stream out cap)
  { s with dec := { s.dec with len := 3, ctrl := 0x20 } }

theorem witness_LowPhaseChecksTheReference :
    let s1 := atLow [0x20] [0x61] 4
    let s2 := atLow [0x20, 0x01] [0x61] 4
    let s3 := atLow [0x20, 0x00] [0x61] 3
    let s4 := atLow [0x20, 0x00] [0x61] 4
    let d := fun s : State => s.dec.ctrl.toNat % 32 * 256 + (s.dec.job.inByte .dec s.dec.ip.toNat).toNat + 1
    (s1.nextMove = some (.run .dec, s1) ∧ s1.dec.phase = .low ∧ s1.dec.ip = s1.dec.job.inLen)
      ∧ (s2.dec.ip.toNat < s2.dec.job.inLen.toNat ∧ s2.dec.op.toNat < d s2)
      ∧ (s3.dec.ip.toNat < s3.dec.job.inLen.toNat ∧ d s3 ≤ s3.dec.op.toNat
        ∧ s3.dec.job.outCap.toNat - s3.dec.op.toNat < s3.dec.len.toNat)
      ∧ (s4.dec.ip.toNat < s4.dec.job.inLen.toNat ∧ d s4 ≤ s4.dec.op.toNat
        ∧ s4.dec.len.toNat ≤ s4.dec.job.outCap.toNat - s4.dec.op.toNat) := by decide

theorem witness_FetchPhaseDispatches :
    let c := fun d : Dec => (d.job.inByte .dec d.ip.toNat).toNat
    let d1 := (at_ [0x01, 0x61] [] 2).dec
    let d2 := (at_ [0x01, 0x61, 0x62] [] 1).dec
    let d3 := (at_ [0x01, 0x61, 0x62] [] 2).dec
    (d1.phase = .fetch ∧ d1.ip.toNat < d1.job.inLen.toNat ∧ c d1 < 32 ∧ d1.job.inLen.toNat - (d1.ip.toNat + 1) < c d1 + 1)
      ∧ (c d2 < 32 ∧ c d2 + 1 ≤ d2.job.inLen.toNat - (d2.ip.toNat + 1) ∧ d2.job.outCap.toNat - d2.op.toNat < c d2 + 1)
      ∧ (c d3 < 32 ∧ c d3 + 1 ≤ d3.job.inLen.toNat - (d3.ip.toNat + 1) ∧ c d3 + 1 ≤ d3.job.outCap.toNat - d3.op.toNat)
      ∧ 224 ≤ c (at_ [0xE0] [] 0).dec ∧ 32 ≤ c (at_ [0x20] [] 0).dec ∧ c (at_ [0xDF] [] 0).dec < 224 := by decide

theorem witness_TokenIsItsByteSteps :
    ∃ t, (at_ [0x20, 0x00] [0x61] 4).dec.phase = .fetch
      ∧ (at_ [0x20, 0x00] [0x61] 4).dec.ip.toNat < (at_ [0x20, 0x00] [0x61] 4).dec.job.inLen.toNat
      ∧ (at_ [0x20, 0x00] [0x61] 4).dec.op.toNat ≤ (at_ [0x20, 0x00] [0x61] 4).dec.job.outCap.toNat
      ∧ (at_ [0x20, 0x00] [0x61] 4).dec.fetchToken = .ok (.srefL3 0 0)
      ∧ exec (.srefL3 0 0) (at_ [0x20, 0x00] [0x61] 4) = .next t :=
  ⟨_, by decide, by decide, by decide, by decide, rfl⟩

theorem witness_SequencerComputesDecodeAll : (at_ [0x00, 0x61, 0x20] [] 4).dec.launched [0x00, 0x61, 0x20] := by
  unfold Dec.launched; decide

theorem witness_BlockComputesDecodeAll :
    (at_ [0x00, 0x61] [] 4).moves = [] ∧ (at_ [0x00, 0x61] [] 4).dec.launched [0x00, 0x61] := by
  unfold Dec.launched; decide

/-- The same launch with other bytes left in `OUT` and other working registers. -/
def launchedOtherwise : Dec :=
  { (at_ [0x00, 0x61] [] 4).dec with
    len := 7, dist := 3, ctrl := 9, job := { (at_ [0x00, 0x61] [] 4).dec.job with out := [(0, 0xEE), (2, 0xDD)] } }

theorem witness_ResultDependsOnStreamAndCapacity :
    (at_ [0x00, 0x61] [] 4).dec.launched [0x00, 0x61] ∧ launchedOtherwise.launched [0x00, 0x61]
      ∧ (at_ [0x00, 0x61] [] 4).dec.job.outCap = launchedOtherwise.job.outCap
      ∧ ((Dec.byteSteps 3 (at_ [0x00, 0x61] [] 4).dec).toOption.map (·.phase)) = some .done := by
  unfold Dec.launched; decide

/-- The second clause of the same statement: two streams that agree on the literal token both have just executed. -/
theorem witness_ResultDependsOnStreamAndCapacity_running :
    let d := (at_ [0x00, 0x61] [] 4).dec
    let d' := (at_ [0x00, 0x61, 0x20, 0x00] [] 9).dec
    d.launched [0x00, 0x61] ∧ d'.launched [0x00, 0x61, 0x20, 0x00]
      ∧ (Dec.byteSteps 2 d).toOption.map (fun e => (e.phase, e.ip.toNat)) = some (.fetch, 2)
      ∧ (Dec.byteSteps 2 d').toOption.map (·.phase) = some .fetch
      ∧ ([0x00, 0x61, 0x20, 0x00] : List Byte).take 2 = ([0x00, 0x61] : List Byte).take 2 := by
  unfold Dec.launched; decide

theorem witness_LengthRegistersHoldWhatIsWritten :
    State.reset.dec.phase.busy = false ∧ State.reset.enc.phase.busy = false
      ∧ ∀ n ∈ [1, 2, 3, 4, 5, 6, 7, 9, 10, 11, 12, 13, 14, 15, 16, 17, 18], ({ State.reset with moves := [.writeReg n 5] } : State).moves = .writeReg n 5 :: [] := by
  decide

theorem witness_WritesWhileBusyAreIgnored :
    (at_ [0x20] [] 0).dec.phase.busy = true ∧ 7 < 8 ∧ (encAt [0x61] 2).phase.busy = true ∧ 8 ≤ 15 ∧ 15 < 16
      ∧ ({ at_ [0x20] [] 0 with moves := [.writeReg 7 1] } : State).moves = .writeReg 7 1 :: [] := by decide

theorem witness_DecoderStartBeginsAJob :
    let s : State := { State.reset with moves := [.writeReg 0 0xFFFFFFFF] }
    s.moves = .writeReg 0 0xFFFFFFFF :: [] ∧ s.dec.phase.busy = false
      ∧ (0xFFFFFFFF#32).getLsbD 0 = true ∧ (0xFFFFFFFE#32).getLsbD 0 = false ∧ (at_ [0x20] [] 0).dec.phase.busy = true := by decide

theorem witness_EncoderStartBeginsAJob :
    let s : State := { State.reset with moves := [.writeReg 8 0xFFFFFFFF] }
    s.moves = .writeReg 8 0xFFFFFFFF :: [] ∧ s.enc.phase.busy = false
      ∧ (0xFFFFFFFF#32).getLsbD 0 = true ∧ (0xFFFFFFFE#32).getLsbD 0 = false ∧ (encAt [0x61] 2).phase.busy = true := by decide

theorem witness_ResetStopsEverything :
    let s : State := { at_ [0x00, 0x61] [0x62] 4 with moves := [.reset] }
    s.moves = .reset :: [] ∧ s.busy .dec = true ∧ 3 < (s.job .dec).outCap.toNat ∧ s.busy .enc = false := by decide

theorem witness_HandsOffDuringAJob :
    (at_ [0x20] [] 0).busy .dec = true
      ∧ ({ at_ [0x20] [] 0 with moves := [.writeIn .dec 0 1] } : State).moves = .writeIn .dec 0 1 :: [] := by decide

theorem witness_HostPlacesBytesBetweenJobs :
    State.reset.busy .dec = false ∧ State.reset.busy .enc = false
      ∧ ({ State.reset with moves := [.writeIn .dec 0 1] } : State).moves = .writeIn .dec 0 1 :: []
      ∧ ({ State.reset with moves := [.writeOut .enc 0xFFFFFFFF 1] } : State).moves = .writeOut .enc 0xFFFFFFFF 1 :: []
      ∧ ({ State.reset with moves := [.readOut .dec 0xFFFFFFFF] } : State).moves = .readOut .dec 0xFFFFFFFF :: [] := by
  decide

/-- A block with `DEC` in the middle of a copy meets the invariant. -/
theorem copying_inv : copying.Inv := by
  refine ⟨⟨⟨by decide, by decide, by decide, by decide⟩, fun _ => by decide, fun _ => by decide, fun _ => by decide,
    by refine ⟨?_, ?_, ?_, ?_, ?_, ?_⟩ <;> decide⟩, ⟨⟨by decide, by decide, by decide, by decide⟩, by decide, by decide,
    fun h => absurd h (by decide), fun h => absurd h (by decide), trivial⟩⟩

theorem witness_StepKeepsTheInvariant : copying.Inv ∧ ∃ t, step copying = .next t := ⟨copying_inv, ⟨_, rfl⟩⟩

theorem witness_NoAccessOutsideTheRanges : copying.Inv := copying_inv

theorem witness_OnlyTheHostIsRefused :
    step { at_ [0x20] [] 0 with moves := [.readOut .dec 0] } = .refused .handsOff := rfl

theorem witness_EngineTurnsStayInTheirEngine :
    let s : State := { at_ [0x20, 0x00] [0x61] 4 with enc := encAt [0x61, 0x61] 9 }
    s.nextMove = some (.run .dec, s) ∧ (stateOf (step s)).isSome = true
      ∧ ({ s with moves := [.run .enc] } : State).nextMove = some (.run .enc, s)
      ∧ (stateOf (step { s with moves := [.run .enc] })).isSome = true := by decide

theorem witness_EngineTurnsCommute :
    let s : State := { at_ [0x20, 0x00] [0x61] 4 with enc := encAt [0x61, 0x61] 9 }
    ∃ t u, s.decTurn = .next t ∧ t.encTurn = .next u := ⟨_, _, rfl, rfl⟩

theorem witness_ProbeReadsThenWritesThenDecides :
    let e := encAt [0x61, 0x62, 0x63] 9
    let e' := encAt [0x61, 0x62] 9
    (e.phase = .probe ∧ e.i.toNat + 3 ≤ e.job.inLen.toNat)
      ∧ (e'.phase = .probe ∧ e'.i.toNat < e'.job.inLen.toNat ∧ e'.job.inLen.toNat < e'.i.toNat + 3)
      ∧ ((encAt [] 9).phase = .probe ∧ (encAt [] 9).i = (encAt [] 9).job.inLen)
      ∧ ({ e' with i := 2 } : Enc).i = e'.job.inLen := by decide

theorem witness_DefaultHashIsItsFormula : 1 ≤ 24 ∧ 24 ≤ 24 := by decide

/-- An `ENC` in a given phase at position `i` of "xyzxyzw", with a match of 3 against position 0 and the given run and capacity. -/
def matching (p : EncPhase) (i ls cap : Nat) : Enc :=
  { encAt [0x78, 0x79, 0x7A, 0x78, 0x79, 0x7A, 0x77] cap with
    phase := p, i := BitVec.ofNat 32 i, ls := BitVec.ofNat 32 ls, ref := 0, refValid := true, mlen := 3 }

theorem witness_MatchGrowsWhileBytesAreEqual :
    let e := matching .extend 3 0 10
    let e' := { matching .extend 3 0 10 with mlen := 2 }
    (e.phase = .extend ∧ e.ref.toNat < e.i.toNat
      ∧ e.job.inByte .enc (e.ref.toNat + e.mlen.toNat) ≠ e.job.inByte .enc (e.i.toNat + e.mlen.toNat))
      ∧ (e'.mlen.toNat < 264 ∧ e'.i.toNat + e'.mlen.toNat < e'.job.inLen.toNat
        ∧ e'.job.inByte .enc (e'.ref.toNat + e'.mlen.toNat) = e'.job.inByte .enc (e'.i.toNat + e'.mlen.toNat)) := by
  decide

theorem witness_FlushEmitsOneGroupAtATime :
    let e1 := matching .flush 3 0 3
    let e2 := matching .flush 3 0 4
    let e3 := matching .flush 3 3 4
    let e4 := matching .flush 7 7 4
    (e1.phase = .flush ∧ e1.i.toNat ≤ e1.job.inLen.toNat ∧ e1.ls.toNat < e1.i.toNat
      ∧ e1.job.outCap.toNat - e1.eop.toNat < min 32 (e1.i.toNat - e1.ls.toNat) + 1)
      ∧ (e2.ls.toNat < e2.i.toNat ∧ min 32 (e2.i.toNat - e2.ls.toNat) + 1 ≤ e2.job.outCap.toNat - e2.eop.toNat)
      ∧ (e3.ls = e3.i ∧ e3.i ≠ e3.job.inLen) ∧ (e4.ls = e4.i ∧ e4.i = e4.job.inLen) := by decide

theorem witness_MatchTokenMovesTheCursor :
    let e := matching .emit 3 3 1
    let e' := matching .emit 3 3 2
    (e.phase = .emit ∧ 1 ≤ e.i.toNat - e.ref.toNat ∧ e.i.toNat - e.ref.toNat ≤ 8192 ∧ 3 ≤ e.mlen.toNat ∧ e.mlen.toNat ≤ 264
      ∧ e.job.outCap.toNat - e.eop.toNat < (encodeRef (e.i.toNat - e.ref.toNat) e.mlen.toNat).length)
      ∧ (encodeRef (e'.i.toNat - e'.ref.toNat) e'.mlen.toNat).length ≤ e'.job.outCap.toNat - e'.eop.toNat := by decide

theorem witness_EngineComputesCompress : (encAt [0x61, 0x62, 0x63] 9).launched [0x61, 0x62, 0x63]
    ∧ ({ at_ [0x20] [] 0 with enc := encAt [0x61] 2 } : State).enc.launched [0x61] := by
  unfold Enc.launched; decide

theorem witness_EnginesRoundTrip :
    (encAt [0x61] 2).launched [0x61]
      ∧ (∃ e', Enc.steps encParams 4 (encAt [0x61] 2) = .ok e' ∧ e'.phase = .done ∧ e'.job.err = .ok
        ∧ [0x00, 0x61].length = e'.job.count.toNat
        ∧ ∀ a, a < 2 → e'.job.out.read? a = ([0x00, 0x61] : List Byte)[a]?)
      ∧ (at_ [0x00, 0x61] [] 1).dec.launched [0x00, 0x61] ∧ [0x61].length ≤ (at_ [0x00, 0x61] [] 1).dec.job.outCap.toNat := by
  refine ⟨by unfold Enc.launched; decide, ⟨_, rfl, by decide, by decide, by decide, by decide⟩,
    by unfold Dec.launched; decide, by decide⟩

theorem witness_CompressionStaysWithinTheBound :
    compress encParams [0x61] 2 = .ok [0x00, 0x61] ∧ boundNat 1 ≤ 2
      ∧ compress encParams [0x61] 1 = .error .insufficientBuffer := by decide

theorem witness_EmittedStreamConforms :
    compress encParams [0x78, 0x79, 0x7A, 0x78, 0x79, 0x7A, 0x77] 10 =
      .ok [0x02, 0x78, 0x79, 0x7A, 0x20, 0x02, 0x00, 0x77] := by decide

theorem witness_EmptyInputSucceeds : (encAt [] 0).launched [] ∧ (at_ [] [] 0).dec.launched [] := by
  unfold Enc.launched Dec.launched; decide

end Sys2Proof.Tests
end

section
/-! What a computation of an engine answers, if it answers: rules for `Except Fault`, used to carry a property through the do blocks
of the engines' operations. -/

namespace Sys2Proof.Proofs

open Sys2Proof.Machine Sys2Proof.Laws

/-- If the computation answers, its answer has the property; a fault answers nothing. -/
def Answers {α : Type} (p : α → Prop) (r : Except Fault α) : Prop := ∀ a, r = .ok a → p a

variable {α β : Type} {p : α → Prop}

theorem answers_ok {a : α} (h : p a) : Answers p (.ok a) := by
  rintro _ ⟨⟩; exact h

theorem answers_error (f : Fault) : Answers p (.error f) := by
  rintro _ ⟨⟩

theorem answers_bind {q : β → Prop} {r : Except Fault β} {f : β → Except Fault α} (hr : Answers q r)
    (hf : ∀ b, q b → Answers p (f b)) : Answers p (r >>= f) := by
  intro a h
  obtain ⟨b, hb, ha⟩ := bind_eq_ok h
  exact hf b (hr b hb) a ha

/-- The rule for a read, whose value the property does not depend on. -/
theorem answers_bind_read {r : Except Fault β} {f : β → Except Fault α} (hf : ∀ b, Answers p (f b)) :
    Answers p (r >>= f) :=
  answers_bind (q := fun _ => True) (fun _ _ => trivial) fun b _ => hf b

theorem answers_ite {c : Prop} [Decidable c] {r r' : Except Fault α} (h : c → Answers p r) (h' : ¬ c → Answers p r') :
    Answers p (if c then r else r') := by
  split
  · next hc => exact h hc
  · next hc => exact h' hc

end Sys2Proof.Proofs
end

section
/-! The frame of a job: `IN`, the lengths, and `OUT` beyond `out_cap`, which no operation of an engine changes (spec/20_memory.md
R51, R58 (b), R64, R65). -/

namespace Sys2Proof.Proofs

open Sys2Proof.Machine Sys2Proof.Laws

/-- `k` has the `IN`, the lengths and the `OUT` beyond `out_cap` of `j`. -/
structure JobFrame (j k : Job) : Prop where
  inp : k.inp = j.inp
  inLen : k.inLen = j.inLen
  outCap : k.outCap = j.outCap
  beyond : ∀ a, j.outCap.toNat ≤ a → k.out.read? a = j.out.read? a
  forgotten : ∀ a, j.outCap.toNat ≤ a → lastForgotten k.forgotten a = lastForgotten j.forgotten a

variable {j k : Job}

theorem JobFrame.refl (j : Job) : JobFrame j j := ⟨rfl, rfl, rfl, fun _ _ => rfl, fun _ _ => rfl⟩

theorem JobFrame.outByte_eq (h : JobFrame j k) (u : Engine) {a : Nat} (ha : j.outCap.toNat ≤ a) :
    k.outByte u a = j.outByte u a :=
  outByte_congr u (h.beyond a ha) (h.forgotten a ha)

theorem JobFrame.write (h : JobFrame j k) {x : Nat} (b : Byte) (hx : x < k.outCap.toNat) :
    JobFrame j { k with out := k.out.write x b } := by
  rw [h.outCap] at hx
  refine ⟨h.inp, h.inLen, h.outCap, fun a ha => ?_, h.forgotten⟩
  rw [read?_write_ne _ _ (by omega), h.beyond a ha]

theorem JobFrame.forgetOut (h : JobFrame j k) (lo : Nat) : JobFrame j (k.forgetOut lo k.outCap.toNat) := by
  rw [h.outCap]
  refine ⟨h.inp, h.inLen, h.outCap, fun a ha => ?_, fun a ha => ?_⟩
  · rw [Job_forgetOut_out, read?_forget, if_neg (by omega), h.beyond a ha]
  · rw [Job_forgetOut_forgotten, lastForgotten, if_neg (by omega), h.forgotten a ha]

theorem JobFrame.fail (h : JobFrame j k) (e : ErrKind) : JobFrame j (k.fail e) :=
  let ⟨hi, hl, hc, hb, hf⟩ := h.forgetOut 0
  ⟨hi, hl, hc, hb, hf⟩

theorem JobFrame.succeed (h : JobFrame j k) (count : Word) : JobFrame j (k.succeed count) :=
  let ⟨hi, hl, hc, hb, hf⟩ := h.forgetOut count.toNat
  ⟨hi, hl, hc, hb, hf⟩

end Sys2Proof.Proofs
end

section
/-! Every operation of `DEC` keeps the frame of its job. -/

namespace Sys2Proof.Proofs

open Sys2Proof.Machine Sys2Proof.Laws

/-- If the computation answers, the job of the `DEC` it answers keeps the frame of `j`. -/
abbrev DecFrame (j : Job) (r : Except Fault Dec) : Prop := Answers (fun d => JobFrame j d.job) r

variable {j : Job} {d : Dec}

theorem advance_frame (h : JobFrame j d.job) : DecFrame j d.advance :=
  answers_ite (fun _ => answers_ok h) (fun _ => answers_error _)

theorem takeControl_frame (c : Byte) (h : JobFrame j d.job) : DecFrame j (d.takeControl c) :=
  answers_bind (advance_frame h) fun _ h => answers_ok h

theorem putByte_frame (b : Byte) (h : JobFrame j d.job) : DecFrame j (d.putByte b) :=
  answers_ite (fun hop => answers_ok (h.write b hop)) (fun _ => answers_error _)

theorem literalByte_frame (b : Byte) (h : JobFrame j d.job) : DecFrame j (d.literalByte b) :=
  answers_bind (putByte_frame b h) fun _ => advance_frame

theorem copyByte_frame (h : JobFrame j d.job) : DecFrame j d.copyByte :=
  answers_bind_read fun b => putByte_frame b h

theorem literalLoop_frame (data : List Byte) (h : JobFrame j d.job) : DecFrame j (Dec.literalLoop data d) := by
  induction data generalizing d with
  | nil => exact answers_ok h
  | cons b bs ih => exact answers_bind (literalByte_frame b h) fun _ => ih

theorem copyLoop_frame (n : Nat) (h : JobFrame j d.job) : DecFrame j (Dec.copyLoop n d) := by
  induction n generalizing d with
  | zero => exact answers_ok h
  | succ n ih => exact answers_bind (copyByte_frame h) fun _ => ih

theorem validateAndCopy_frame (dist : BitVec 14) (length : BitVec 9) (h : JobFrame j d.job) :
    DecFrame j (d.validateAndCopy dist length) :=
  answers_ite (fun _ => answers_ok (h.fail _)) fun _ =>
  answers_ite (fun _ => answers_ok (h.fail _)) fun _ =>
  answers_bind (copyLoop_frame (d := { d with dist := dist, len := length }) _ h) fun _ h => answers_ok h

/-! ### The tokens (R130, R140, R141) -/

theorem literalToken_frame (c : Byte) (data : List Byte) (h : JobFrame j d.job) : DecFrame j (d.literalToken c data) :=
  answers_bind (takeControl_frame c h) fun d h =>
  answers_ite (fun _ => answers_ok (h.fail _)) fun _ =>
  answers_ite (fun _ => answers_ok (h.fail _)) fun _ =>
  answers_bind (literalLoop_frame (d := { d with len := BitVec.ofNat 9 data.length }) data h) fun _ h => answers_ok h

theorem shortToken_frame (lc : BitVec 3) (dh : BitVec 5) (r : Byte) (h : JobFrame j d.job) :
    DecFrame j (d.shortToken lc dh r) :=
  answers_bind (takeControl_frame _ h) fun d h =>
  answers_ite (fun _ => answers_ok (h.fail _)) fun _ =>
  answers_bind (advance_frame (d := { d with len := shortLength lc }) h) fun _ => validateAndCopy_frame _ _

theorem longToken_frame (dh : BitVec 5) (e r : Byte) (h : JobFrame j d.job) : DecFrame j (d.longToken dh e r) :=
  answers_bind (takeControl_frame _ h) fun _ h =>
  answers_ite (fun _ => answers_ok (h.fail _)) fun _ =>
  answers_bind (advance_frame h) fun d h =>
  answers_ite (fun _ => answers_ok (h.fail _)) fun _ =>
  answers_bind (advance_frame (d := { d with len := longLength e }) h) fun _ => validateAndCopy_frame _ _

/-! ### The byte steps (R111, R112, R131, R143 to R145) -/

theorem dispatch_frame (c : Byte) (h : JobFrame j d.job) : JobFrame j (d.dispatch c).job := by
  unfold Dec.dispatch
  split
  · split
    · exact h.fail _
    · split
      · exact h.fail _
      · exact h
  · split <;> exact h

theorem fetchStep_frame (h : JobFrame j d.job) : DecFrame j d.fetchStep :=
  answers_ite (fun _ => answers_ok (h.succeed _)) fun _ =>
  answers_bind_read fun c => answers_bind (takeControl_frame c h) fun _ h => answers_ok (dispatch_frame c h)

theorem litStep_frame (h : JobFrame j d.job) : DecFrame j d.litStep :=
  answers_bind_read fun b => answers_bind (literalByte_frame b h) fun _ h => answers_ok h

theorem extStep_frame (h : JobFrame j d.job) : DecFrame j d.extStep :=
  answers_ite (fun _ => answers_ok (h.fail _)) fun _ =>
  answers_bind_read fun _ => answers_bind (advance_frame h) fun _ h => answers_ok h

theorem lowStep_frame (h : JobFrame j d.job) : DecFrame j d.lowStep :=
  answers_ite (fun _ => answers_ok (h.fail _)) fun _ =>
  answers_bind_read fun _ => answers_bind (advance_frame h) fun _ h =>
  answers_ite (fun _ => answers_ok (h.fail _)) fun _ =>
  answers_ite (fun _ => answers_ok (h.fail _)) fun _ => answers_ok h

theorem copyStep_frame (h : JobFrame j d.job) : DecFrame j d.copyStep :=
  answers_bind (copyByte_frame h) fun _ h => answers_ok h

theorem byteStep_frame (h : JobFrame j d.job) : DecFrame j d.byteStep := by
  unfold Dec.byteStep
  split
  case h_1 => exact answers_ok h
  case h_2 => exact fetchStep_frame h
  case h_3 => exact litStep_frame h
  case h_4 => exact extStep_frame h
  case h_5 => exact lowStep_frame h
  case h_6 => exact copyStep_frame h
  case h_7 => exact answers_ok h

end Sys2Proof.Proofs
end

section
/-! Every operation of `ENC` keeps the frame of its job. -/

namespace Sys2Proof.Proofs

open Sys2Proof.Machine Sys2Proof.Laws

/-- If the computation answers, the job of the `ENC` it answers keeps the frame of `j`. -/
abbrev EncFrame (j : Job) (r : Except Fault Enc) : Prop := Answers (fun e => JobFrame j e.job) r

variable {j : Job} {e : Enc}

theorem encPutByte_frame (b : Byte) (h : JobFrame j e.job) : EncFrame j (e.putByte b) :=
  answers_ite (fun heop => answers_ok (h.write b heop)) (fun _ => answers_error _)

theorem putBytes_frame (bytes : List Byte) (h : JobFrame j e.job) : EncFrame j (Enc.putBytes bytes e) := by
  induction bytes generalizing e with
  | nil => exact answers_ok h
  | cons b bs ih => exact answers_bind (encPutByte_frame b h) fun _ => ih

theorem emitToken_frame (bytes : List Byte) {go : Enc → Enc} (hgo : ∀ e, (go e).job = e.job) (h : JobFrame j e.job) :
    EncFrame j (e.emitToken bytes go) :=
  answers_ite (fun _ => answers_ok (h.fail _)) fun _ =>
  answers_bind (putBytes_frame bytes h) fun e h => answers_ok (by rw [hgo e]; exact h)

theorem probeStep_frame (P : EncParams) (h : JobFrame j e.job) : EncFrame j (e.probeStep P) :=
  answers_ite (fun _ => answers_ok h) fun _ =>
  answers_ite
    (fun _ => answers_bind_read fun _ => answers_bind_read fun _ => answers_bind_read fun _ => answers_bind_read fun ok =>
      answers_ok (by split <;> exact h))
    fun _ => answers_bind_read fun _ => answers_ok h

theorem extendStep_frame (h : JobFrame j e.job) : EncFrame j e.extendStep :=
  answers_ite (fun _ => answers_bind_read fun _ => answers_bind_read fun _ => answers_ok (by split <;> exact h))
    fun _ => answers_ok h

theorem flushStep_frame (h : JobFrame j e.job) : EncFrame j e.flushStep :=
  answers_ite
    (fun _ => answers_ok (by
      split
      · exact h.succeed _
      · exact h))
    fun _ => answers_bind_read fun _ => emitToken_frame _ (fun _ => rfl) h

theorem emitStep_frame (h : JobFrame j e.job) : EncFrame j e.emitStep := emitToken_frame _ (fun _ => rfl) h

theorem encStep_frame (P : EncParams) (h : JobFrame j e.job) : EncFrame j (e.step P) := by
  unfold Enc.step
  split
  case h_1 => exact answers_ok h
  case h_2 => exact probeStep_frame P h
  case h_3 => exact extendStep_frame h
  case h_4 => exact emitStep_frame h
  case h_5 => exact flushStep_frame h
  case h_6 => exact answers_ok h

end Sys2Proof.Proofs
end

section
/-! The turn of `DEC` as a computation on `DEC` alone: it reads nothing else of the block and leaves the rest as it was
(spec/00_scope.md R2, spec/20_memory.md R68). -/

namespace Sys2Proof.Proofs

open Sys2Proof.Machine Sys2Proof.Laws

/-- What a token does to `DEC` (R130, R140, R141). -/
def tokenOnDec (i : Instr) (d : Dec) : Except Fault Dec :=
  match i with
  | .lit data => d.literalToken (Instr.lit data).control data
  | .srefL3 dh r => d.shortToken 1 dh r
  | .srefL4 dh r => d.shortToken 2 dh r
  | .srefL5 dh r => d.shortToken 3 dh r
  | .srefL6 dh r => d.shortToken 4 dh r
  | .srefL7 dh r => d.shortToken 5 dh r
  | .srefL8 dh r => d.shortToken 6 dh r
  | .lref dh e r => d.longToken dh e r

theorem exec_eq_ofDec (i : Instr) (s : State) : exec i s = s.ofDec (tokenOnDec i s.dec) := by
  cases i <;> rfl

/-- What a turn of `DEC` does to `DEC`: a whole token in FETCH, else a byte step. -/
def turnOnDec (d : Dec) : Except Fault Dec :=
  if d.phase = .fetch then
    if d.atEnd then .ok d.finish
    else d.fetchToken >>= fun i => tokenOnDec i d
  else d.byteStep

theorem fetchTurn_eq_ofDec (s : State) :
    s.fetchTurn = s.ofDec (if s.dec.atEnd then .ok s.dec.finish else s.dec.fetchToken >>= fun i => tokenOnDec i s.dec) := by
  unfold State.fetchTurn
  split
  · rfl
  · cases s.dec.fetchToken with
    | ok i => exact exec_eq_ofDec i s
    | error f => rfl

theorem decTurn_eq_ofDec (s : State) : s.decTurn = s.ofDec (turnOnDec s.dec) := by
  unfold State.decTurn turnOnDec
  cases hp : s.dec.phase
  case fetch => exact fetchTurn_eq_ofDec s
  all_goals simp [Dec.byteStep, hp]

theorem tokenOnDec_frame {j : Job} {d : Dec} (i : Instr) (h : JobFrame j d.job) : DecFrame j (tokenOnDec i d) := by
  cases i with
  | lit data => exact literalToken_frame _ data h
  | lref dh e r => exact longToken_frame dh e r h
  | _ dh r => exact shortToken_frame _ dh r h

theorem turnOnDec_frame {j : Job} {d : Dec} (h : JobFrame j d.job) : DecFrame j (turnOnDec d) :=
  answers_ite
    (fun _ => answers_ite (fun _ => answers_ok (h.succeed _)) fun _ => answers_bind_read fun i => tokenOnDec_frame i h)
    fun _ => byteStep_frame h

end Sys2Proof.Proofs
end

section
/-! The turns of the two engines: each stays in its engine, and they commute. -/

namespace Sys2Proof.Proofs

open Sys2Proof.Machine Sys2Proof.Laws

theorem decTurn_eq_next {s t : State} (h : s.decTurn = .next t) :
    ∃ d, turnOnDec s.dec = .ok d ∧ t = { s with dec := d } :=
  State_ofDec_eq_next (decTurn_eq_ofDec s ▸ h)

theorem encTurn_eq_next {s t : State} (h : s.encTurn = .next t) :
    ∃ e, s.enc.step encParams = .ok e ∧ t = { s with enc := e } :=
  State_ofEnc_eq_next h

theorem decTurn_frame {s t : State} (h : s.decTurn = .next t) : JobFrame s.dec.job t.dec.job := by
  obtain ⟨d, hd, rfl⟩ := decTurn_eq_next h
  exact turnOnDec_frame (.refl _) d hd

theorem encTurn_frame {s t : State} (h : s.encTurn = .next t) : JobFrame s.enc.job t.enc.job := by
  obtain ⟨e, he, rfl⟩ := encTurn_eq_next h
  exact encStep_frame encParams (.refl _) e he

/-- The turn of an engine keeps the frame of that engine's job. -/
theorem turn_frame {u : Engine} {s t : State} (h : s.turn u = .next t) : JobFrame (s.job u) (t.job u) := by
  cases u with
  | dec => exact decTurn_frame h
  | enc => exact encTurn_frame h

/-- The turn of an engine leaves the rest of the block as it was. -/
theorem turn_others {u : Engine} {s t : State} (h : s.turn u = .next t) :
    t.moves = s.moves ∧ t.boundN = s.boundN ∧ (u = .dec → t.enc = s.enc) ∧ (u = .enc → t.dec = s.dec) := by
  cases u with
  | dec =>
    obtain ⟨d, -, rfl⟩ := decTurn_eq_next h
    exact ⟨rfl, rfl, fun _ => rfl, nofun⟩
  | enc =>
    obtain ⟨e, -, rfl⟩ := encTurn_eq_next h
    exact ⟨rfl, rfl, nofun, fun _ => rfl⟩

/-- Settles O49: every write of an engine is guarded by `out_cap`, and every span it forgets ends there (`turn_frame`). -/
theorem engineTurnsStayInTheirEngine : Obligations.EngineTurnsStayInTheirEngine := by
  unfold Obligations.EngineTurnsStayInTheirEngine
  refine ⟨fun s s' t u hm hs => ?_, fun s s' hm => step_enc hm⟩
  have ht : s'.turn u = .next t := (step_of_nextMove hm).symm.trans hs
  obtain ⟨hmoves, hbound, hdec, henc⟩ := turn_others ht
  have hf := turn_frame ht
  exact ⟨hmoves, hbound, hdec, henc, hf.inp, hf.inLen, hf.outCap, fun a ha => ⟨hf.beyond a ha, hf.outByte_eq u ha⟩⟩

/-- Settles O50: each turn is a computation on its own engine alone, so the other's turn finds what it would have found. -/
theorem engineTurnsCommute : Obligations.EngineTurnsCommute := by
  unfold Obligations.EngineTurnsCommute
  intro s t u hd he
  obtain ⟨d, hd', rfl⟩ := decTurn_eq_next hd
  obtain ⟨e, he', rfl⟩ := encTurn_eq_next he
  exact ⟨{ s with enc := e }, congrArg s.ofEnc he', (decTurn_eq_ofDec _).trans (congrArg (State.ofDec _) hd')⟩

end Sys2Proof.Proofs
end

section
/-! What every operation on a job interface keeps of its invariant: canonical memories, and a result that R203 and R206 allow. -/

namespace Sys2Proof.Proofs

open Sys2Proof.Machine Sys2Proof.Laws

variable {j : Job}

theorem jobInv_reset {inp out : Memory} (hi : inp.wf) (ho : out.wf) (spans : List (Nat × Nat)) :
    (Job.reset inp out spans).Inv :=
  ⟨hi, ho, nofun, fun h => absurd rfl h⟩

theorem jobInv_inLen (h : j.Inv) (v : Word) : Job.Inv { j with inLen := v } :=
  ⟨h.inpWf, h.outWf, h.errKnown, h.errResult⟩

theorem jobInv_outCap (h : j.Inv) (v : Word) : Job.Inv { j with outCap := v } :=
  ⟨h.inpWf, h.outWf, h.errKnown, h.errResult⟩

theorem jobInv_inp (h : j.Inv) {m : Memory} (hm : m.wf) : Job.Inv { j with inp := m } :=
  ⟨hm, h.outWf, h.errKnown, h.errResult⟩

theorem jobInv_out (h : j.Inv) {m : Memory} (hm : m.wf) : Job.Inv { j with out := m } :=
  ⟨h.inpWf, hm, h.errKnown, h.errResult⟩

/-- A string that ends inside `OUT` leaves the memory canonical: `out_cap` is a `W`-bit number. -/
theorem jobInv_place (h : j.Inv) {bytes : List Byte} {a : Nat} (ha : a + bytes.length ≤ j.outCap.toNat) :
    Job.Inv { j with out := Memory.place bytes a j.out } :=
  jobInv_out h (place_wf h.outWf (ha.trans j.outCap.isLt.le))

theorem jobInv_fail (h : j.Inv) {k : ErrKind} (hk : k ≠ .unknown) : (j.fail k).Inv :=
  ⟨h.inpWf, forget_wf _ _ h.outWf, hk, fun _ => ⟨rfl, rfl⟩⟩

theorem jobInv_succeed (h : j.Inv) (count : Word) : (j.succeed count).Inv :=
  ⟨h.inpWf, forget_wf _ _ h.outWf, nofun, fun hk => absurd rfl hk⟩

theorem jobInv_afterReset (h : j.Inv) (busy : Bool) : (j.afterReset busy).Inv := by
  refine jobInv_reset h.inpWf ?_ _
  cases busy
  · exact h.outWf
  · exact forget_wf _ _ h.outWf

end Sys2Proof.Proofs
end

section
/-! The invariant of `DEC` through its operations. While a job runs, the job interface and the cursors are in bounds (`Decoding`); what
a phase adds to that is `Dec.phaseInv` (spec/10_state.md R37). -/

namespace Sys2Proof.Proofs

open Sys2Proof.Machine Sys2Proof.Laws

/-- R37 (a), (b) and R52 of a job interface with the cursors `ip` and `op`: the part of `Dec.Inv` that holds in every running phase. -/
structure Decoding (j : Job) (ip op : Word) : Prop where
  job : j.Inv
  ipBound : ip.toNat ≤ j.inLen.toNat
  opBound : op.toNat ≤ j.outCap.toNat
  written : ∀ a, a < op.toNat → (j.out.read? a).isSome = true

abbrev DecRunning (d : Dec) : Prop := Decoding d.job d.ip d.op

variable {d : Dec}

/-! ### The invariant, by whether a job runs -/

theorem decInv_running (h : d.Inv) (hb : d.phase.busy = true) : DecRunning d :=
  ⟨h.job, h.ipBound hb, h.opBound hb, h.written hb⟩

theorem decInv_of_running (h : DecRunning d) (hp : d.phaseInv) : d.Inv :=
  ⟨h.job, fun _ => h.ipBound, fun _ => h.opBound, fun _ => h.written, hp⟩

/-- An engine that is not busy relies on its job interface alone. -/
theorem decInv_of_not_busy (h : d.job.Inv) (hb : d.phase.busy = false) : d.Inv := by
  have hn : ∀ {p : Prop}, d.phase.busy = true → p := fun ht => absurd ht (by simp [hb])
  refine ⟨h, hn, hn, hn, ?_⟩
  unfold Dec.phaseInv
  cases hp : d.phase
  case idle | done => trivial
  all_goals simp [hp, DecPhase.busy] at hb

theorem decInv_raise (h : d.job.Inv) {k : ErrKind} (hk : k ≠ .unknown) : (d.raise k).Inv :=
  decInv_of_not_busy (jobInv_fail h hk) rfl

theorem decInv_finish (h : d.job.Inv) : d.finish.Inv :=
  decInv_of_not_busy (jobInv_succeed h d.op) rfl

/-! ### One byte of `IN`, one byte of `OUT` -/

theorem advance_answers (d : Dec) :
    Answers (fun d' => d.ip.toNat < d.job.inLen.toNat ∧ d' = { d with ip := d.ip + 1 }) d.advance :=
  answers_ite (fun h => answers_ok ⟨h, rfl⟩) (fun _ => answers_error _)

theorem putByte_answers (b : Byte) (d : Dec) :
    Answers (fun d' => d.op.toNat < d.job.outCap.toNat ∧ d' = { d with
      job := { d.job with out := d.job.out.write d.op.toNat b }, op := d.op + 1, len := d.len - 1 }) (d.putByte b) :=
  answers_ite (fun h => answers_ok ⟨h, rfl⟩) (fun _ => answers_error _)

variable {j : Job} {ip op : Word}

theorem decoding_advance (h : Decoding j ip op) (hi : ip.toNat < j.inLen.toNat) : Decoding j (ip + 1) op :=
  ⟨h.job, by rw [word_succ_toNat hi]; exact hi, h.opBound, h.written⟩

theorem decoding_putByte (h : Decoding j ip op) (b : Byte) (ho : op.toNat < j.outCap.toNat) :
    Decoding { j with out := j.out.write op.toNat b } ip (op + 1) := by
  have e := word_succ_toNat ho
  refine ⟨jobInv_out h.job (write_wf b h.job.outWf op.isLt), h.ipBound, by rw [e]; exact ho, fun a ha => ?_⟩
  rw [read?_write]
  split
  · rfl
  · exact h.written a (by omega)

theorem advance_running (h : DecRunning d) : Answers DecRunning d.advance := fun d' hd => by
  obtain ⟨hi, rfl⟩ := advance_answers d d' hd
  exact decoding_advance h hi

theorem putByte_running (b : Byte) (h : DecRunning d) : Answers DecRunning (d.putByte b) := fun d' hd => by
  obtain ⟨ho, rfl⟩ := putByte_answers b d d' hd
  exact decoding_putByte h b ho

theorem takeControl_running (c : Byte) (h : DecRunning d) : Answers DecRunning (d.takeControl c) :=
  answers_bind (advance_running h) fun _ h => answers_ok h

theorem literalByte_running (b : Byte) (h : DecRunning d) : Answers DecRunning (d.literalByte b) :=
  answers_bind (putByte_running b h) fun _ => advance_running

theorem copyByte_running (h : DecRunning d) : Answers DecRunning d.copyByte :=
  answers_bind_read fun b => putByte_running b h

theorem literalLoop_running (data : List Byte) (h : DecRunning d) : Answers DecRunning (Dec.literalLoop data d) := by
  induction data generalizing d with
  | nil => exact answers_ok h
  | cons b bs ih => exact answers_bind (literalByte_running b h) fun _ => ih

theorem copyLoop_running (n : Nat) (h : DecRunning d) : Answers DecRunning (Dec.copyLoop n d) := by
  induction n generalizing d with
  | zero => exact answers_ok h
  | succ n ih => exact answers_bind (copyByte_running h) fun _ => ih

/-! ### Whole tokens (R130, R140 to R142): each ends in FETCH, which relies on nothing more, or in DONE -/

/-- Raising an error ends the job (R206), and an engine that is not busy relies on its job interface alone. -/
theorem answers_raise (h : DecRunning d) {k : ErrKind} (hk : k ≠ .unknown) : Answers Dec.Inv (.ok (d.raise k)) :=
  answers_ok (decInv_raise h.job hk)

theorem validateAndCopy_inv (dist : BitVec 14) (length : BitVec 9) (h : DecRunning d) :
    Answers Dec.Inv (d.validateAndCopy dist length) :=
  answers_ite (fun _ => answers_raise h nofun) fun _ =>
  answers_ite (fun _ => answers_raise h nofun) fun _ =>
  answers_bind (copyLoop_running (d := { d with dist := dist, len := length }) _ h) fun _ h =>
    answers_ok (decInv_of_running h trivial)

theorem literalToken_inv (c : Byte) (data : List Byte) (h : DecRunning d) : Answers Dec.Inv (d.literalToken c data) :=
  answers_bind (takeControl_running c h) fun d h =>
  answers_ite (fun _ => answers_raise h nofun) fun _ =>
  answers_ite (fun _ => answers_raise h nofun) fun _ =>
  answers_bind (literalLoop_running (d := { d with len := BitVec.ofNat 9 data.length }) data h) fun _ h =>
    answers_ok (decInv_of_running h trivial)

theorem shortToken_inv (lc : BitVec 3) (dh : BitVec 5) (r : Byte) (h : DecRunning d) :
    Answers Dec.Inv (d.shortToken lc dh r) :=
  answers_bind (takeControl_running _ h) fun d h =>
  answers_ite (fun _ => answers_raise (d := { d with len := shortLength lc }) h nofun) fun _ =>
  answers_bind (advance_running (d := { d with len := shortLength lc }) h) fun _ => validateAndCopy_inv _ _

theorem longToken_inv (dh : BitVec 5) (e r : Byte) (h : DecRunning d) : Answers Dec.Inv (d.longToken dh e r) :=
  answers_bind (takeControl_running _ h) fun _ h =>
  answers_ite (fun _ => answers_raise h nofun) fun _ =>
  answers_bind (advance_running h) fun d h =>
  answers_ite (fun _ => answers_raise (d := { d with len := longLength e }) h nofun) fun _ =>
  answers_bind (advance_running (d := { d with len := longLength e }) h) fun _ => validateAndCopy_inv _ _

theorem tokenOnDec_inv (i : Instr) (h : DecRunning d) : Answers Dec.Inv (tokenOnDec i d) := by
  cases i with
  | lit data => exact literalToken_inv _ data h
  | lref dh e r => exact longToken_inv dh e r h
  | _ dh r => exact shortToken_inv _ dh r h

end Sys2Proof.Proofs
end

section
/-! The invariant of `DEC` through the byte steps inside a token (spec/40_decoder_control.md R112, spec/41_literal.md R131,
spec/42_backref.md R143 to R145): each step finds what its phase promises, and leaves what the next phase promises. -/

namespace Sys2Proof.Proofs

open Sys2Proof.Machine Sys2Proof.Laws

variable {d : Dec}

/-! ### What a phase promises, by phase (R37 (c) to (f)) -/

theorem decPhaseInv_lit (hp : d.phase = .lit) : d.phaseInv ↔ 1 ≤ d.len.toNat ∧ d.len.toNat ≤ 32
    ∧ d.ip.toNat + d.len.toNat ≤ d.job.inLen.toNat ∧ d.op.toNat + d.len.toNat ≤ d.job.outCap.toNat := by
  simp [Dec.phaseInv, hp]

theorem decPhaseInv_ext (hp : d.phase = .ext) : d.phaseInv ↔ lcode d.ctrl = 7 := by
  simp [Dec.phaseInv, hp]

theorem decPhaseInv_low (hp : d.phase = .low) :
    d.phaseInv ↔ 32 ≤ d.ctrl.toNat ∧ 3 ≤ d.len.toNat ∧ d.len.toNat ≤ 264 := by
  simp [Dec.phaseInv, hp]

theorem decPhaseInv_copy (hp : d.phase = .copy) : d.phaseInv ↔ 1 ≤ d.len.toNat ∧ d.len.toNat ≤ 264 ∧ 1 ≤ d.dist.toNat
    ∧ d.dist.toNat ≤ 8192 ∧ d.dist.toNat ≤ d.op.toNat ∧ d.op.toNat + d.len.toNat ≤ d.job.outCap.toNat := by
  simp [Dec.phaseInv, hp]

/-! ### The numbers the phases rely on -/

/-- A counter that does not end with this step counts down, and does not reach 0. -/
theorem len_pred_toNat {n : BitVec 9} (h : 1 ≤ n.toNat) (h1 : n ≠ 1) : (n - 1).toNat + 1 = n.toNat ∧ 2 ≤ n.toNat := by
  have : n.toNat ≠ 1 := fun hn => h1 (BitVec.eq_of_toNat_eq hn)
  bv_omega

theorem lref_control_ge {c : Byte} (h : lcode c = 7) : 32 ≤ c.toNat := by
  have := lcode_toNat c
  rw [h] at this
  simp at this
  omega

theorem longLength_bounds (e : Byte) : 3 ≤ (longLength e).toNat ∧ (longLength e).toNat ≤ 264 := by
  have := longLength_toNat e
  omega

theorem distance_le (dh : BitVec 5) (r : Byte) : (distance dh r).toNat ≤ 8192 := by
  have := distance_toNat dh r
  omega

/-! ### The steps -/

theorem literalByte_answers (b : Byte) (d : Dec) :
    Answers (fun d' => d.op.toNat < d.job.outCap.toNat ∧ d.ip.toNat < d.job.inLen.toNat ∧ d' = { d with
      job := { d.job with out := d.job.out.write d.op.toNat b }, ip := d.ip + 1, op := d.op + 1, len := d.len - 1 })
      (d.literalByte b) :=
  answers_bind (putByte_answers b d) fun d₁ ⟨ho, hd₁⟩ d' hd' => by
    subst hd₁
    obtain ⟨hi, rfl⟩ := advance_answers _ d' hd'
    exact ⟨ho, hi, rfl⟩

theorem copyByte_answers (d : Dec) :
    Answers (fun d' => d.op.toNat < d.job.outCap.toNat ∧ ∃ b, d' = { d with
      job := { d.job with out := d.job.out.write d.op.toNat b }, op := d.op + 1, len := d.len - 1 }) d.copyByte :=
  answers_bind_read fun b d' hd' =>
    let ⟨ho, hd⟩ := putByte_answers b d d' hd'
    ⟨ho, b, hd⟩

/-- A LIT step (R131): the run and the room left shrink with the count. -/
theorem litStep_inv (h : d.Inv) (hp : d.phase = .lit) : Answers Dec.Inv d.litStep := by
  have hr := decInv_running h (by rw [hp]; rfl)
  obtain ⟨hlen, hmax, hin, hout⟩ := (decPhaseInv_lit hp).1 h.phaseInv
  refine answers_bind_read fun b => answers_bind (literalByte_answers b d) ?_
  rintro _ ⟨ho, hi, rfl⟩
  refine answers_ok (decInv_of_running (decoding_advance (decoding_putByte hr b ho) hi) ?_)
  unfold Dec.afterCopy
  split
  · trivial
  · next h1 =>
    obtain ⟨e, hlen2⟩ := len_pred_toNat hlen h1
    refine (decPhaseInv_lit rfl).2 ?_
    simp only [word_succ_toNat ho, word_succ_toNat hi]
    omega

/-- An EXT step (R144) leaves the length of a long reference. -/
theorem extStep_inv (h : d.Inv) (hp : d.phase = .ext) : Answers Dec.Inv d.extStep := by
  have hr := decInv_running h (by rw [hp]; rfl)
  have hc := (decPhaseInv_ext hp).1 h.phaseInv
  refine answers_ite (fun _ => answers_raise hr nofun) fun _ => answers_bind_read fun e =>
    answers_bind (advance_answers d) ?_
  rintro _ ⟨hi, rfl⟩
  exact answers_ok (decInv_of_running (decoding_advance hr hi)
    ((decPhaseInv_low rfl).2 ⟨lref_control_ge hc, longLength_bounds e⟩))

/-- A LOW step (R145): the two tests before COPY are what COPY relies on. -/
theorem lowStep_inv (h : d.Inv) (hp : d.phase = .low) : Answers Dec.Inv d.lowStep := by
  have hr := decInv_running h (by rw [hp]; rfl)
  obtain ⟨-, hmin, hmax⟩ := (decPhaseInv_low hp).1 h.phaseInv
  refine answers_ite (fun _ => answers_raise hr nofun) fun _ => answers_bind_read fun r =>
    answers_bind (advance_answers d) ?_
  rintro _ ⟨hi, rfl⟩
  have hr' := decoding_advance hr hi
  refine answers_ite (fun _ => answers_raise hr' nofun) fun hdist => answers_ite (fun _ => answers_raise hr' nofun)
    fun hroom => answers_ok (decInv_of_running hr' ((decPhaseInv_copy rfl).2 ?_))
  have hop := hr.opBound
  simp only at hdist hroom ⊢
  exact ⟨by omega, hmax, distance_pos _ r, distance_le _ r, by omega, by omega⟩

/-- A COPY step (R143): the distance still reaches back, and the room left shrinks with the count. -/
theorem copyStep_inv (h : d.Inv) (hp : d.phase = .copy) : Answers Dec.Inv d.copyStep := by
  have hr := decInv_running h (by rw [hp]; rfl)
  obtain ⟨hlen, hmax, hdist, hfar, hback, hout⟩ := (decPhaseInv_copy hp).1 h.phaseInv
  refine answers_bind (copyByte_answers d) ?_
  rintro _ ⟨ho, b, rfl⟩
  refine answers_ok (decInv_of_running (decoding_putByte hr b ho) ?_)
  unfold Dec.afterCopy
  split
  · trivial
  · next h1 =>
    obtain ⟨e, hlen2⟩ := len_pred_toNat hlen h1
    refine (decPhaseInv_copy rfl).2 ?_
    simp only [word_succ_toNat ho]
    omega

/-- The turn of `DEC` keeps its invariant: a whole token in FETCH, else a byte step. -/
theorem turnOnDec_inv (h : d.Inv) : Answers Dec.Inv (turnOnDec d) := by
  refine answers_ite (fun hp => ?_) fun hp => ?_
  · have hr := decInv_running h (by rw [hp]; rfl)
    exact answers_ite (fun _ => answers_ok (decInv_finish h.job)) fun _ => answers_bind_read fun i => tokenOnDec_inv i hr
  · unfold Dec.byteStep
    split
    case h_1 => exact answers_ok h
    case h_2 hf => exact absurd hf hp
    case h_3 hp => exact litStep_inv h hp
    case h_4 hp => exact extStep_inv h hp
    case h_5 hp => exact lowStep_inv h hp
    case h_6 hp => exact copyStep_inv h hp
    case h_7 => exact answers_ok h

end Sys2Proof.Proofs
end

section
/-! The invariant of `ENC` through its steps. While a job runs, the job interface, the cursors and the table are in bounds
(`Compressing`); what a phase adds to that is `Enc.phaseInv` (spec/10_state.md R31, R32, spec/45_compressor.md R165 to R171). -/

namespace Sys2Proof.Proofs

open Sys2Proof.Machine Sys2Proof.Laws

/-- The part of `Enc.Inv` that holds in every running phase, of a job interface with the cursors and the table. -/
structure Compressing (j : Job) (i ls eop : Word) (t : HTab) : Prop where
  job : j.Inv
  errKind : j.err ≠ .dataCorruption
  htabWf : Table.wf (2 ^ Config.hlog) t
  runStart : ls.toNat ≤ i.toNat
  cursor : i.toNat ≤ j.inLen.toNat
  eopBound : eop.toNat ≤ j.outCap.toNat

abbrev EncRunning (e : Enc) : Prop := Compressing e.job e.i e.ls e.eop e.htab

variable {e : Enc}

/-! ### The invariant, by whether a job runs -/

theorem encInv_running (h : e.Inv) (hb : e.phase.busy = true) : EncRunning e :=
  let ⟨hls, hi⟩ := h.cursor hb
  ⟨h.job, h.errKind, h.htabWf, hls, hi, h.eopBound hb⟩

theorem encInv_of_running (h : EncRunning e) (hp : e.phaseInv) : e.Inv :=
  ⟨h.job, h.errKind, h.htabWf, fun _ => ⟨h.runStart, h.cursor⟩, fun _ => h.eopBound, hp⟩

/-- An engine that is not busy relies on its job interface and its table alone. -/
theorem encInv_of_not_busy (hj : e.job.Inv) (hk : e.job.err ≠ .dataCorruption)
    (ht : Table.wf (2 ^ Config.hlog) e.htab) (hb : e.phase.busy = false) : e.Inv := by
  have hn : ∀ {p : Prop}, e.phase.busy = true → p := fun h => absurd h (by simp [hb])
  refine ⟨hj, hk, ht, hn, hn, ?_⟩
  unfold Enc.phaseInv
  cases hp : e.phase
  case idle | done => trivial
  all_goals simp [hp, EncPhase.busy] at hb

theorem encInv_noRoom (h : EncRunning e) : (e.raise .insufficientBuffer).Inv :=
  encInv_of_not_busy (jobInv_fail h.job nofun) nofun h.htabWf rfl

theorem encInv_finish (h : EncRunning e) : e.finish.Inv :=
  encInv_of_not_busy (jobInv_succeed h.job e.eop) nofun h.htabWf rfl

/-! ### What a phase promises, by phase (R165 to R171) -/

theorem encPhaseInv_probe (hp : e.phase = .probe) : e.phaseInv ↔ ∀ c ∈ e.htab, c.2.toNat < e.i.toNat := by
  simp only [Enc.phaseInv, hp]

theorem encPhaseInv_extend (hp : e.phase = .extend) :
    e.phaseInv ↔ e.matchInv ∧ ∀ c ∈ e.htab, c.2.toNat ≤ e.i.toNat := by
  simp only [Enc.phaseInv, hp]

theorem encPhaseInv_flush (hp : e.phase = .flush) :
    e.phaseInv ↔ e.i = e.job.inLen ∨ (e.matchInv ∧ ∀ c ∈ e.htab, c.2.toNat ≤ e.i.toNat) := by
  simp only [Enc.phaseInv, hp]

theorem encPhaseInv_emit (hp : e.phase = .emit) :
    e.phaseInv ↔ e.ls = e.i ∧ e.matchInv ∧ ∀ c ∈ e.htab, c.2.toNat ≤ e.i.toNat := by
  simp only [Enc.phaseInv, hp]

/-! ### The moves of the cursors, the table and `OUT` -/

variable {j : Job} {i ls eop : Word} {t : HTab}

theorem compressing_succ (h : Compressing j i ls eop t) (hi : i.toNat < j.inLen.toNat) :
    Compressing j (i + 1) ls eop t := by
  have e := word_succ_toNat hi
  have hls := h.runStart
  exact ⟨h.job, h.errKind, h.htabWf, by omega, by omega, h.eopBound⟩

theorem compressing_cursors (h : Compressing j i ls eop t) {i' ls' : Word} (hls : ls'.toNat ≤ i'.toNat)
    (hi : i'.toNat ≤ j.inLen.toNat) : Compressing j i' ls' eop t :=
  ⟨h.job, h.errKind, h.htabWf, hls, hi, h.eopBound⟩

theorem compressing_set (h : Compressing j i ls eop t) {k : Nat} (hk : k < 2 ^ Config.hlog) (a : Word) :
    Compressing j i ls eop (t.set k a) :=
  ⟨h.job, h.errKind, set_wf a h.htabWf hk, h.runStart, h.cursor, h.eopBound⟩

theorem compressing_place (h : Compressing j i ls eop t) {bytes : List Byte} (hr : eop.toNat + bytes.length ≤ j.outCap.toNat) :
    Compressing { j with out := Memory.place bytes eop.toNat j.out } i ls (eop + BitVec.ofNat 32 bytes.length) t :=
  ⟨jobInv_place h.job hr, h.errKind, h.htabWf, h.runStart, h.cursor, by rw [word_add_toNat hr]; exact hr⟩

/-- The entries of the table after a write of the position (R165): none lies beyond it. -/
theorem set_entries_le {k : Nat} (h : ∀ c ∈ t, c.2.toNat < i.toNat) :
    ∀ c ∈ Table.set t k i, c.2.toNat ≤ i.toNat := fun c hc => by
  rcases mem_set hc with rfl | hc
  · exact le_rfl
  · exact (h c hc).le

/-- `Emit` (R172) keeps the invariant if what follows a written token does. -/
theorem emitToken_inv {bytes : List Byte} {go : Enc → Enc} (h : EncRunning e)
    (hgo : ∀ (out : Memory) (eop : Word), EncRunning { e with job := { e.job with out := out }, eop := eop } →
      (go { e with job := { e.job with out := out }, eop := eop }).Inv) :
    Answers Enc.Inv (e.emitToken bytes go) := by
  have heop := h.eopBound
  by_cases hr : e.job.outCap.toNat - e.eop.toNat < bytes.length
  · rw [emitToken_noRoom hr]
    exact answers_ok (encInv_noRoom h)
  · rw [emitToken_ok heop (by omega)]
    exact answers_ok (hgo _ _ (compressing_place h (by omega)))

/-! ### The match in progress (R166, R167) -/

/-- The rule for a read of `IN` whose value the property depends on. -/
theorem answers_bind_encReadIn {β : Type} {p : β → Prop} {a : Nat} {f : Byte → Except Fault β}
    (hf : Answers p (f (e.job.inByte .enc a))) : Answers p (e.readIn a >>= f) :=
  answers_bind (q := fun b => b = e.job.inByte .enc a)
    (answers_ite (fun _ => answers_ok rfl) fun _ => answers_error _) fun _ hb => hb ▸ hf

theorem windowMatches_answers (e : Enc) (r : Nat) (b0 b1 b2 : Byte) :
    Answers (fun same => same = true → e.job.inByte .enc r = b0 ∧ e.job.inByte .enc (r + 1) = b1
      ∧ e.job.inByte .enc (r + 2) = b2) (e.windowMatches r b0 b1 b2) :=
  answers_bind_encReadIn <| answers_bind_encReadIn <| answers_bind_encReadIn <| answers_ok of_decide_eq_true

/-- A viable candidate is a match of the shortest length (R166). -/
theorem viable_answers (hi : e.i.toNat + 3 ≤ e.job.inLen.toNat) :
    Answers (fun ok => ok = true → Enc.matchInv { e with mlen := BitVec.ofNat 9 Config.minLen })
      (e.viable (e.job.inByte .enc e.i.toNat) (e.job.inByte .enc (e.i.toNat + 1)) (e.job.inByte .enc (e.i.toNat + 2))) := by
  refine answers_ite (fun hreach => ?_) fun _ => answers_ok nofun
  refine answers_bind (windowMatches_answers e e.ref.toNat _ _ _) fun same hsame => answers_ok fun hok => ?_
  simp only [Enc.candidateInReach, Bool.and_eq_true, decide_eq_true_eq] at hreach hok
  obtain ⟨⟨-, hback⟩, hfar⟩ := hreach
  obtain ⟨h0, h1, h2⟩ := hsame hok.1
  refine ⟨by simp only; omega, hfar, le_rfl, (by decide : 3 ≤ 264), hi, fun k hk => ?_⟩
  have hk3 : k < 3 := hk
  interval_cases k
  · exact h0
  · exact h1
  · exact h2

theorem matchInv_succ (h : e.matchInv) (hmax : e.mlen.toNat < 264) (hin : e.i.toNat + e.mlen.toNat < e.job.inLen.toNat)
    (heq : e.job.inByte .enc (e.ref.toNat + e.mlen.toNat) = e.job.inByte .enc (e.i.toNat + e.mlen.toNat)) :
    Enc.matchInv { e with mlen := e.mlen + 1 } := by
  obtain ⟨hback, hfar, hmin, -, -, hsame⟩ := h
  have e1 : (e.mlen + 1).toNat = e.mlen.toNat + 1 := by bv_omega
  refine ⟨hback, hfar, ?_, ?_, ?_, fun k hk => ?_⟩
  · simp only [e1]; omega
  · simp only [e1]; omega
  · simp only [e1]; omega
  · simp only [e1] at hk
    rcases Nat.lt_succ_iff_lt_or_eq.1 hk with hk | rfl
    · exact hsame k hk
    · exact heq

/-- The cursor past the match does not wrap (R169). -/
theorem matchEnd_toNat (h : e.matchInv) : (e.i + e.mlen.setWidth 32).toNat = e.i.toNat + e.mlen.toNat := by
  obtain ⟨-, -, -, -, hin, -⟩ := h
  rw [← BitVec.ofNat_toNat]
  exact word_add_toNat hin

/-- The index a probe at the cursor hashes to (R164), with the machine's parameters. -/
def windowHash (e : Enc) : Nat :=
  (encParams.hash (e.job.inByte .enc e.i.toNat) (e.job.inByte .enc (e.i.toNat + 1)) (e.job.inByte .enc (e.i.toNat + 2))).toNat

theorem windowHash_lt (e : Enc) : windowHash e < 2 ^ Config.hlog := BitVec.isLt _

/-! ### The steps (R165 to R171) -/

/-- A PROBE step (R165, R166, R171): the table gains the position, a viable candidate becomes a match, else the cursor moves past
every entry. -/
theorem probeStep_inv (h : e.Inv) (hp : e.phase = .probe) : Answers Enc.Inv (e.probeStep encParams) := by
  have hr := encInv_running h (by rw [hp]; rfl)
  have hle := hr.cursor
  have ht := (encPhaseInv_probe hp).1 h.phaseInv
  refine answers_ite (fun hi => answers_ok (encInv_of_running hr (.inl hi))) fun hi => ?_
  have hlt : e.i.toNat < e.job.inLen.toNat := by
    have : e.i.toNat ≠ e.job.inLen.toNat := fun hh => hi (BitVec.eq_of_toNat_eq hh)
    omega
  have e1 := word_succ_toNat hlt
  refine answers_ite (fun hwin => ?_) fun _ => answers_bind_read fun _ => answers_ok ?_
  · have hset := set_entries_le (k := windowHash e) ht
    refine answers_bind_encReadIn <| answers_bind_encReadIn <| answers_bind_encReadIn <| answers_bind
      (viable_answers (e := e.probeTable (windowHash e)) (by simp only [Enc_probeTable_i, Enc_probeTable_job]; omega))
      fun ok hok => answers_ok ?_
    have hr' := compressing_set hr (windowHash_lt e) e.i
    split
    · next hv => exact encInv_of_running hr' ((encPhaseInv_extend rfl).2 ⟨hok hv, hset⟩)
    · refine encInv_of_running (compressing_succ hr' hlt) ((encPhaseInv_probe (by exact hp)).2 fun c hc => ?_)
      have := hset c hc
      simp only [Enc_skipByte_i, Enc_probeTable_i]
      omega
  · refine encInv_of_running (compressing_succ hr hlt) ((encPhaseInv_probe (by exact hp)).2 fun c hc => ?_)
    have := ht c hc
    simp only [Enc_skipByte_i]
    omega

/-- An EXTEND step (R167): the match grows by an equal byte, or stands. -/
theorem extendStep_inv (h : e.Inv) (hp : e.phase = .extend) : Answers Enc.Inv e.extendStep := by
  have hr := encInv_running h (by rw [hp]; rfl)
  obtain ⟨hm, ht⟩ := (encPhaseInv_extend hp).1 h.phaseInv
  have hstop : Enc.Inv { e with phase := .flush } := encInv_of_running hr (.inr ⟨hm, ht⟩)
  refine answers_ite (fun hgo => ?_) fun _ => answers_ok hstop
  refine answers_bind_encReadIn <| answers_bind_encReadIn <| answers_ok ?_
  split
  · next heq => exact encInv_of_running hr ((encPhaseInv_extend (by exact hp)).2 ⟨matchInv_succ hm hgo.1 hgo.2 heq, ht⟩)
  · exact hstop

/-- A FLUSH step (R168, R170, R171): the start of the run moves up to the cursor, and no further. -/
theorem flushStep_inv (h : e.Inv) (hp : e.phase = .flush) : Answers Enc.Inv e.flushStep := by
  have hr := encInv_running h (by rw [hp]; rfl)
  have hls := hr.runStart
  have hf := (encPhaseInv_flush hp).1 h.phaseInv
  refine answers_ite (fun hle => answers_ok ?_) fun hlt => answers_bind_read fun data => ?_
  · split
    · exact encInv_finish hr
    · next hi =>
      have heq : e.ls = e.i := BitVec.eq_of_toNat_eq (by omega)
      exact encInv_of_running hr ((encPhaseInv_emit rfl).2 ⟨heq, hf.resolve_left hi⟩)
  · have hn : e.ls.toNat + min Config.maxLit (e.i.toNat - e.ls.toNat) ≤ e.i.toNat := by omega
    refine emitToken_inv hr fun out eop hr' => ?_
    exact encInv_of_running (compressing_cursors hr' (by rw [word_add_toNat hn]; exact hn) hr'.cursor)
      ((encPhaseInv_flush (by exact hp)).2 hf)

/-- An EMIT step (R168, R169): the cursor moves past the match, so past every entry, and the run is empty. -/
theorem emitStep_inv (h : e.Inv) (hp : e.phase = .emit) : Answers Enc.Inv e.emitStep := by
  have hr := encInv_running h (by rw [hp]; rfl)
  obtain ⟨-, hm, ht⟩ := (encPhaseInv_emit hp).1 h.phaseInv
  have hend := matchEnd_toNat hm
  obtain ⟨-, -, hmin, -, hin, -⟩ := hm
  refine emitToken_inv hr fun out eop hr' => ?_
  refine encInv_of_running (compressing_cursors hr' le_rfl (by simp only [hend]; exact hin))
    ((encPhaseInv_probe rfl).2 fun c hc => ?_)
  have := ht c hc
  simp only [hend]
  omega

/-- A step of `ENC` keeps its invariant. -/
theorem encStep_inv (h : e.Inv) : Answers Enc.Inv (e.step encParams) := by
  unfold Enc.step
  split
  case h_1 => exact answers_ok h
  case h_2 hp => exact probeStep_inv h hp
  case h_3 hp => exact extendStep_inv h hp
  case h_4 hp => exact emitStep_inv h hp
  case h_5 hp => exact flushStep_inv h hp
  case h_6 => exact answers_ok h

end Sys2Proof.Proofs
end

section
/-! The invariant of the block through the host's moves and the engines' turns (spec/10_state.md R37, spec/70_reset_and_hazards.md
R230 to R242). -/

namespace Sys2Proof.Proofs

open Sys2Proof.Machine Sys2Proof.Laws

variable {s : State}

/-! ### The registers (R21, R23, R30, R33) -/

theorem decStart_inv {d : Dec} (h : d.Inv) : d.start.Inv := by
  unfold Dec.start
  split
  · exact h
  · exact decInv_of_running ⟨h.job, Nat.zero_le _, Nat.zero_le _, nofun⟩ trivial

theorem encStart_inv {e : Enc} (h : e.Inv) : e.start.Inv := by
  unfold Enc.start
  split
  · exact h
  · exact encInv_of_running ⟨h.job, h.errKind, nil_wf _, le_rfl, Nat.zero_le _, Nat.zero_le _⟩ nofun

theorem decWriteCtrl_inv {d : Dec} (h : d.Inv) (v : Word) : (d.writeCtrl v).Inv := by
  unfold Dec.writeCtrl
  split
  · exact decStart_inv h
  · exact h

theorem encWriteCtrl_inv {e : Enc} (h : e.Inv) (v : Word) : (e.writeCtrl v).Inv := by
  unfold Enc.writeCtrl
  split
  · exact encStart_inv h
  · exact h

theorem decWriteInLen_inv {d : Dec} (h : d.Inv) (v : Word) : (d.writeInLen v).Inv := by
  unfold Dec.writeInLen
  split
  · exact h
  · next hb => exact decInv_of_not_busy (jobInv_inLen h.job v) (Bool.eq_false_iff.2 hb)

theorem decWriteOutCap_inv {d : Dec} (h : d.Inv) (v : Word) : (d.writeOutCap v).Inv := by
  unfold Dec.writeOutCap
  split
  · exact h
  · next hb => exact decInv_of_not_busy (jobInv_outCap h.job v) (Bool.eq_false_iff.2 hb)

theorem encWriteInLen_inv {e : Enc} (h : e.Inv) (v : Word) : (e.writeInLen v).Inv := by
  unfold Enc.writeInLen
  split
  · exact h
  · next hb => exact encInv_of_not_busy (jobInv_inLen h.job v) h.errKind h.htabWf (Bool.eq_false_iff.2 hb)

theorem encWriteOutCap_inv {e : Enc} (h : e.Inv) (v : Word) : (e.writeOutCap v).Inv := by
  unfold Enc.writeOutCap
  split
  · exact h
  · next hb => exact encInv_of_not_busy (jobInv_outCap h.job v) h.errKind h.htabWf (Bool.eq_false_iff.2 hb)

theorem regWrite_inv (h : s.Inv) (n : Nat) (v : Word) : (s.regWrite n v).Inv := by
  unfold State.regWrite
  split
  case h_1 => exact ⟨decWriteCtrl_inv h.dec v, h.enc⟩
  case h_2 => exact ⟨decWriteInLen_inv h.dec v, h.enc⟩
  case h_3 => exact ⟨decWriteOutCap_inv h.dec v, h.enc⟩
  case h_4 => exact ⟨h.dec, encWriteCtrl_inv h.enc v⟩
  case h_5 => exact ⟨h.dec, encWriteInLen_inv h.enc v⟩
  case h_6 => exact ⟨h.dec, encWriteOutCap_inv h.enc v⟩
  case h_7 => exact ⟨h.dec, h.enc⟩
  case h_8 => exact h

/-! ### The memories and reset (R230, R231, R242) -/

theorem stateInv_job (h : s.Inv) (u : Engine) : (s.job u).Inv := by
  cases u with
  | dec => exact h.dec.job
  | enc => exact h.enc.job

/-- While an engine is not busy its memories may be replaced by any canonical ones. -/
theorem withJob_inv {u : Engine} {j : Job} (h : s.Inv) (hb : ¬ s.busy u = true) (hj : j.Inv) (he : j.err = (s.job u).err) :
    (s.withJob u j).Inv := by
  have hb := Bool.eq_false_iff.2 hb
  cases u with
  | dec => exact ⟨decInv_of_not_busy hj hb, h.enc⟩
  | enc => exact ⟨h.dec, encInv_of_not_busy hj (fun hk => h.enc.errKind (he.symm.trans hk)) h.enc.htabWf hb⟩

theorem decReset_inv {j : Job} (h : j.Inv) : (Dec.reset j).Inv := decInv_of_not_busy h rfl

theorem encReset_inv {j : Job} (h : j.Inv) (hk : j.err ≠ .dataCorruption) : (Enc.reset j).Inv :=
  encInv_of_not_busy h hk (nil_wf _) rfl

theorem afterReset_inv (h : s.Inv) : s.afterReset.Inv :=
  ⟨decReset_inv (jobInv_afterReset h.dec.job _), encReset_inv (jobInv_afterReset h.enc.job _) nofun⟩

/-! ### The moves -/

/-- A move into an engine's ranges that is not refused finds the engine not busy (R234). -/
theorem handsOff_eq_next {busy : Bool} {s' t : State}
    (h : (if busy then .refused .handsOff else .next s' : Host.Outcome State Fault Refusal) = .next t) :
    ¬ busy = true ∧ t = s' := by
  split at h
  · cases h
  · next hb => cases h; exact ⟨hb, rfl⟩

theorem hostMove_inv {m : Move} {t : State} (h : s.Inv) (ht : s.hostMove m = .next t) : t.Inv := by
  cases m with
  | writeReg n v => cases ht; exact regWrite_inv h n v
  | readReg n => cases ht; exact h
  | writeIn u a b =>
    obtain ⟨hb, rfl⟩ := handsOff_eq_next ht
    have hj := stateInv_job h u
    exact withJob_inv h hb (jobInv_inp hj (write_wf b hj.inpWf a.isLt)) rfl
  | readIn u a => cases ht; exact h
  | writeOut u a b =>
    obtain ⟨hb, rfl⟩ := handsOff_eq_next ht
    have hj := stateInv_job h u
    exact withJob_inv h hb (jobInv_out hj (write_wf b hj.outWf a.isLt)) rfl
  | readOut u a => exact (handsOff_eq_next ht).2 ▸ h
  | reset => cases ht; exact afterReset_inv h
  | run u => cases ht; exact h

theorem turn_inv {u : Engine} {t : State} (h : s.Inv) (ht : s.turn u = .next t) : t.Inv := by
  cases u with
  | dec =>
    obtain ⟨d, hd, rfl⟩ := decTurn_eq_next ht
    exact ⟨turnOnDec_inv h.dec d hd, h.enc⟩
  | enc =>
    obtain ⟨e, he, rfl⟩ := encTurn_eq_next ht
    exact ⟨h.dec, encStep_inv h.enc e he⟩

theorem perform_inv {m : Move} {t : State} (h : s.Inv) (ht : s.perform m = .next t) : t.Inv := by
  unfold State.perform at ht
  split at ht
  · exact turn_inv h ht
  · exact hostMove_inv h ht

/-- Settles O45: each move of the host and each turn of an engine keeps the invariant (`perform_inv`), and the list of moves is no
part of it. -/
theorem stepKeepsTheInvariant : Obligations.StepKeepsTheInvariant := by
  unfold Obligations.StepKeepsTheInvariant
  intro s t h hs
  rcases step_cases s with hstep | ⟨m, s', hm, hstep⟩
  · cases hstep.symm.trans hs
    exact h
  · have h' : s'.Inv := by
      rw [nextMove_eq hm]
      exact ⟨h.dec, h.enc⟩
    exact perform_inv h' (hstep.symm.trans hs)

/-- Settles O46: an idle engine relies on its job interface alone, and after reset that lists nothing and reports nothing. -/
theorem resetMeetsTheInvariant : Obligations.ResetMeetsTheInvariant := by
  unfold Obligations.ResetMeetsTheInvariant
  have hj : (Job.reset [] [] []).Inv := jobInv_reset (nil_wf _) (nil_wf _) _
  exact ⟨decReset_inv hj, encReset_inv hj nofun⟩

end Sys2Proof.Proofs
end

section
/-! What the host reads of the job registers, and what its writes do (spec/10_state.md R20 to R23, R30, R33, R36). -/

namespace Sys2Proof.Proofs

open Sys2Proof.Machine Sys2Proof.Laws

variable {s : State}

/-! ### Reads -/

/-- `STATUS`, field by field (R22), for an engine that is not both running and finished. -/
theorem jobStatus_fields (j : Job) {busy finished : Bool} (hbf : (busy && finished) = false) :
    (j.status busy finished).getLsbD 0 = busy ∧ (j.status busy finished).getLsbD 1 = finished
      ∧ (j.status busy finished).extractLsb' 2 2 = (if finished then j.err.code else 0)
      ∧ (j.status busy finished).getLsbD 4 = (finished && j.empty)
      ∧ (∀ k, 5 ≤ k → (j.status busy finished).getLsbD k = false)
      ∧ ((j.status busy finished).getLsbD 0 && (j.status busy finished).getLsbD 1) = false := by
  obtain ⟨h0, h1, h2, h4, hhigh⟩ :=
    statusWord_fields busy finished (if finished then j.err else .ok) (finished && j.empty)
  refine ⟨h0, h1, h2.trans (apply_ite ErrKind.code _ _ _), h4, hhigh, ?_⟩
  exact (congrArg₂ (· && ·) h0 h1).trans hbf

theorem decFinished_iff (p : DecPhase) : p.finished = true ↔ p = .done := by cases p <;> decide

theorem encFinished_iff (p : EncPhase) : p.finished = true ↔ p = .done := by cases p <;> decide

theorem regRead_unused : ∀ n ∈ [0, 5, 6, 7, 8, 13, 14, 15], s.regRead n = 0 := by
  simp [State.regRead]

/-- Register 18 shows bit `W` of a `W + 1`-bit number, and nothing above it (R33, log 21). -/
theorem regRead_boundHigh_bit {k : Nat} (hk : 1 ≤ k) : (s.regRead 18).getLsbD k = false := by
  simp only [State.regRead, BitVec.getLsbD_setWidth, BitVec.getLsbD_ushiftRight]
  rw [BitVec.getLsbD_of_ge _ _ (by omega), Bool.and_false]

/-- Settles O34: each status word is the word of R22 over its engine's phase, which is never both running and finished. -/
theorem statusFieldsReadAsListed : Obligations.StatusFieldsReadAsListed := by
  unfold Obligations.StatusFieldsReadAsListed
  exact ⟨fun s => jobStatus_fields s.dec.job (busy_not_finished _),
    fun s => jobStatus_fields s.enc.job (enc_busy_not_finished _)⟩

/-- Settles O35: by the read of each number; `DONE` is the phase DONE. -/
theorem registerMapReadsAsListed : Obligations.RegisterMapReadsAsListed := by
  unfold Obligations.RegisterMapReadsAsListed
  intro s
  refine ⟨regRead_unused, rfl, rfl, ?_, rfl, rfl, ?_, rfl, fun k => regRead_boundHigh_bit⟩
  · simp only [State.regRead, Job.countRead, decFinished_iff]
  · simp only [State.regRead, Job.countRead, encFinished_iff]

/-! ### Writes -/

theorem step_writeReg {n : Nat} {v : Word} {rest : List Move} (h : s.moves = .writeReg n v :: rest) :
    step s = .next (State.regWrite n v { s with moves := rest }) :=
  step_of_moves h

theorem decWriteInLen_eq {d : Dec} (hb : d.phase.busy = false) (v : Word) :
    d.writeInLen v = { d with job := { d.job with inLen := v } } := by
  simp [Dec.writeInLen, hb]

theorem decWriteOutCap_eq {d : Dec} (hb : d.phase.busy = false) (v : Word) :
    d.writeOutCap v = { d with job := { d.job with outCap := v } } := by
  simp [Dec.writeOutCap, hb]

theorem encWriteInLen_eq {e : Enc} (hb : e.phase.busy = false) (v : Word) :
    e.writeInLen v = { e with job := { e.job with inLen := v } } := by
  simp [Enc.writeInLen, hb]

theorem encWriteOutCap_eq {e : Enc} (hb : e.phase.busy = false) (v : Word) :
    e.writeOutCap v = { e with job := { e.job with outCap := v } } := by
  simp [Enc.writeOutCap, hb]

/-- A number that names no writable register ignores the write (R20, R30, U17). -/
theorem regWrite_readOnly {n : Nat} (hn : n ∉ [0, 2, 3, 8, 10, 11, 16]) (v : Word) : s.regWrite n v = s := by
  unfold State.regWrite
  split
  case h_8 => rfl
  all_goals exact absurd (by decide) hn

/-- Settles O36: by the write of each number, taken off the list of moves. -/
theorem lengthRegistersHoldWhatIsWritten : Obligations.LengthRegistersHoldWhatIsWritten := by
  unfold Obligations.LengthRegistersHoldWhatIsWritten
  intro s v rest
  refine ⟨fun hb => ⟨fun h => ?_, fun h => ?_⟩, fun hb => ⟨fun h => ?_, fun h => ?_⟩, step_writeReg, fun n hn h => ?_⟩
  · rw [step_writeReg h, State.regWrite, decWriteInLen_eq hb]
  · rw [step_writeReg h, State.regWrite, decWriteOutCap_eq hb]
  · rw [step_writeReg h, State.regWrite, encWriteInLen_eq hb]
  · rw [step_writeReg h, State.regWrite, encWriteOutCap_eq hb]
  · have hro : ∀ n ∈ [1, 4, 5, 6, 7, 9, 12, 13, 14, 15, 17, 18], n ∉ [0, 2, 3, 8, 10, 11, 16] := by decide
    rw [step_writeReg h, regWrite_readOnly (hro n hn)]

theorem decWriteCtrl_start {d : Dec} {v : Word} (hb : d.phase.busy = false) (hv : v.getLsbD 0 = true) :
    d.writeCtrl v = { d with ip := 0, op := 0, phase := .fetch } := by
  simp [Dec.writeCtrl, Dec.start, hb, hv]

theorem decWriteCtrl_ignored {d : Dec} {v : Word} (h : d.phase.busy = true ∨ v.getLsbD 0 = false) : d.writeCtrl v = d := by
  rcases h with hb | hv
  · simp [Dec.writeCtrl, Dec.start, hb]
  · simp only [Dec.writeCtrl, hv, Bool.false_eq_true, if_false]

/-- Settles O38: by the two cases of `START` (R110); in FETCH an engine is running and has no result. -/
theorem decoderStartBeginsAJob : Obligations.DecoderStartBeginsAJob := by
  unfold Obligations.DecoderStartBeginsAJob
  refine ⟨fun s v rest h => ⟨fun hb hv => ?_, fun hno => ?_⟩, fun s => rfl⟩
  · refine ⟨_, step_writeReg h, ?_, ?_⟩
    · rw [State.regWrite, decWriteCtrl_start hb hv]
    · rw [State.regWrite, decWriteCtrl_start hb hv]
      exact ⟨status_running _, rfl⟩
  · rw [step_writeReg h, State.regWrite, decWriteCtrl_ignored hno]

end Sys2Proof.Proofs
end

section
/-! What reset leaves: the registers the host then reads, and the memories (spec/10_state.md R36, spec/70_reset_and_hazards.md R230,
R231). -/

namespace Sys2Proof.Proofs

open Sys2Proof.Machine Sys2Proof.Laws

/-- What the host reads when both engines are as reset leaves them. -/
theorem regRead_reset {j k : Job} (hj : j.inLen = 0 ∧ j.outCap = 0) (hk : k.inLen = 0 ∧ k.outCap = 0) (moves : List Move) :
    let t : State := { dec := Dec.reset j, enc := Enc.reset k, boundN := 0, moves := moves }
    (∀ n ∈ [0, 1, 2, 3, 4, 8, 9, 10, 11, 12, 16, 18], t.regRead n = 0) ∧ t.regRead 17 = 1 := by
  obtain ⟨hj1, hj2⟩ := hj
  obtain ⟨hk1, hk2⟩ := hk
  have hlow : (boundResult 0).setWidth 32 = (1 : Word) := by decide
  have hhigh : (boundResult 0 >>> 32).setWidth 32 = (0 : Word) := by decide
  refine ⟨?_, hlow⟩
  simp only [List.forall_mem_cons]
  exact ⟨rfl, status_idle j, hj1, hj2, rfl, rfl, status_idle k, hk1, hk2, rfl, rfl, hhigh, nofun⟩

/-- Settles O40: the block after reset is one whose engines are as reset leaves them (`regRead_reset`). -/
theorem resetRegistersReadTheirValues : Obligations.ResetRegistersReadTheirValues := by
  unfold Obligations.ResetRegistersReadTheirValues
  obtain ⟨hzero, hbound⟩ := regRead_reset (j := Job.reset [] [] []) (k := Job.reset [] [] []) ⟨rfl, rfl⟩ ⟨rfl, rfl⟩ []
  exact ⟨hzero, hbound, rfl, rfl⟩

theorem jobAfterReset_inp (busy : Bool) (j : Job) : (j.afterReset busy).inp = j.inp := rfl

theorem jobAfterReset_read? (busy : Bool) (j : Job) (a : Nat) : (j.afterReset busy).out.read? a =
    if busy = true ∧ a < j.outCap.toNat then none else j.out.read? a := by
  cases busy
  · simp [Job.afterReset, Job.cut]
  · simp [Job.afterReset, Job.cut, read?_forget]

theorem jobAfterReset_outByte (u : Engine) {busy : Bool} {j : Job} {a : Nat} (h : busy = false ∨ j.outCap.toNat ≤ a) :
    (j.afterReset busy).outByte u a = j.outByte u a := by
  cases busy
  · rfl
  · have ha := h.resolve_left nofun
    exact (outByte_forgetOut u j 0 j.outCap.toNat a).trans (if_neg (by omega))

theorem afterReset_job (s : State) (rest : List Move) (u : Engine) :
    (State.afterReset { s with moves := rest }).job u = (s.job u).afterReset (s.busy u) := by
  cases u <;> rfl

/-- Settles O41: reset leaves each engine as `Dec.reset` and `Enc.reset` say, with the memories of `Job.afterReset`. -/
theorem resetStopsEverything : Obligations.ResetStopsEverything := by
  unfold Obligations.ResetStopsEverything
  intro s rest h
  obtain ⟨hzero, hbound⟩ := regRead_reset (j := s.dec.job.afterReset s.dec.phase.busy)
    (k := s.enc.job.afterReset s.enc.phase.busy) ⟨rfl, rfl⟩ ⟨rfl, rfl⟩ rest
  refine ⟨_, step_of_moves h, rfl, rfl, rfl, hzero, hbound, fun u => ?_, fun u a => ?_, fun u a ha => ?_⟩
  · rw [afterReset_job, jobAfterReset_inp]
  · rw [afterReset_job, jobAfterReset_read?]
  · rw [afterReset_job, jobAfterReset_outByte u ha]

end Sys2Proof.Proofs
end

section
/-! What the end of a job leaves of `OUT` (spec/20_memory.md R64, R65). -/

namespace Sys2Proof.Proofs

open Sys2Proof.Machine Sys2Proof.Laws

variable (j : Job) (a : Nat)

theorem fail_read? (k : ErrKind) : (j.fail k).out.read? a = if a < j.outCap.toNat then none else j.out.read? a := by
  simp only [Job_fail_out, read?_forget, Nat.zero_le, true_and]

theorem succeed_read? (c : Word) :
    (j.succeed c).out.read? a = if c.toNat ≤ a ∧ a < j.outCap.toNat then none else j.out.read? a := by
  rw [Job_succeed_out, read?_forget]

/-- A failed job reads of `OUT` as after forgetting all of it. -/
theorem fail_outByte (u : Engine) (k : ErrKind) : (j.fail k).outByte u a =
    if a < j.outCap.toNat then Config.unspecifiedOutByte u (j.forgotten.length + 1) a else j.outByte u a := by
  have h := outByte_forgetOut u j 0 j.outCap.toNat a
  simp only [Nat.zero_le, true_and] at h
  exact h

/-- A job that ended well reads of `OUT` as after forgetting what lies beyond the count. -/
theorem succeed_outByte (u : Engine) (c : Word) : (j.succeed c).outByte u a =
    if c.toNat ≤ a ∧ a < j.outCap.toNat then Config.unspecifiedOutByte u (j.forgotten.length + 1) a else j.outByte u a :=
  outByte_forgetOut u j c.toNat j.outCap.toNat a

/-- Settles O19: the end of a job forgets one span of `OUT`, all of it or what lies beyond the count. -/
theorem unspecifiedContentsAreForgotten : Obligations.UnspecifiedContentsAreForgotten := by
  unfold Obligations.UnspecifiedContentsAreForgotten
  exact ⟨fun k j a => fail_read? j a k, fun c j a => succeed_read? j a c, fun u k j a => fail_outByte j a u k,
    fun u c j a => succeed_outByte j a u c⟩

end Sys2Proof.Proofs
end

section
/-! That a computation of an engine answers: the total counterpart of `Answers`, carried through the do blocks of the engines'
operations. -/

namespace Sys2Proof.Proofs

open Sys2Proof.Machine Sys2Proof.Laws

/-- The computation answers, without a fault, and its answer has the property. -/
def Succeeds {α : Type} (p : α → Prop) (r : Except Fault α) : Prop := ∃ a, r = .ok a ∧ p a

/-- The computation answers, without a fault. -/
abbrev Runs {α : Type} (r : Except Fault α) : Prop := Succeeds (fun _ => True) r

variable {α β : Type} {p : α → Prop}

theorem succeeds_ok {a : α} (h : p a) : Succeeds p (.ok a) := ⟨a, rfl, h⟩

theorem runs_ok (a : α) : Runs (.ok a) := succeeds_ok trivial

theorem runs_of_eq {a : α} {r : Except Fault α} (h : r = .ok a) : Runs r := ⟨a, h, trivial⟩

theorem succeeds_ite {c : Prop} [Decidable c] {r r' : Except Fault α} (h : c → Succeeds p r) (h' : ¬ c → Succeeds p r') :
    Succeeds p (if c then r else r') := by
  split
  · next hc => exact h hc
  · next hc => exact h' hc

theorem succeeds_bind {q : β → Prop} {r : Except Fault β} {f : β → Except Fault α} (hr : Succeeds q r)
    (hf : ∀ b, q b → Succeeds p (f b)) : Succeeds p (r >>= f) := by
  obtain ⟨b, rfl, hb⟩ := hr
  exact hf b hb

/-- The rule for a computation whose answer is known. -/
theorem succeeds_bind_eq {b : β} {r : Except Fault β} {f : β → Except Fault α} (hr : r = .ok b) (hf : Succeeds p (f b)) :
    Succeeds p (r >>= f) := by
  subst hr
  exact hf

theorem Succeeds.answers {r : Except Fault α} (h : Succeeds p r) : Answers p r := by
  obtain ⟨a, rfl, ha⟩ := h
  exact answers_ok ha

end Sys2Proof.Proofs
end

section
/-! The outcome of a token whose control byte is in `IN`: it completes or it raises, and never faults (spec/20_memory.md R52, R58,
spec/60_exceptions.md R206). -/

namespace Sys2Proof.Proofs

open Sys2Proof.Machine Sys2Proof.Laws

/-- What a token makes of a job interface `j` and a cursor `op`: it completes with a string placed at `op`, which moves past the
string without wrapping (R52), or it raises and `op` has not moved (R206). -/
inductive TokenOutcome (j : Job) (op : Word) (d : Dec) : Prop where
  | completes (bytes : List Byte) (phase : d.phase = .fetch) (cursor : d.op.toNat = op.toNat + bytes.length)
      (job : d.job = { j with out := Memory.place bytes op.toNat j.out })
  | raises (k : ErrKind) (kind : k = .dataCorruption ∨ k = .insufficientBuffer) (phase : d.phase = .done)
      (cursor : d.op = op) (job : d.job = j.fail k)

variable {d : Dec}

theorem raise_outcome {k : ErrKind} (hk : k = .dataCorruption ∨ k = .insufficientBuffer) :
    Succeeds (TokenOutcome d.job d.op) (.ok (d.raise k)) :=
  succeeds_ok (.raises k hk rfl rfl rfl)

theorem validateAndCopy_outcome {dist : BitVec 14} {length : BitVec 9} (hd : 1 ≤ dist.toNat) (hl : 1 ≤ length.toNat) :
    Succeeds (TokenOutcome d.job d.op) (d.validateAndCopy dist length) := by
  rw [validateAndCopy_cases hd hl]
  refine succeeds_ite (fun _ => raise_outcome (.inl rfl)) fun _ =>
    succeeds_ite (fun _ => raise_outcome (.inr rfl)) fun hroom =>
    succeeds_ok (.completes (copyPattern { d with dist := dist } length.toNat) rfl ?_ rfl)
  rw [copyPattern_length]
  exact word_add_toNat (y := d.job.outCap) (by omega)

theorem shortToken_outcome (lc : BitVec 3) (dh : BitVec 5) (r : Byte) (h : d.ip.toNat < d.job.inLen.toNat) :
    Succeeds (TokenOutcome d.job d.op) (d.shortToken lc dh r) := by
  have hlen := shortLength_toNat lc
  rw [shortToken_eq h]
  exact succeeds_ite (fun _ => succeeds_ok (.raises _ (.inl rfl) rfl rfl rfl)) fun _ =>
    validateAndCopy_outcome (d := { d with ip := _, ctrl := _, len := _ }) (distance_pos dh r) (by omega)

theorem longToken_outcome (dh : BitVec 5) (e r : Byte) (h : d.ip.toNat < d.job.inLen.toNat) :
    Succeeds (TokenOutcome d.job d.op) (d.longToken dh e r) := by
  have hlen := longLength_toNat e
  rw [longToken_eq h]
  exact succeeds_ite (fun _ => succeeds_ok (.raises _ (.inl rfl) rfl rfl rfl)) fun _ =>
    succeeds_ite (fun _ => succeeds_ok (.raises _ (.inl rfl) rfl rfl rfl)) fun _ =>
    validateAndCopy_outcome (d := { d with ip := _, ctrl := _, len := _ }) (distance_pos dh r) (by omega)

/-- The empty literal, which no stream encodes, passes both tests wherever `op` stands. -/
theorem literalToken_nil (c : Byte) (h : d.ip.toNat < d.job.inLen.toNat) :
    d.literalToken c [] = .ok { d with phase := .fetch, ip := d.ip + 1, ctrl := c, len := 0 } := by
  simp [Dec.literalToken, takeControl_ok c h, Dec.literalLoop]

theorem literalToken_outcome (c : Byte) (data : List Byte) (h : d.ip.toNat < d.job.inLen.toNat) :
    Succeeds (TokenOutcome d.job d.op) (d.literalToken c data) := by
  cases data with
  | nil =>
    rw [literalToken_nil c h]
    exact succeeds_ok (.completes [] rfl rfl rfl)
  | cons b bs =>
    have hlen : (b :: bs).length = bs.length + 1 := List.length_cons
    by_cases hin : d.job.inLen.toNat < d.ip.toNat + 1 + (b :: bs).length
    · rw [literalToken_cut h hin]
      exact succeeds_ok (.raises _ (.inl rfl) rfl rfl rfl)
    by_cases hroom : d.job.outCap.toNat - d.op.toNat < (b :: bs).length
    · rw [literalToken_noRoom h (by omega) hroom]
      exact succeeds_ok (.raises _ (.inr rfl) rfl rfl rfl)
    have hout : d.op.toNat + (b :: bs).length ≤ d.job.outCap.toNat := by omega
    rw [literalToken_ok (by omega) hout]
    exact succeeds_ok (.completes (b :: bs) rfl (word_add_toNat hout) rfl)

theorem tokenOnDec_outcome (i : Instr) (h : d.ip.toNat < d.job.inLen.toNat) :
    Succeeds (TokenOutcome d.job d.op) (tokenOnDec i d) := by
  cases i with
  | lit data => exact literalToken_outcome _ data h
  | lref dh e r => exact longToken_outcome dh e r h
  | _ dh r => exact shortToken_outcome _ dh r h

/-- Every token takes its control byte first, inside the range only (R58 (a)). -/
theorem tokenOnDec_fault (i : Instr) (h : ¬ d.ip.toNat < d.job.inLen.toNat) :
    tokenOnDec i d = .error .readPastInput := by
  cases i with
  | lit data => rw [tokenOnDec, Dec.literalToken, takeControl_fault _ h, except_error_bind]
  | lref dh e r => rw [tokenOnDec, Dec.longToken, takeControl_fault _ h, except_error_bind]
  | _ dh r => rw [tokenOnDec, Dec.shortToken, takeControl_fault _ h, except_error_bind]

theorem tokenOnDec_answers (i : Instr) (d : Dec) : Answers (TokenOutcome d.job d.op) (tokenOnDec i d) := by
  by_cases h : d.ip.toNat < d.job.inLen.toNat
  · exact (tokenOnDec_outcome i h).answers
  · rw [tokenOnDec_fault i h]
    exact answers_error _

/-- A token whose control byte is in `IN` answers a next state. -/
theorem exec_eq_next (i : Instr) {s : State} (h : s.dec.ip.toNat < s.dec.job.inLen.toNat) : ∃ t, exec i s = .next t := by
  obtain ⟨d, hd, -⟩ := tokenOnDec_outcome i h
  exact ⟨{ s with dec := d }, by rw [exec_eq_ofDec, hd, State_ofDec_ok]⟩

/-- Settles O16: a token completes by placing a string at `op`, or raises (`TokenOutcome`); either way it keeps the frame of the job. -/
theorem tokensChangeOnlyTheirRange : Obligations.TokensChangeOnlyTheirRange := by
  unfold Obligations.TokensChangeOnlyTheirRange
  intro i s t h
  obtain ⟨d, hd, rfl⟩ := State_ofDec_eq_next (exec_eq_ofDec i s ▸ h)
  have hf : JobFrame s.dec.job d.job := tokenOnDec_frame i (.refl _) d hd
  refine ⟨rfl, hf.inp, hf.inLen, hf.outCap, fun a ha => ⟨hf.beyond a ha, hf.outByte_eq .dec ha⟩, ?_⟩
  cases tokenOnDec_answers i s.dec d hd with
  | completes bytes phase cursor job =>
    refine .inl ⟨phase, by simp only; omega, by rw [job], fun a ha => ?_⟩
    simp only [cursor] at ha
    rw [job, read?_place, if_neg (by omega)]
  | raises k kind phase cursor job =>
    refine .inr ⟨phase, cursor, ?_⟩
    rw [job]
    exact ⟨rfl, rfl, kind⟩

/-- Settles O17: the control byte is taken first (`tokenOnDec_fault`), and from there on every token completes or raises. -/
theorem tokensFaultOnlyOutsideTheInput : Obligations.TokensFaultOnlyOutsideTheInput := by
  unfold Obligations.TokensFaultOnlyOutsideTheInput
  refine fun i s => ⟨fun h => ?_, exec_eq_next i⟩
  rw [exec_eq_ofDec, tokenOnDec_fault i (by omega), State_ofDec_error]

end Sys2Proof.Proofs
end

section
/-! No access outside the ranges (spec/20_memory.md R58): from a state that meets the invariant every turn of an engine answers, and
the host's moves never fault. -/

namespace Sys2Proof.Proofs

open Sys2Proof.Machine Sys2Proof.Laws

theorem readIn_ok (u : Engine) {j : Job} {a : Nat} (h : a < j.inLen.toNat) : j.readIn u a = .ok (j.inByte u a) := by
  rw [Job.readIn, if_pos h]

/-- A cursor inside `IN` that is not at its end has a byte left. -/
theorem word_lt_of_ne {x y : Word} (h : x.toNat ≤ y.toNat) (hne : x ≠ y) : x.toNat < y.toNat :=
  lt_of_le_of_ne h fun he => hne (BitVec.eq_of_toNat_eq he)

/-! ### The byte steps of `DEC` -/

section
variable {d : Dec}

theorem readBack_ok (h1 : 1 ≤ d.dist.toNat) (h2 : d.dist.toNat ≤ d.op.toNat) :
    d.readBack = .ok (d.job.outByte .dec (d.op.toNat - d.dist.toNat)) := by
  rw [Dec.readBack, if_pos ⟨h1, h2⟩]

theorem ip_lt_of_not_atEnd (h : d.Inv) (hb : d.phase.busy = true) (he : ¬ d.atEnd = true) :
    d.ip.toNat < d.job.inLen.toNat :=
  word_lt_of_ne (h.ipBound hb) fun h => he (decide_eq_true h)

theorem literalByte_runs (b : Byte) (hi : d.ip.toNat < d.job.inLen.toNat) (ho : d.op.toNat < d.job.outCap.toNat) :
    Runs (d.literalByte b) :=
  succeeds_bind_eq (putByte_ok b ho) (runs_of_eq (advance_ok hi))

theorem copyByte_runs (hdist : 1 ≤ d.dist.toNat) (hback : d.dist.toNat ≤ d.op.toNat)
    (ho : d.op.toNat < d.job.outCap.toNat) : Runs d.copyByte :=
  succeeds_bind_eq (readBack_ok hdist hback) (runs_of_eq (putByte_ok _ ho))

theorem litStep_runs (h : d.Inv) (hp : d.phase = .lit) : Runs d.litStep := by
  obtain ⟨hlen, -, hin, hout⟩ := (decPhaseInv_lit hp).1 h.phaseInv
  have hi : d.ip.toNat < d.job.inLen.toNat := by omega
  exact succeeds_bind_eq (readIn_ok .dec hi) <| succeeds_bind (literalByte_runs _ hi (by omega)) fun _ _ => runs_ok _

theorem extStep_runs (h : d.Inv) (hp : d.phase = .ext) : Runs d.extStep := by
  refine succeeds_ite (fun _ => runs_ok _) fun he => ?_
  have hi := ip_lt_of_not_atEnd h (by rw [hp]; rfl) he
  exact succeeds_bind_eq (readIn_ok .dec hi) <| succeeds_bind_eq (advance_ok hi) <| runs_ok _

theorem lowStep_runs (h : d.Inv) (hp : d.phase = .low) : Runs d.lowStep := by
  refine succeeds_ite (fun _ => runs_ok _) fun he => ?_
  have hi := ip_lt_of_not_atEnd h (by rw [hp]; rfl) he
  exact succeeds_bind_eq (readIn_ok .dec hi) <| succeeds_bind_eq (advance_ok hi) <|
    succeeds_ite (fun _ => runs_ok _) fun _ => succeeds_ite (fun _ => runs_ok _) fun _ => runs_ok _

theorem copyStep_runs (h : d.Inv) (hp : d.phase = .copy) : Runs d.copyStep := by
  obtain ⟨hlen, -, hdist, -, hback, hout⟩ := (decPhaseInv_copy hp).1 h.phaseInv
  exact succeeds_bind (copyByte_runs hdist hback (by omega)) fun _ _ => runs_ok _

/-- A turn of `DEC`: in FETCH the end of the job or a token whose control byte is in `IN`, else a byte step. -/
theorem turnOnDec_runs (h : d.Inv) : Runs (turnOnDec d) := by
  refine succeeds_ite (fun hp => ?_) fun hp => ?_
  · refine succeeds_ite (fun _ => runs_ok _) fun he => ?_
    have hi := ip_lt_of_not_atEnd h (by rw [hp]; rfl) he
    obtain ⟨d', hd, -⟩ := tokenOnDec_outcome (decodeToken (d.job.inByte .dec d.ip.toNat) d.followUp) hi
    exact succeeds_bind_eq (by rw [Dec.fetchToken, readIn_ok .dec hi]; rfl) (runs_of_eq hd)
  · unfold Dec.byteStep
    split
    case h_1 => exact runs_ok _
    case h_2 hf => exact absurd hf hp
    case h_3 hp => exact litStep_runs h hp
    case h_4 hp => exact extStep_runs h hp
    case h_5 hp => exact lowStep_runs h hp
    case h_6 hp => exact copyStep_runs h hp
    case h_7 => exact runs_ok _

end

/-! ### The steps of `ENC` -/

section
variable {e : Enc}

theorem emitToken_runs (bytes : List Byte) (go : Enc → Enc) (h : e.eop.toNat ≤ e.job.outCap.toNat) :
    Runs (e.emitToken bytes go) := by
  by_cases hroom : e.job.outCap.toNat - e.eop.toNat < bytes.length
  · exact runs_of_eq (emitToken_noRoom hroom)
  · exact runs_of_eq (emitToken_ok h (by omega))

theorem windowMatches_runs {r : Nat} (b0 b1 b2 : Byte) (h : r + 3 ≤ e.job.inLen.toNat) :
    Runs (e.windowMatches r b0 b1 b2) :=
  succeeds_bind_eq (encReadIn_ok (by omega)) <| succeeds_bind_eq (encReadIn_ok (by omega)) <|
    succeeds_bind_eq (encReadIn_ok (by omega)) <| runs_ok _

/-- A candidate in reach lies before the cursor, so its window is in `IN` when the cursor's is (R166). -/
theorem viable_runs (b0 b1 b2 : Byte) (h : e.i.toNat + 3 ≤ e.job.inLen.toNat) : Runs (e.viable b0 b1 b2) := by
  refine succeeds_ite (fun hreach => ?_) fun _ => runs_ok _
  simp only [Enc.candidateInReach, Bool.and_eq_true, decide_eq_true_eq] at hreach
  obtain ⟨⟨-, hback⟩, -⟩ := hreach
  exact succeeds_bind (windowMatches_runs b0 b1 b2 (by omega)) fun _ _ => runs_ok _

theorem probeStep_runs (P : EncParams) (h : EncRunning e) : Runs (e.probeStep P) := by
  refine succeeds_ite (fun _ => runs_ok _) fun hi => ?_
  have hlt := word_lt_of_ne h.cursor hi
  refine succeeds_ite (fun hwin => ?_) fun _ => succeeds_bind_eq (encReadIn_ok hlt) (runs_ok _)
  have hwin' : e.i.toNat + 3 ≤ e.job.inLen.toNat := by omega
  exact succeeds_bind_eq (encReadIn_ok hlt) <| succeeds_bind_eq (encReadIn_ok (by omega)) <|
    succeeds_bind_eq (encReadIn_ok (by omega)) <|
    succeeds_bind (viable_runs (e := e.probeTable _) _ _ _ hwin') fun _ _ => runs_ok _

/-- The candidate lies before the cursor, so it is read only where the cursor's byte is in `IN` (R167). -/
theorem extendStep_runs (h : e.Inv) (hp : e.phase = .extend) : Runs e.extendStep := by
  obtain ⟨⟨hback, -⟩, -⟩ := (encPhaseInv_extend hp).1 h.phaseInv
  exact succeeds_ite (fun hgo => succeeds_bind_eq (encReadIn_ok (by omega)) <|
    succeeds_bind_eq (encReadIn_ok hgo.2) <| runs_ok _) fun _ => runs_ok _

theorem flushStep_runs (h : EncRunning e) : Runs e.flushStep := by
  have hi := h.cursor
  exact succeeds_ite (fun _ => runs_ok _) fun _ =>
    succeeds_bind_eq (readSpan_ok (by omega)) (emitToken_runs _ _ h.eopBound)

theorem encStep_runs (P : EncParams) (h : e.Inv) : Runs (e.step P) := by
  unfold Enc.step
  split
  case h_1 => exact runs_ok _
  case h_2 hp => exact probeStep_runs P (encInv_running h (by rw [hp]; rfl))
  case h_3 hp => exact extendStep_runs h hp
  case h_4 hp => exact emitToken_runs _ _ (h.eopBound (by rw [hp]; rfl))
  case h_5 hp => exact flushStep_runs (encInv_running h (by rw [hp]; rfl))
  case h_6 => exact runs_ok _

end

/-! ### The moves -/

variable {s : State}

theorem turn_eq_next (u : Engine) (h : s.Inv) : ∃ t, s.turn u = .next t := by
  cases u with
  | dec =>
    obtain ⟨d, hd, -⟩ := turnOnDec_runs h.dec
    exact ⟨{ s with dec := d }, (decTurn_eq_ofDec s).trans (congrArg s.ofDec hd)⟩
  | enc =>
    obtain ⟨e, he, -⟩ := encStep_runs encParams h.enc
    exact ⟨{ s with enc := e }, congrArg s.ofEnc he⟩

theorem handsOff_ne_fault (busy : Bool) (t : State) (f : Fault) :
    (if busy then .refused .handsOff else .next t : Host.Outcome State Fault Refusal) ≠ .fault f := by
  cases busy <;> nofun

/-- A move of the host is made or refused, and accesses no byte for an engine. -/
theorem hostMove_ne_fault (m : Move) (f : Fault) : s.hostMove m ≠ .fault f := by
  cases m with
  | writeIn u a b => exact handsOff_ne_fault _ _ f
  | writeOut u a b => exact handsOff_ne_fault _ _ f
  | readOut u a => exact handsOff_ne_fault _ _ f
  | _ => nofun

theorem perform_ne_fault (m : Move) (h : s.Inv) (f : Fault) : s.perform m ≠ .fault f := by
  unfold State.perform
  split
  · next u =>
    obtain ⟨t, ht⟩ := turn_eq_next u h
    rw [ht]
    nofun
  · exact hostMove_ne_fault _ f

/-- The list of moves is no part of the invariant. -/
theorem nextMove_inv {s' : State} {m : Move} (h : s.Inv) (hm : s.nextMove = some (m, s')) : s'.Inv := by
  rw [nextMove_eq hm]
  exact ⟨h.dec, h.enc⟩

/-- Settles O47: from a state that meets the invariant every turn of an engine answers a next state (`turn_eq_next`), and a move of
the host never faults. -/
theorem noAccessOutsideTheRanges : Obligations.NoAccessOutsideTheRanges := by
  unfold Obligations.NoAccessOutsideTheRanges
  intro s f h
  rcases step_cases s with hstep | ⟨m, s', hm, hstep⟩
  · rw [hstep]
    nofun
  · rw [hstep]
    exact perform_ne_fault m (nextMove_inv h hm) f

end Sys2Proof.Proofs
end

section
/-! What the decoder reads from a control byte and the bytes after it, said once: the row, the control byte and the follow-up bytes of
the token it starts (spec/30_encoding.md R80 to R85, R90, R91). -/

namespace Sys2Proof.Proofs

open Sys2Proof.Machine Sys2Proof.Laws

/-! ### The control byte of an instruction -/

/-- The control byte of a well-formed instruction selects its row and tells the length of its encoding (R85, R90). -/
theorem controlByte_law (i : Instr) : ControlByte.Statement i := by
  cases i with
  | lit data => exact ControlByte.lit data
  | srefL3 dh r => exact ControlByte.srefL3 dh r
  | srefL4 dh r => exact ControlByte.srefL4 dh r
  | srefL5 dh r => exact ControlByte.srefL5 dh r
  | srefL6 dh r => exact ControlByte.srefL6 dh r
  | srefL7 dh r => exact ControlByte.srefL7 dh r
  | srefL8 dh r => exact ControlByte.srefL8 dh r
  | lref dh e r => exact ControlByte.lref dh e r

theorem rowOf_eq_control_div {i : Instr} (h : i.wellFormed = true) : rowOf i = i.control.toNat / 32 := by
  rw [← lcode_toNat, (controlByte_law i h).1]

theorem tokenLength_control {i : Instr} (h : i.wellFormed = true) : tokenLength i.control = i.followUp.length + 1 :=
  (controlByte_law i h).2.symm

/-! ### The token a control byte starts -/

variable (c : Byte) (f : Nat → Byte)

theorem tokenLength_fields :
    tokenLength c = if (lcode c).toNat = 0 then 2 + (low5 c).toNat else if (lcode c).toNat = 7 then 3 else 2 := by
  rw [← tokenLength_controlByte, controlByte_fields]

theorem controlByte_of_lcode {c : Byte} {lc : BitVec 3} (h : (lcode c).toNat = lc.toNat) : controlByte lc (low5 c) = c := by
  rw [← BitVec.eq_of_toNat_eq h, controlByte_fields]

theorem decodeToken_wellFormed : (decodeToken c f).wellFormed = true := by
  unfold decodeToken
  split
  case h_1 =>
    have := (low5 c).isLt
    rw [lit_wellFormed, List.length_map, List.length_range]
    omega
  all_goals rfl

/-- The encoding of the token read is the bytes it was read from: the control byte, and as many follow-up bytes as it tells. -/
theorem encode_decodeToken : encode (decodeToken c f) = c :: (List.range (tokenLength c - 1)).map f := by
  rw [tokenLength_fields]
  unfold decodeToken
  split
  case h_1 h =>
    rw [if_pos h, show 2 + (low5 c).toNat - 1 = (low5 c).toNat + 1 by omega]
    simpa [encode, Instr.control, Instr.followUp] using controlByte_of_lcode (lc := 0) h
  case h_8 h0 h1 h2 h3 h4 h5 h6 =>
    have h7 : (lcode c).toNat = 7 := by
      have := (lcode c).isLt
      simp only [imp_false] at h0 h1 h2 h3 h4 h5 h6
      omega
    rw [h7]
    exact congrArg (· :: [f 0, f 1]) (controlByte_of_lcode h7)
  all_goals
    next h =>
    rw [h]
    exact congrArg (· :: [f 0]) (controlByte_of_lcode h)

theorem decodeToken_control : (decodeToken c f).control = c :=
  (List.cons.inj (encode_decodeToken c f)).1

end Sys2Proof.Proofs
end

section
/-! The round trip of the wire format, in both directions (spec/30_encoding.md R80 to R85, R96, R97). -/

namespace Sys2Proof.Proofs

open Sys2Proof.Machine Sys2Proof.Laws

variable {c : Byte} {bytes s rest : List Byte} {i : Instr}

/-! ### What the decoder answers -/

theorem decode_whole (h : tokenLength c ≤ 1 + s.length) :
    decode (c :: s) = .ok (decodeToken c (fun k => s.getD k 0), s.drop (tokenLength c - 1)) := by
  rw [decode, if_pos h]

theorem decode_cut (h : 1 + s.length < tokenLength c) : ∃ err, decode (c :: s) = .error err := by
  rw [decode, if_neg (by omega)]
  split
  · exact ⟨_, rfl⟩
  · split <;> exact ⟨_, rfl⟩

theorem decode_eq_ok (h : decode bytes = .ok (i, rest)) : ∃ c s, bytes = c :: s ∧ tokenLength c ≤ 1 + s.length
    ∧ i = decodeToken c (fun k => s.getD k 0) ∧ rest = s.drop (tokenLength c - 1) := by
  cases bytes with
  | nil => cases h
  | cons c s =>
    by_cases hl : tokenLength c ≤ 1 + s.length
    · cases (decode_whole hl).symm.trans h
      exact ⟨c, s, rfl, hl, rfl, rfl⟩
    · obtain ⟨err, he⟩ := decode_cut (Nat.lt_of_not_le hl)
      cases he.symm.trans h

theorem decode_eq_error {err : DecodeError} (h : decode (c :: s) = .error err) : 1 + s.length < tokenLength c := by
  by_contra hl
  cases (decode_whole (Nat.le_of_not_lt hl)).symm.trans h

/-! ### Follow-up bytes read by position -/

/-- Reading the first bytes of a string by position is taking them. -/
theorem map_range_getD (n : Nat) (h : n ≤ s.length) : (List.range n).map (fun k => s.getD k 0) = s.take n := by
  refine List.ext_getElem (by simpa using h) fun k hk _ => ?_
  have : k < s.length := by simp at hk; omega
  simp [this]

theorem decodeToken_control_followUp (h : i.wellFormed = true) (rest : List Byte) :
    decodeToken i.control (fun k => (i.followUp ++ rest).getD k 0) = i := by
  cases i with
  | lit data =>
    rw [lit_wellFormed] at h
    have hn : (BitVec.ofNat 5 (data.length - 1)).toNat + 1 = data.length := by
      rw [BitVec.toNat_ofNat, Nat.mod_eq_of_lt (by omega)]
      omega
    have hdata : (List.range data.length).map (fun k => (data ++ rest).getD k 0) = data := by
      rw [map_range_getD _ (by simp), List.take_left]
    simp only [decodeToken, Instr.control, lcode_controlByte, low5_controlByte, hn, Instr.followUp, hdata]
    rfl
  | lref dh e r => simp [decodeToken, Instr.control, Instr.followUp]
  | _ dh r => simp [decodeToken, Instr.control, Instr.followUp]

theorem decode_encode (h : i.wellFormed = true) (rest : List Byte) : decode (encode i ++ rest) = .ok (i, rest) := by
  have hl := tokenLength_control h
  rw [encode, List.cons_append, decode_whole (by rw [hl, List.length_append]; omega), decodeToken_control_followUp h, hl,
    Nat.add_sub_cancel, List.drop_left]

theorem encode_of_decode (h : decode bytes = .ok (i, rest)) : i.wellFormed = true ∧ bytes = encode i ++ rest := by
  obtain ⟨c, s, rfl, hl, rfl, rfl⟩ := decode_eq_ok h
  refine ⟨decodeToken_wellFormed _ _, ?_⟩
  rw [encode_decodeToken, map_range_getD _ (by omega), List.cons_append, List.take_append_drop]

/-- Settles O2: the control byte of the encoding tells its length, and the follow-up bytes are read back by position. -/
theorem decodeOfEncodeIsTheInstruction : Obligations.DecodeOfEncodeIsTheInstruction := by
  unfold Obligations.DecodeOfEncodeIsTheInstruction
  exact fun i rest h => decode_encode h rest

/-- Settles O3: the decoded token has the control byte and the follow-up bytes it was read from (`encode_decodeToken`). -/
theorem encodeOfDecodeIsTheBytes : Obligations.EncodeOfDecodeIsTheBytes := by
  unfold Obligations.EncodeOfDecodeIsTheBytes
  exact fun bytes rest i h => encode_of_decode h

/-- Settles O4: the token read is well formed and has the given control byte, which tells its row and its length. -/
theorem everyControlByteStartsAToken : Obligations.EveryControlByteStartsAToken := by
  unfold Obligations.EveryControlByteStartsAToken
  intro c rest h
  have hwf := decodeToken_wellFormed c (fun k => rest.getD k 0)
  have hc := decodeToken_control c (fun k => rest.getD k 0)
  refine ⟨_, decode_whole h, hwf, hc, ?_, ?_⟩
  · rw [rowOf_eq_control_div hwf, hc]
  · rw [(controlByte_law _ hwf).2, hc]

/-- Settles O1: each byte string is the encoding of its token, so it decodes to it (`decode_encode`). -/
theorem tableWordsDecodeToTheirTokens : Obligations.TableWordsDecodeToTheirTokens := by
  unfold Obligations.TableWordsDecodeToTheirTokens
  exact ⟨decode_encode (i := .lit [0x61, 0x62, 0x63]) rfl [], decode_encode (i := .srefL3 31 255) rfl [],
    decode_encode (i := .srefL4 0 0) rfl [], decode_encode (i := .srefL5 0 1) rfl [],
    decode_encode (i := .srefL6 0 2) rfl [0x99], decode_encode (i := .srefL7 1 0) rfl [],
    decode_encode (i := .srefL8 0 7) rfl [], decode_encode (i := .lref 1 255 7) rfl []⟩

end Sys2Proof.Proofs
end

section
/-! The tokens of `parse` (spec/30_encoding.md R94) and the bytes of `encode_ref` and `encode_lit` (R97). -/

namespace Sys2Proof.Proofs

open Sys2Proof.Machine Sys2Proof.Laws

variable {c : Byte} {s rest : List Byte} {i : Instr}

/-! ### One token of `parse`, by the form of its control byte -/

theorem controlByte_shiftRight (lc : BitVec 3) (lo : BitVec 5) : (controlByte lc lo).toNat >>> 5 = lc.toNat := by
  have := lo.isLt
  rw [controlByte_toNat, Nat.shiftRight_eq_div_pow]
  omega

/-- The distance formula of R94 is that of R88. -/
theorem refDistance_controlByte (lc : BitVec 3) (dh : BitVec 5) (r : Byte) :
    refDistance (controlByte lc dh) r = refDist dh r := by
  have hlow : (controlByte lc dh).toNat &&& 0x1F = dh.toNat := by
    have := dh.isLt
    rw [controlByte_toNat, Nat.and_two_pow_sub_one_eq_mod _ 5]
    omega
  rw [refDistance, hlow, ← Nat.shiftLeft_add_eq_or_of_lt r.isLt, Nat.shiftLeft_eq, refDist]

theorem parseOne_lit {b : List Byte} (hc : c.toNat < 32) (hb : b.length = c.toNat + 1) (rest : List Byte) :
    parseOne (c :: (b ++ rest)) = some (.lit b, rest) := by
  have hlen : ¬ (b ++ rest).length < c.toNat + 1 := by rw [List.length_append]; omega
  simp only [parseOne, if_pos hc, if_neg hlen]
  rw [← hb, List.take_left, List.drop_left]

theorem parseOne_short {lc : BitVec 3} (h1 : lc ≠ 0) (h7 : lc ≠ 7) (dh : BitVec 5) (r : Byte) (rest : List Byte) :
    parseOne (controlByte lc dh :: r :: rest) = some (.ref (refDist dh r) (lc.toNat + 2), rest) := by
  have hlc : 0 < lc.toNat ∧ lc.toNat < 7 := by bv_omega
  have h32 : ¬ (controlByte lc dh).toNat < 32 := by rw [controlByte_toNat]; omega
  simp only [parseOne, controlByte_shiftRight, if_neg h32, if_pos hlc.2, refDistance_controlByte]

theorem parseOne_long (dh : BitVec 5) (e r : Byte) (rest : List Byte) :
    parseOne (controlByte 7 dh :: e :: r :: rest) = some (.ref (refDist dh r) (e.toNat + 9), rest) := by
  have h32 : ¬ (controlByte 7 dh).toNat < 32 := by rw [controlByte_toNat, show (7 : BitVec 3).toNat = 7 from rfl]; omega
  have h7 : ¬ (7 : BitVec 3).toNat < 7 := by decide
  simp only [parseOne, controlByte_shiftRight, if_neg h32, if_neg h7, refDistance_controlByte]

/-- The control byte of a literal token is its count minus 1 (R97). -/
theorem lit_control_toNat {data : List Byte} (h : (Instr.lit data).wellFormed = true) :
    (Instr.lit data).control.toNat = data.length - 1 := by
  rw [lit_wellFormed] at h
  rw [Instr.control, controlByte_toNat, BitVec.toNat_ofNat, Nat.mod_eq_of_lt (by omega)]
  simp

/-- `parse` reads an encoded instruction as its abstract token. -/
theorem parseOne_encode (h : i.wellFormed = true) (rest : List Byte) :
    parseOne (encode i ++ rest) = some (tokenOf i, rest) := by
  cases i with
  | lit data =>
    have hc := lit_control_toNat h
    rw [lit_wellFormed] at h
    exact parseOne_lit (b := data) (by omega) (by omega) rest
  | lref dh e r => exact parseOne_long dh e r rest
  | _ dh r => exact parseOne_short (by decide) (by decide) dh r rest

/-- `parse` is truncated where the token's follow-up bytes are not all there. -/
theorem parseOne_cut (h : 1 + s.length < tokenLength c) : parseOne (c :: s) = none := by
  unfold tokenLength at h
  split at h
  · next hlit =>
    have := low5_toNat c
    simp only [parseOne, if_pos hlit]
    rw [if_pos (by omega)]
  · next hlit =>
    simp only [parseOne, if_neg hlit, Nat.shiftRight_eq_div_pow]
    split at h
    · have hs : s = [] := List.length_eq_zero_iff.mp (by omega)
      rw [if_pos (by omega), hs]
    · rw [if_neg (by omega)]
      match s, h with
      | [], _ => rfl
      | [_], _ => rfl
      | _ :: _ :: _, h => simp at h; omega

/-- Settles O7: what decodes is an encoded instruction, which `parse` reads (`parseOne_encode`); what does not is cut short for
`parse` too (`parseOne_cut`). -/
theorem decoderAgreesWithParse : Obligations.DecoderAgreesWithParse := by
  unfold Obligations.DecoderAgreesWithParse
  intro s
  split
  · next i rest h =>
    obtain ⟨hwf, rfl⟩ := encode_of_decode h
    exact parseOne_encode hwf rest
  · next err h =>
    cases s with
    | nil => rfl
    | cons c s => exact parseOne_cut (decode_eq_error h)

/-! ### The bytes of `encode_ref` and `encode_lit` -/

/-- Bits 12:8 of `d - 1`: the high part of the distance (R97). -/
def refHigh (d : Nat) : BitVec 5 := (BitVec.ofNat 13 (d - 1)).extractLsb' 8 5

/-- Bits 7:0 of `d - 1`: the low part of the distance (R97). -/
def refLow (d : Nat) : Byte := (BitVec.ofNat 13 (d - 1)).extractLsb' 0 8

theorem refInstr_long (d : Nat) {l : Nat} (h : 9 ≤ l) :
    refInstr d l = .lref (refHigh d) (BitVec.ofNat 8 (l - 9)) (refLow d) := by
  obtain ⟨n, rfl⟩ := Nat.exists_eq_add_of_le' h
  rfl

/-- The six short rows of `refInstr`, by length. -/
theorem refInstr_short (d : Nat) {l : Nat} (h3 : 3 ≤ l) (h8 : l ≤ 8) :
    (refInstr d l, l) ∈ srefRows (refHigh d) (refLow d) := by
  interval_cases l <;> simp [srefRows, refInstr, refHigh, refLow]

variable {d l : Nat}

theorem refHigh_toNat (h : d ≤ 8192) : (refHigh d).toNat = (d - 1) / 256 := by
  rw [refHigh, BitVec.extractLsb'_toNat, BitVec.toNat_ofNat, Nat.shiftRight_eq_div_pow]
  omega

theorem refLow_toNat (d : Nat) : (refLow d).toNat = (d - 1) % 256 := by
  rw [refLow, BitVec.extractLsb'_toNat, BitVec.toNat_ofNat, Nat.shiftRight_zero]
  omega

/-- The two parts of the distance are its number again (R88). -/
theorem refDist_parts (h1 : 1 ≤ d) (h : d ≤ 8192) : refDist (refHigh d) (refLow d) = d := by
  rw [refDist, refHigh_toNat h, refLow_toNat]
  omega

/-- The control byte of R97's formula: `lcode` above the high part of the distance. -/
theorem controlByte_refHigh (h : d ≤ 8192) (lc : BitVec 3) :
    controlByte lc (refHigh d) = BitVec.ofNat 8 (lc.toNat <<< 5 ||| (d - 1) >>> 8) := by
  have hlc := lc.isLt
  rw [Nat.shiftRight_eq_div_pow, ← Nat.shiftLeft_add_eq_or_of_lt (i := 5) (by omega), Nat.shiftLeft_eq]
  apply BitVec.eq_of_toNat_eq
  rw [controlByte_toNat, refHigh_toNat h, BitVec.toNat_ofNat]
  omega

theorem refLow_eq (d : Nat) : refLow d = BitVec.ofNat 8 ((d - 1) &&& 0xFF) := by
  apply BitVec.eq_of_toNat_eq
  rw [refLow_toNat, BitVec.toNat_ofNat, Nat.and_two_pow_sub_one_eq_mod _ 8]
  omega

/-- What a short row is, said once for the six: its `lcode` is its length minus 2 (R83, R87, R90). -/
theorem srefRows_spec {dh : BitVec 5} {r : Byte} (h : (i, l) ∈ srefRows dh r) : i.wellFormed = true
    ∧ tokenOf i = .ref (refDist dh r) l ∧ ∃ lc : BitVec 3, lc.toNat = l - 2 ∧ encode i = [controlByte lc dh, r] := by
  simp only [srefRows, List.mem_cons, List.not_mem_nil, or_false, Prod.mk.injEq] at h
  rcases h with ⟨rfl, rfl⟩ | ⟨rfl, rfl⟩ | ⟨rfl, rfl⟩ | ⟨rfl, rfl⟩ | ⟨rfl, rfl⟩ | ⟨rfl, rfl⟩
  · exact ⟨rfl, rfl, 1, rfl, rfl⟩
  · exact ⟨rfl, rfl, 2, rfl, rfl⟩
  · exact ⟨rfl, rfl, 3, rfl, rfl⟩
  · exact ⟨rfl, rfl, 4, rfl, rfl⟩
  · exact ⟨rfl, rfl, 5, rfl, rfl⟩
  · exact ⟨rfl, rfl, 6, rfl, rfl⟩

/-- The reference token of a distance and a length in range: a well-formed instruction that stands for them, with the bytes of R97. -/
theorem refInstr_spec (hd1 : 1 ≤ d) (hd : d ≤ 8192) (hl3 : 3 ≤ l) (hl : l ≤ 264) :
    (refInstr d l).wellFormed = true ∧ tokenOf (refInstr d l) = .ref d l ∧ encode (refInstr d l) = encodeRef d l := by
  by_cases h8 : l ≤ 8
  · obtain ⟨hwf, htok, lc, hlc, henc⟩ := srefRows_spec (refInstr_short d hl3 h8)
    refine ⟨hwf, by rw [htok, refDist_parts hd1 hd], ?_⟩
    rw [henc, controlByte_refHigh hd, hlc, refLow_eq, encodeRef, if_pos h8]
  · rw [refInstr_long d (by omega)]
    refine ⟨rfl, ?_, ?_⟩
    · have he : (BitVec.ofNat 8 (l - 9)).toNat + 9 = l := by
        rw [BitVec.toNat_ofNat]
        omega
      rw [tokenOf, refDist_parts hd1 hd, he]
    · rw [encode, Instr.control, Instr.followUp, controlByte_refHigh hd, refLow_eq, encodeRef, if_neg h8]
      rfl

/-- Settles O6: the token of a distance and a length is `refInstr_spec`, and `parse` reads what was encoded (`parseOne_encode`); the
control byte of a literal is `lit_control_toNat`. -/
theorem referenceEncodingIsInverse : Obligations.ReferenceEncodingIsInverse := by
  unfold Obligations.ReferenceEncodingIsInverse
  refine ⟨fun d l rest hd1 hd hl3 hl => ?_, fun b h1 h32 => ?_⟩
  · obtain ⟨hwf, htok, henc⟩ := refInstr_spec hd1 hd hl3 hl
    exact ⟨henc, htok, by rw [← henc, parseOne_encode hwf, htok]⟩
  · have hc := lit_control_toNat ((lit_wellFormed b).mpr ⟨h1, h32⟩)
    rw [encode, ← hc, BitVec.ofNat_toNat, BitVec.setWidth_eq]
    rfl

/-! ### The immediates as numbers (R86 to R89) -/

/-- Settles O5: each immediate is the number of its formula, below the capacity of its register. -/
theorem immediatesAreTheirFormulas : Obligations.ImmediatesAreTheirFormulas := by
  unfold Obligations.ImmediatesAreTheirFormulas
  refine ⟨fun c => ?_, shortLength_toNat, longLength_toNat,
    fun dh r => ⟨distance_toNat dh r, distance_pos dh r, distance_le dh r⟩⟩
  rw [literalCount, ← low5_toNat]
  bv_omega

end Sys2Proof.Proofs
end

section
/-! `LITS`, a span of bytes as literal tokens (spec/30_encoding.md R98): the properties of the tokens, by the groups of 32. -/

namespace Sys2Proof.Proofs

open Sys2Proof.Machine Sys2Proof.Laws

variable {n : Nat} {bytes : List Byte}

theorem literalRunAux_nil (n : Nat) : literalRunAux n [] = [] := by cases n <;> rfl

theorem literalRunAux_tokens : ∀ i ∈ literalRunAux n bytes, i.wellFormed = true ∧ ∃ data : List Byte, i = .lit data := by
  induction n, bytes using literalRunAux.induct with
  | case1 bytes => simp [literalRunAux]
  | case2 n => simp [literalRunAux]
  | case3 n b bs ih =>
    have hgroup : (Instr.lit ((b :: bs).take Config.maxLit)).wellFormed = true := by
      rw [lit_wellFormed, List.length_take, List.length_cons, Config.maxLit]
      omega
    rw [literalRunAux, List.forall_mem_cons]
    exact ⟨⟨hgroup, _, rfl⟩, ih⟩

theorem literalRunAux_followUp (h : bytes.length ≤ n) : (literalRunAux n bytes).flatMap Instr.followUp = bytes := by
  induction n, bytes using literalRunAux.induct with
  | case1 bytes => simpa [literalRunAux] using h
  | case2 n => rfl
  | case3 n b bs ih =>
    rw [literalRunAux, List.flatMap_cons, ih (by simp [Config.maxLit] at h ⊢; omega), Instr.followUp, List.take_append_drop]

/-- A group before the last is full: what follows it begins with the byte after it. -/
theorem literalRunAux_full : ∀ i ∈ (literalRunAux n bytes).dropLast, i.followUp.length = 32 := by
  induction n, bytes using literalRunAux.induct with
  | case1 bytes => simp [literalRunAux]
  | case2 n => simp [literalRunAux]
  | case3 n b bs ih =>
    rw [literalRunAux]
    by_cases hlast : literalRunAux n ((b :: bs).drop Config.maxLit) = []
    · rw [hlast]
      simp
    · have hmore : Config.maxLit < (b :: bs).length := by
        by_contra hshort
        exact hlast (by rw [List.drop_eq_nil_of_le (Nat.le_of_not_lt hshort), literalRunAux_nil])
      rw [List.dropLast_cons_of_ne_nil hlast, List.forall_mem_cons]
      refine ⟨?_, ih⟩
      rw [Instr.followUp, List.length_take_of_le hmore.le, Config.maxLit]

theorem literalRunAux_length (h : bytes.length ≤ n) : (literalRunAux n bytes).length = (bytes.length + 31) / 32 := by
  induction n, bytes using literalRunAux.induct with
  | case1 bytes =>
    obtain rfl := List.length_eq_zero_iff.mp (Nat.le_zero.mp h)
    rfl
  | case2 n => rfl
  | case3 n b bs ih =>
    rw [List.length_cons] at h
    rw [literalRunAux, List.length_cons, ih (by simp [Config.maxLit]; omega), List.length_drop, List.length_cons, Config.maxLit]
    omega

/-- Settles O8: the four clauses by induction over the groups; as many groups are allowed as the span has bytes, and each takes one at
least. -/
theorem literalRunCarriesTheSpan : Obligations.LiteralRunCarriesTheSpan := by
  unfold Obligations.LiteralRunCarriesTheSpan
  exact fun bytes => ⟨literalRunAux_tokens, literalRunAux_followUp le_rfl, literalRunAux_full, literalRunAux_length le_rfl⟩

end Sys2Proof.Proofs
end

section
/-! The step of `DEC` in FETCH and the decoder (spec/40_decoder_control.md R111, R112): the fetched token is the one the rest of the
stream decodes to, and a token that is cut short raises `DataCorruption` (spec/30_encoding.md R92, spec/60_exceptions.md R201). -/

namespace Sys2Proof.Proofs

open Sys2Proof.Machine Sys2Proof.Laws

variable {d : Dec}

/-! ### The bytes of `IN` from `ip` on -/

/-- The bytes of `IN` after the control byte at `ip`. -/
def afterControl (d : Dec) : List Byte := (List.range (d.job.inLen.toNat - d.ip.toNat - 1)).map d.followUp

theorem afterControl_length (d : Dec) : (afterControl d).length = d.job.inLen.toNat - d.ip.toNat - 1 := by
  rw [afterControl, List.length_map, List.length_range]

theorem remaining_eq_cons (h : d.ip.toNat < d.job.inLen.toNat) :
    d.remaining = d.job.inByte .dec d.ip.toNat :: afterControl d := by
  obtain ⟨n, hn⟩ : ∃ n, d.job.inLen.toNat - d.ip.toNat = n + 1 := ⟨_, (Nat.succ_pred_eq_of_pos (by omega)).symm⟩
  rw [Dec.remaining, afterControl, hn, List.range_succ_eq_map, List.map_cons, List.map_map]
  refine congrArg _ (List.map_congr_left fun k hk => ?_)
  have hin : d.ip.toNat + 1 + k < d.job.inLen.toNat := by
    have := List.mem_range.mp hk
    omega
  rw [Dec.followUp, if_pos hin, Function.comp_apply, Nat.succ_eq_add_one, Nat.add_right_comm, Nat.add_assoc]

/-- Where the stream has ended the fetch hands on 0, as the decoder does (log 16). -/
theorem afterControl_getD (d : Dec) (k : Nat) : (afterControl d).getD k 0 = d.followUp k := by
  by_cases hk : k < (afterControl d).length
  · rw [List.getD_eq_getElem _ _ hk]
    simp [afterControl]
  · rw [List.getD_eq_default _ _ (Nat.le_of_not_lt hk), Dec.followUp, if_neg]
    rw [afterControl_length] at hk
    omega

/-! ### The fetched token -/

/-- The token at `ip`, as the fetch reads it. -/
def tokenAt (d : Dec) : Instr := decodeToken (d.job.inByte .dec d.ip.toNat) d.followUp

theorem decode_remaining_eq_ok {i : Instr} {rest : List Byte} (hip : d.ip.toNat < d.job.inLen.toNat)
    (h : decode d.remaining = .ok (i, rest)) : i = tokenAt d := by
  rw [remaining_eq_cons hip] at h
  obtain ⟨c, s, hcs, -, rfl, -⟩ := decode_eq_ok h
  cases hcs
  rw [tokenAt, funext (afterControl_getD d)]

theorem decode_remaining_eq_error {err : DecodeError} (hip : d.ip.toNat < d.job.inLen.toNat)
    (h : decode d.remaining = .error err) : d.job.inLen.toNat < d.ip.toNat + 1 + (tokenAt d).followUp.length := by
  rw [remaining_eq_cons hip] at h
  have hcut := decode_eq_error h
  have htoken := tokenLength_control (decodeToken_wellFormed (d.job.inByte .dec d.ip.toNat) d.followUp)
  rw [decodeToken_control] at htoken
  rw [afterControl_length] at hcut
  rw [tokenAt]
  omega

theorem step_fetch {s s' : State} (hm : s.nextMove = some (.run .dec, s')) (hp : s'.dec.phase = .fetch)
    (hip : s'.dec.ip.toNat < s'.dec.job.inLen.toNat) : step s = exec (tokenAt s'.dec) s' := by
  rw [step_dec hm]
  rcases decTurn_cases s' with ⟨hb, -⟩ | ⟨-, he, -⟩ | ⟨-, -, -, h⟩ | ⟨-, hl, -⟩ | ⟨-, hn, -⟩
  · rw [hp] at hb
    cases hb
  · rw [he] at hip
    omega
  · exact h
  · omega
  · exact absurd hp hn

/-! ### A token that is cut short -/

theorem shortToken_cut (lc : BitVec 3) (dh : BitVec 5) (r : Byte) (hip : d.ip.toNat < d.job.inLen.toNat)
    (h : d.job.inLen.toNat < d.ip.toNat + 2) : ∃ d₀ : Dec, d.shortToken lc dh r = .ok (d₀.raise .dataCorruption) := by
  rw [shortToken_eq hip, if_pos (by omega)]
  exact ⟨_, rfl⟩

theorem longToken_cut (dh : BitVec 5) (e r : Byte) (hip : d.ip.toNat < d.job.inLen.toNat)
    (h : d.job.inLen.toNat < d.ip.toNat + 3) : ∃ d₀ : Dec, d.longToken dh e r = .ok (d₀.raise .dataCorruption) := by
  rw [longToken_eq hip]
  by_cases he : d.ip.toNat + 1 = d.job.inLen.toNat
  · rw [if_pos he]
    exact ⟨_, rfl⟩
  · rw [if_neg he, if_pos (by omega)]
    exact ⟨_, rfl⟩

/-- A token whose follow-up bytes are not all in `IN` raises `DataCorruption` (R92 (a), R201), whatever room there is (R205). -/
theorem tokenOnDec_cut (i : Instr) (hip : d.ip.toNat < d.job.inLen.toNat)
    (h : d.job.inLen.toNat < d.ip.toNat + 1 + i.followUp.length) :
    ∃ d₀ : Dec, tokenOnDec i d = .ok (d₀.raise .dataCorruption) := by
  cases i with
  | lit data => exact ⟨_, literalToken_cut hip h⟩
  | lref dh e r => exact longToken_cut dh e r hip h
  | _ dh r => exact shortToken_cut _ dh r hip h

/-- Settles O20: the fetch reads by position what the decoder reads from the rest of the stream. -/
theorem stepRunsTheDecodedToken : Obligations.StepRunsTheDecodedToken := by
  unfold Obligations.StepRunsTheDecodedToken
  intro s s' i rest hm hp hip h
  rw [step_fetch hm hp hip, decode_remaining_eq_ok hip h]

/-- Settles O21: the decoder fails where the fetched token does not end in `IN` (`decode_remaining_eq_error`), and such a token raises
(`tokenOnDec_cut`). -/
theorem truncatedStreamIsDataCorruption : Obligations.TruncatedStreamIsDataCorruption := by
  unfold Obligations.TruncatedStreamIsDataCorruption
  intro s s' err hm hp hip h
  obtain ⟨d₀, hraise⟩ := tokenOnDec_cut (tokenAt s'.dec) hip (decode_remaining_eq_error hip h)
  refine ⟨{ s' with dec := d₀.raise .dataCorruption }, ?_, rfl, rfl, rfl, rfl, rfl⟩
  rw [step_fetch hm hp hip, exec_eq_ofDec, hraise, State_ofDec_ok]

end Sys2Proof.Proofs
end

section
/-! The steps of `DEC` and `ENC` at the two ends of a job, and the FETCH step byte by byte (spec/40_decoder_control.md R111, R112,
R114, R116, R123, spec/45_compressor.md R171, R173). -/

namespace Sys2Proof.Proofs

open Sys2Proof.Machine Sys2Proof.Laws

variable {d : Dec} {c : Byte}

/-- The byte of `IN` at `ip`. -/
abbrev ipByte (d : Dec) : Byte := d.job.inByte .dec d.ip.toNat

theorem atEnd_of_lt (h : d.ip.toNat < d.job.inLen.toNat) : d.atEnd = false :=
  decide_eq_false fun he => by rw [he] at h; omega

theorem atEnd_of_eq (h : d.ip = d.job.inLen) : d.atEnd = true := decide_eq_true h

/-! ### A byte step, by phase -/

theorem byteStep_fetch (hp : d.phase = .fetch) : d.byteStep = d.fetchStep := by rw [Dec.byteStep, hp]

theorem byteStep_lit (hp : d.phase = .lit) : d.byteStep = d.litStep := by rw [Dec.byteStep, hp]

theorem byteStep_ext (hp : d.phase = .ext) : d.byteStep = d.extStep := by rw [Dec.byteStep, hp]

theorem byteStep_low (hp : d.phase = .low) : d.byteStep = d.lowStep := by rw [Dec.byteStep, hp]

theorem byteStep_copy (hp : d.phase = .copy) : d.byteStep = d.copyStep := by rw [Dec.byteStep, hp]

/-- Outside a job `DEC` has no step (R123). -/
theorem byteStep_not_busy (hb : d.phase.busy = false) : d.byteStep = .ok d := by
  rw [Dec.byteStep]
  cases hp : d.phase
  case idle | done => rfl
  all_goals simp [hp, DecPhase.busy] at hb

/-! ### The FETCH step (R111, R112) -/

theorem fetchStep_end (h : d.ip = d.job.inLen) : d.fetchStep = .ok d.finish := if_pos (atEnd_of_eq h)

theorem fetchStep_ok (h : d.ip.toNat < d.job.inLen.toNat) :
    d.fetchStep = .ok (Dec.dispatch (ipByte d) { d with ip := d.ip + 1, ctrl := ipByte d }) := by
  simp [Dec.fetchStep, atEnd_of_lt h, readIn_ok .dec h, takeControl_ok _ h]

theorem byteStep_dispatch (hp : d.phase = .fetch) (hip : d.ip.toNat < d.job.inLen.toNat) :
    d.byteStep = .ok (Dec.dispatch (ipByte d) { d with ip := d.ip + 1, ctrl := ipByte d }) :=
  (byteStep_fetch hp).trans (fetchStep_ok hip)

theorem literalCount_toNat (hc : c.toNat < 32) : (literalCount c).toNat = c.toNat + 1 := by
  have := low5_toNat c
  rw [literalCount]
  bv_omega

theorem literalCount_eq (hc : c.toNat < 32) : literalCount c = BitVec.ofNat 9 (c.toNat + 1) := by
  rw [← literalCount_toNat hc, BitVec.ofNat_toNat, BitVec.setWidth_eq]

theorem shortLength_lcode (c : Byte) : shortLength (lcode c) = BitVec.ofNat 9 (c.toNat / 32 + 2) := by
  rw [← lcode_toNat, ← shortLength_toNat, BitVec.ofNat_toNat, BitVec.setWidth_eq]

/-- `DC1` (R112). -/
theorem dispatch_cut (hc : c.toNat < 32) (h : d.job.inLen.toNat - d.ip.toNat < c.toNat + 1) :
    d.dispatch c = d.raise .dataCorruption := by
  rw [Dec.dispatch, if_pos hc, literalCount_toNat hc, if_pos h]

/-- `IB1` (R112). -/
theorem dispatch_noRoom (hc : c.toNat < 32) (hi : c.toNat + 1 ≤ d.job.inLen.toNat - d.ip.toNat)
    (ho : d.job.outCap.toNat - d.op.toNat < c.toNat + 1) : d.dispatch c = d.raise .insufficientBuffer := by
  rw [Dec.dispatch, if_pos hc, literalCount_toNat hc, if_neg (by omega), if_pos ho]

theorem dispatch_lit (hc : c.toNat < 32) (hi : c.toNat + 1 ≤ d.job.inLen.toNat - d.ip.toNat)
    (ho : c.toNat + 1 ≤ d.job.outCap.toNat - d.op.toNat) :
    d.dispatch c = { d with len := BitVec.ofNat 9 (c.toNat + 1), phase := .lit } := by
  rw [Dec.dispatch, if_pos hc, literalCount_toNat hc, if_neg (by omega), if_neg (by omega), literalCount_eq hc]

theorem dispatch_long (hc : 224 ≤ c.toNat) : d.dispatch c = { d with phase := .ext } := by
  have h7 : lcode c = 7 := by have := lcode_toNat c; bv_omega
  rw [Dec.dispatch, if_neg (by omega), if_pos h7]

theorem dispatch_short (h1 : 32 ≤ c.toNat) (h2 : c.toNat < 224) :
    d.dispatch c = { d with len := shortLength (lcode c), phase := .low } := by
  have h7 : lcode c ≠ 7 := by have := lcode_toNat c; bv_omega
  rw [Dec.dispatch, if_neg (by omega), if_neg h7]

/-- Settles O28: the FETCH step takes the control byte (`fetchStep_ok`) and dispatches on it, one lemma per kind of control byte. -/
theorem fetchPhaseDispatches : Obligations.FetchPhaseDispatches := by
  unfold Obligations.FetchPhaseDispatches
  intro d hp hip c d'
  have hstep : d.byteStep = .ok (d'.dispatch c) := byteStep_dispatch hp hip
  have hip' : d'.ip.toNat = d.ip.toNat + 1 := word_succ_toNat hip
  rw [hstep, ← hip']
  refine ⟨fun hc hi => ?_, fun hc hi ho => ?_, fun hc hi ho => ?_, fun hc => ?_, fun h1 h2 => ?_⟩
  · rw [dispatch_cut hc hi]
  · rw [dispatch_noRoom (d := d') hc hi ho]
  · rw [dispatch_lit (d := d') hc hi ho]
  · rw [dispatch_long hc]
  · rw [dispatch_short h1 h2, shortLength_lcode]

/-! ### The ends of a job -/

/-- Settles O22: at the end of the stream the turn of `DEC` is `Dec.finish`, and a job that ends well forgets of `OUT` what lies
between the count and `out_cap` (`succeed_read?`). -/
theorem endOfStreamEndsTheJob : Obligations.EndOfStreamEndsTheJob := by
  unfold Obligations.EndOfStreamEndsTheJob
  intro s s' hm hp hend
  refine ⟨(s'.dec.job.succeed s'.dec.op).out, (s'.dec.job.succeed s'.dec.op).forgotten, ?_, fun a ha => ⟨?_, ?_⟩⟩
  · rw [step_dec hm, decTurn_eq_ofDec, turnOnDec, if_pos hp, if_pos (atEnd_of_eq hend)]
    rfl
  · rw [succeed_read?, if_neg (by omega)]
  · exact (succeed_outByte s'.dec.job a .dec s'.dec.op).trans (if_neg (by omega))

/-- Settles O24: no move is listed and no engine is running, so there is no next move. -/
theorem idleBlockKeepsItsState : Obligations.IdleBlockKeepsItsState := by
  unfold Obligations.IdleBlockKeepsItsState
  intro s hmoves hdec henc
  exact step_of_none (by simp [State.nextMove, hmoves, hdec, henc])

/-- A finished engine that reports an empty input and no error reads DONE and EMPTY (R22). -/
theorem status_empty {j : Job} (herr : j.err = .ok) (hempty : j.empty = true) : j.status false true = 0x12 := by
  rw [status_finished, herr, hempty]
  rfl

theorem word_eq_zero {x : Word} (h : x.toNat = 0) : x = 0 := BitVec.eq_of_toNat_eq h

/-- The probe finds the input exhausted, and the flush finds the run empty (R171). -/
theorem encSteps_empty (P : EncParams) {e : Enc} (hp : e.phase = .probe) (hi : e.i = e.job.inLen) (hls : e.ls = e.i) :
    Enc.steps P 2 e = .ok (Enc.finish { e with phase := .flush }) := by
  have hprobe : e.step P = .ok { e with phase := .flush } := by rw [Enc.step, hp]; exact if_pos hi
  have hflush : Enc.step P { e with phase := .flush } = .ok (Enc.finish { e with phase := .flush }) := by
    simp [Enc.step, Enc.flushStep, hls, hi]
  simp only [Enc.steps, hprobe, hflush, except_ok_bind]

/-- Settles O60: on an empty input both engines stand at its end when launched. -/
theorem emptyInputSucceeds : Obligations.EmptyInputSucceeds := by
  unfold Obligations.EmptyInputSucceeds
  refine ⟨fun P e h => ?_, fun d h => ?_⟩
  · obtain ⟨hp, hi, hls, heop, -, hlen, -⟩ := h
    have hin : e.job.inLen = 0 := word_eq_zero hlen
    exact ⟨_, encSteps_empty P hp (hi.trans hin.symm) (hls.trans hi.symm), status_empty rfl (decide_eq_true hin), heop⟩
  · obtain ⟨hp, hip, hop, hlen, -⟩ := h
    have hin : d.job.inLen = 0 := word_eq_zero hlen
    have hstep : d.byteStep = .ok d.finish := (byteStep_fetch hp).trans (fetchStep_end (hip.trans hin.symm))
    exact ⟨d.finish, by simp only [Dec.byteSteps, hstep, except_ok_bind], status_empty rfl (decide_eq_true hin), hop⟩

end Sys2Proof.Proofs
end

section
/-! A token is its byte steps (spec/40_decoder_control.md R113, R118): the loops of the tokens are the steps of the copy phases, and
the tests of a token are those of FETCH, EXT and LOW, in the same order. -/

namespace Sys2Proof.Proofs

open Sys2Proof.Machine Sys2Proof.Laws

variable {d e d' : Dec} {n : Nat}

theorem byteSteps_succ (h : d.byteStep = .ok d') (n : Nat) : Dec.byteSteps (n + 1) d = Dec.byteSteps n d' := by
  rw [Dec.byteSteps, h, except_ok_bind]

/-! ### The copy phases (R131, R143) -/

theorem byteStep_literalByte (hp : d.phase = .lit) (hin : d.ip.toNat < d.job.inLen.toNat)
    (h : d.literalByte (ipByte d) = .ok d') : d.byteStep = .ok { d' with phase := d.afterCopy .lit } := by
  rw [byteStep_lit hp, Dec.litStep, readIn_ok .dec hin, except_ok_bind, h, except_ok_bind]

theorem byteStep_copyByte (hp : d.phase = .copy) (h : d.copyByte = .ok d') :
    d.byteStep = .ok { d' with phase := d.afterCopy .copy } := by
  rw [byteStep_copy hp, Dec.copyStep, h, except_ok_bind]

/-- The steps of phase LIT are the literal loop over the next bytes of `IN` (R130, R131). -/
theorem litPhase_byteSteps {data : List Byte} (hne : data ≠ []) (hp : d.phase = .lit) (hlen : d.len.toNat = data.length)
    (hdata : ∀ k, k < data.length → data[k]? = some (d.job.inByte .dec (d.ip.toNat + k)))
    (hloop : Dec.literalLoop data d = .ok d') : Dec.byteSteps data.length d = .ok { d' with phase := .fetch } := by
  induction data generalizing d with
  | nil => exact absurd rfl hne
  | cons b bs ih =>
    obtain ⟨d₁, hbyte, hrest⟩ := bind_eq_ok hloop
    obtain ⟨-, hin, hd₁⟩ := literalByte_answers b d d₁ hbyte
    obtain rfl : b = ipByte d := by simpa using hdata 0 (Nat.succ_pos _)
    rw [List.length_cons] at hlen
    rw [List.length_cons, byteSteps_succ (byteStep_literalByte hp hin hbyte), Dec.afterCopy]
    by_cases h1 : d.len = 1
    · obtain rfl : bs = [] := List.length_eq_zero_iff.mp (by simpa [h1] using hlen.symm)
      cases hrest
      rw [if_pos h1]
      rfl
    · obtain ⟨hpred, h2⟩ := len_pred_toNat (by omega) h1
      have hip := word_succ_toNat hin
      subst hd₁
      rw [if_neg h1, ← hp]
      refine ih (List.ne_nil_of_length_pos (by omega)) hp (by simp only; omega) (fun k hk => ?_) hrest
      simp only [hip, Nat.add_assoc, Nat.add_comm 1]
      exact hdata (k + 1) (Nat.succ_lt_succ hk)

/-- The steps of phase COPY are the copy loop (R142, R143). -/
theorem copyPhase_byteSteps (hp : d.phase = .copy) (hlen : d.len.toNat = n + 1) (hloop : Dec.copyLoop (n + 1) d = .ok d') :
    Dec.byteSteps (n + 1) d = .ok { d' with phase := .fetch } := by
  induction n generalizing d with
  | zero =>
    obtain ⟨d₁, hbyte, hrest⟩ := bind_eq_ok hloop
    cases hrest
    have h1 : d.len = 1 := BitVec.eq_of_toNat_eq hlen
    rw [byteSteps_succ (byteStep_copyByte hp hbyte), Dec.afterCopy, if_pos h1]
    rfl
  | succ n ih =>
    obtain ⟨d₁, hbyte, hrest⟩ := bind_eq_ok hloop
    obtain ⟨-, b, hd₁⟩ := copyByte_answers d d₁ hbyte
    have h1 : d.len ≠ 1 := fun h => by simp [h] at hlen
    obtain ⟨hpred, h2⟩ := len_pred_toNat (by omega) h1
    rw [byteSteps_succ (byteStep_copyByte hp hbyte), Dec.afterCopy, if_neg h1]
    subst hd₁
    rw [← hp]
    exact ih hp (by simp only; omega) hrest

/-! ### The steps of a token and their number -/

/-- `n` byte steps of one token lead from `d` to `e`. A token that completes takes no more steps than it reads and writes bytes: a step
moves one byte, and a LIT step reads and writes it at once (R113). One that raises takes at most one step more than there are bytes of
`IN` left. -/
structure TokenSteps (n : Nat) (d e : Dec) : Prop where
  steps : Dec.byteSteps n d = .ok e
  completes : e.phase = .fetch → n + d.ip.toNat + d.op.toNat ≤ e.ip.toNat + e.op.toNat
  raises : e.phase = .done → n + d.ip.toNat ≤ d.job.inLen.toNat + 1

theorem tokenSteps_raise {k : ErrKind} (h : d.byteStep = .ok (d'.raise k)) (hip : d.ip.toNat ≤ d.job.inLen.toNat) :
    TokenSteps 1 d (d'.raise k) :=
  ⟨by rw [byteSteps_succ h]; rfl, nofun, fun _ => by omega⟩

/-- A step that reads one byte and writes none. -/
theorem TokenSteps.cons (h : TokenSteps n d' e) (hstep : d.byteStep = .ok d') (hip : d'.ip.toNat = d.ip.toNat + 1)
    (hop : d'.op = d.op) (hin : d'.job.inLen = d.job.inLen) : TokenSteps (n + 1) d e := by
  obtain ⟨hsteps, hcompletes, hraises⟩ := h
  rw [hop, hip] at hcompletes
  rw [hin, hip] at hraises
  exact ⟨(byteSteps_succ hstep n).trans hsteps, fun hp => by have := hcompletes hp; omega,
    fun hp => by have := hraises hp; omega⟩

/-! ### The back-references (R143 to R145) -/

theorem extStep_end (h : d.ip = d.job.inLen) : d.extStep = .ok (d.raise .dataCorruption) := if_pos (atEnd_of_eq h)

theorem extStep_ok (h : d.ip.toNat < d.job.inLen.toNat) :
    d.extStep = .ok { d with ip := d.ip + 1, len := longLength (ipByte d), phase := .low } := by
  simp [Dec.extStep, atEnd_of_lt h, readIn_ok .dec h, advance_ok h]

theorem lowStep_end (h : d.ip = d.job.inLen) : d.lowStep = .ok (d.raise .dataCorruption) := if_pos (atEnd_of_eq h)

/-- The distance a LOW step reads (R88, R145). -/
abbrev lowDistance (d : Dec) : BitVec 14 := distance (low5 d.ctrl) (ipByte d)

theorem lowStep_underflow (h : d.ip.toNat < d.job.inLen.toNat) (hback : d.op.toNat < (lowDistance d).toNat) :
    d.lowStep = .ok (Dec.raise .dataCorruption { d with ip := d.ip + 1 }) := by
  simp [Dec.lowStep, atEnd_of_lt h, readIn_ok .dec h, advance_ok h, hback]

theorem lowStep_noRoom (h : d.ip.toNat < d.job.inLen.toNat) (hback : (lowDistance d).toNat ≤ d.op.toNat)
    (hroom : d.job.outCap.toNat - d.op.toNat < d.len.toNat) :
    d.lowStep = .ok (Dec.raise .insufficientBuffer { d with ip := d.ip + 1 }) := by
  simp [Dec.lowStep, atEnd_of_lt h, readIn_ok .dec h, advance_ok h, Nat.not_lt.mpr hback, hroom]

theorem lowStep_ok (h : d.ip.toNat < d.job.inLen.toNat) (hback : (lowDistance d).toNat ≤ d.op.toNat)
    (hroom : d.len.toNat ≤ d.job.outCap.toNat - d.op.toNat) :
    d.lowStep = .ok { d with ip := d.ip + 1, dist := lowDistance d, phase := .copy } := by
  simp [Dec.lowStep, atEnd_of_lt h, readIn_ok .dec h, advance_ok h, Nat.not_lt.mpr hback, Nat.not_lt.mpr hroom]

/-- The copy of `ValidateAndCopy` is the steps of phase COPY (R142, R143). -/
theorem copy_tokenSteps {dist : BitVec 14} {length : BitVec 9} (hdist : 1 ≤ dist.toNat) (hlen : 1 ≤ length.toNat)
    (hback : dist.toNat ≤ d.op.toNat) (hroom : d.op.toNat + length.toNat ≤ d.job.outCap.toNat)
    (he : d.validateAndCopy dist length = .ok e) :
    TokenSteps length.toNat { d with dist := dist, len := length, phase := .copy } e := by
  rw [validateAndCopy_ok hdist hback hroom] at he
  cases he
  obtain ⟨n, hn⟩ : ∃ n, length.toNat = n + 1 := ⟨_, (Nat.succ_pred_eq_of_pos hlen).symm⟩
  have hloop := copyLoop_ok (d := { d with dist := dist, len := length, phase := .copy }) hdist hback hroom
  refine ⟨?_, fun _ => ?_, nofun⟩
  · rw [hn] at hloop ⊢
    rw [copyPhase_byteSteps rfl hn hloop, ← hn]
    simp [copyPattern]
  · simp only [word_add_toNat hroom]
    omega

/-- What follows the control byte and, in an `LREF`, the extension byte (R140 to R142, R145): a LOW step and the steps of COPY. -/
theorem low_tokenSteps {dh : BitVec 5} {r : Byte} (hlen : 1 ≤ d.len.toNat) (hip : d.ip.toNat ≤ d.job.inLen.toNat)
    (hop : d.op.toNat ≤ d.job.outCap.toNat) (hdh : low5 d.ctrl = dh)
    (hr : d.ip.toNat < d.job.inLen.toNat → ipByte d = r)
    (he : (if d.atEnd then .ok (d.raise .dataCorruption)
      else d.advance >>= fun d' => d'.validateAndCopy (distance dh r) d.len) = .ok e) :
    ∃ n, n ≤ d.len.toNat + 1 ∧ TokenSteps n { d with phase := .low } e := by
  have hlow : Dec.byteStep { d with phase := .low } = Dec.lowStep { d with phase := .low } := byteStep_low rfl
  by_cases hend : d.ip = d.job.inLen
  · rw [if_pos (atEnd_of_eq hend)] at he
    cases he
    exact ⟨1, by omega, tokenSteps_raise (hlow.trans (lowStep_end hend)) hip⟩
  have hlt := word_lt_of_ne hip hend
  have hdist : distance dh r = lowDistance d := by rw [← hdh, ← hr hlt]
  rw [if_neg (by simp [atEnd_of_lt hlt]), advance_ok hlt, except_ok_bind, hdist] at he
  rcases Nat.lt_or_ge d.op.toNat (lowDistance d).toNat with hback | hback
  · cases (validateAndCopy_underflow (d := { d with ip := d.ip + 1 }) hback).symm.trans he
    exact ⟨1, by omega, tokenSteps_raise (hlow.trans (lowStep_underflow (d := { d with phase := .low }) hlt hback)) hip⟩
  rcases Nat.lt_or_ge (d.job.outCap.toNat - d.op.toNat) d.len.toNat with hroom | hroom
  · cases (validateAndCopy_noRoom (d := { d with ip := d.ip + 1 }) hback hroom).symm.trans he
    exact ⟨1, by omega, tokenSteps_raise (hlow.trans (lowStep_noRoom (d := { d with phase := .low }) hlt hback hroom)) hip⟩
  · have hcopy := copy_tokenSteps (d := { d with ip := d.ip + 1 }) (distance_pos _ _) hlen hback (by simp only; omega) he
    exact ⟨d.len.toNat + 1, le_rfl, hcopy.cons
      (hlow.trans (lowStep_ok (d := { d with phase := .low }) hlt hback hroom)) (word_succ_toNat hlt) rfl rfl⟩

/-- What follows the control byte of an `LREF` (R141, R144): an EXT step, then as after the control byte of an `SREF`. -/
theorem ext_tokenSteps {dh : BitVec 5} {x r : Byte} (hip : d.ip.toNat ≤ d.job.inLen.toNat)
    (hop : d.op.toNat ≤ d.job.outCap.toNat) (hdh : low5 d.ctrl = dh)
    (hx : d.ip.toNat < d.job.inLen.toNat → ipByte d = x)
    (hr : d.ip.toNat + 1 < d.job.inLen.toNat → d.job.inByte .dec (d.ip.toNat + 1) = r)
    (he : (if d.atEnd then .ok (d.raise .dataCorruption)
      else d.advance >>= fun d => if d.atEnd then .ok (Dec.raise .dataCorruption { d with len := longLength x })
        else Dec.advance { d with len := longLength x } >>= fun d => d.validateAndCopy (distance dh r) (longLength x)) = .ok e) :
    ∃ n, n ≤ 266 ∧ TokenSteps n { d with phase := .ext } e := by
  have hext : Dec.byteStep { d with phase := .ext } = Dec.extStep { d with phase := .ext } := byteStep_ext rfl
  by_cases hend : d.ip = d.job.inLen
  · rw [if_pos (atEnd_of_eq hend)] at he
    cases he
    exact ⟨1, by omega, tokenSteps_raise (hext.trans (extStep_end hend)) hip⟩
  have hlt := word_lt_of_ne hip hend
  obtain rfl := hx hlt
  have hip1 := word_succ_toNat hlt
  have hstep := hext.trans (extStep_ok hlt)
  have hlen := longLength_toNat (ipByte d)
  rw [if_neg (by simp [atEnd_of_lt hlt]), advance_ok hlt, except_ok_bind] at he
  obtain ⟨n, hn, hsteps⟩ := low_tokenSteps (d := { d with ip := d.ip + 1, len := longLength (ipByte d) }) (by simp only; omega)
    (by simp only; omega) hop hdh (by simpa only [ipByte, hip1] using hr) he
  have := (ipByte d).isLt
  exact ⟨n + 1, by simp only at hn; omega, hsteps.cons hstep hip1 rfl rfl⟩

/-! ### The tokens (R130, R140, R141) -/

theorem shortToken_tokenSteps {c r : Byte} (hp : d.phase = .fetch) (hip : d.ip.toNat < d.job.inLen.toNat)
    (hop : d.op.toNat ≤ d.job.outCap.toNat) (hc : ipByte d = c) (h1 : 32 ≤ c.toNat) (h2 : c.toNat < 224)
    (hr : d.ip.toNat + 1 < d.job.inLen.toNat → d.job.inByte .dec (d.ip.toNat + 1) = r)
    (he : d.shortToken (lcode c) (low5 c) r = .ok e) : ∃ n, 1 ≤ n ∧ n ≤ 267 ∧ TokenSteps n d e := by
  have hip1 := word_succ_toNat hip
  have hlen := shortLength_toNat (lcode c)
  have hlc := (lcode c).isLt
  have hstep := byteStep_dispatch hp hip
  rw [hc, dispatch_short h1 h2] at hstep
  rw [Dec.shortToken, controlByte_fields, takeControl_ok _ hip, except_ok_bind] at he
  obtain ⟨n, hn, hsteps⟩ := low_tokenSteps (d := { d with ip := d.ip + 1, ctrl := c, len := shortLength (lcode c) })
    (by simp only; omega) (by simp only; omega) hop rfl (by simpa only [ipByte, hip1] using hr) he
  simp only at hn
  exact ⟨n + 1, by omega, by omega, hsteps.cons hstep hip1 rfl rfl⟩

theorem longToken_tokenSteps {c x r : Byte} (hp : d.phase = .fetch) (hip : d.ip.toNat < d.job.inLen.toNat)
    (hop : d.op.toNat ≤ d.job.outCap.toNat) (hc : ipByte d = c) (h1 : 224 ≤ c.toNat)
    (hx : d.ip.toNat + 1 < d.job.inLen.toNat → d.job.inByte .dec (d.ip.toNat + 1) = x)
    (hr : d.ip.toNat + 2 < d.job.inLen.toNat → d.job.inByte .dec (d.ip.toNat + 2) = r)
    (he : d.longToken (low5 c) x r = .ok e) : ∃ n, 1 ≤ n ∧ n ≤ 267 ∧ TokenSteps n d e := by
  have hip1 := word_succ_toNat hip
  have hctrl : controlByte 7 (low5 c) = c := controlByte_of_lcode (by have := lcode_toNat c; bv_omega)
  have hstep := byteStep_dispatch hp hip
  rw [hc, dispatch_long h1] at hstep
  rw [Dec.longToken, hctrl, takeControl_ok _ hip, except_ok_bind] at he
  obtain ⟨n, hn, hsteps⟩ := ext_tokenSteps (d := { d with ip := d.ip + 1, ctrl := c }) (by simp only; omega) hop rfl
    (by simpa only [ipByte, hip1] using hx) (by simpa only [hip1] using hr) he
  exact ⟨n + 1, by omega, by omega, hsteps.cons hstep hip1 rfl rfl⟩

theorem literalToken_tokenSteps {data : List Byte} (hp : d.phase = .fetch) (hip : d.ip.toNat < d.job.inLen.toNat)
    (hop : d.op.toNat ≤ d.job.outCap.toNat) (hc : (ipByte d).toNat < 32) (hlen : data.length = (ipByte d).toNat + 1)
    (hdata : ∀ k, k < data.length → d.ip.toNat + 1 + k < d.job.inLen.toNat →
      data[k]? = some (d.job.inByte .dec (d.ip.toNat + 1 + k)))
    (he : d.literalToken (ipByte d) data = .ok e) : ∃ n, 1 ≤ n ∧ n ≤ 267 ∧ TokenSteps n d e := by
  have hip1 := word_succ_toNat hip
  have hstep := byteStep_dispatch hp hip
  by_cases hin : d.job.inLen.toNat < d.ip.toNat + 1 + data.length
  · rw [dispatch_cut hc (by simp only; omega)] at hstep
    cases (literalToken_cut hip hin).symm.trans he
    exact ⟨1, le_rfl, by omega, tokenSteps_raise hstep hip.le⟩
  by_cases hroom : d.job.outCap.toNat - d.op.toNat < data.length
  · rw [dispatch_noRoom hc (by simp only; omega) (by simp only; omega)] at hstep
    cases (literalToken_noRoom hip (by omega) hroom).symm.trans he
    exact ⟨1, le_rfl, by omega, tokenSteps_raise hstep hip.le⟩
  have hout : d.op.toNat + data.length ≤ d.job.outCap.toNat := by omega
  rw [dispatch_lit hc (by simp only; omega) (by simp only; omega), ← hlen] at hstep
  rw [literalToken_ok (by omega) hout] at he
  cases he
  refine ⟨data.length + 1, by omega, by omega, ?_, fun _ => ?_, nofun⟩
  · have hloop := literalLoop_ok (data := data)
      (d := { d with ip := d.ip + 1, ctrl := ipByte d, len := BitVec.ofNat 9 data.length, phase := .lit })
      (by simp only; omega) hout
    rw [byteSteps_succ hstep, litPhase_byteSteps (List.ne_nil_of_length_pos (by omega)) rfl (by simp; omega)
      (fun k hk => by simp only [hip1]; exact hdata k hk (by omega)) hloop]
    rw [← word_add_succ]
    simp
  · simp only [word_add_toNat (y := d.job.inLen) (show d.ip.toNat + (data.length + 1) ≤ _ by omega), word_add_toNat hout]
    omega

/-! ### The token at `ip`, by its control byte (R90, R112) -/

theorem followUp_of_lt {k : Nat} (h : d.ip.toNat + 1 + k < d.job.inLen.toNat) :
    d.followUp k = d.job.inByte .dec (d.ip.toNat + 1 + k) := if_pos h

section
variable {c : Byte} (f : Nat → Byte)

theorem decodeToken_lit (hc : c.toNat < 32) : decodeToken c f = .lit ((List.range (c.toNat + 1)).map f) := by
  have hrow : (lcode c).toNat = 0 := by rw [lcode_toNat]; omega
  have hcount : (low5 c).toNat = c.toNat := by rw [low5_toNat]; omega
  rw [decodeToken, hrow, hcount]
  rfl

theorem tokenOnDec_short (h1 : 32 ≤ c.toNat) (h2 : c.toNat < 224) (d : Dec) :
    tokenOnDec (decodeToken c f) d = d.shortToken (lcode c) (low5 c) (f 0) := by
  have hrow := lcode_toNat c
  have hlc : ∀ lc : BitVec 3, (lcode c).toNat = lc.toNat → lcode c = lc := fun _ => BitVec.eq_of_toNat_eq
  rw [decodeToken]
  split
  case h_1 h => omega
  case h_2 h => rw [hlc 1 h]; rfl
  case h_3 h => rw [hlc 2 h]; rfl
  case h_4 h => rw [hlc 3 h]; rfl
  case h_5 h => rw [hlc 4 h]; rfl
  case h_6 h => rw [hlc 5 h]; rfl
  case h_7 h => rw [hlc 6 h]; rfl
  case h_8 => simp only [imp_false] at *; omega

theorem tokenOnDec_long (hc : 224 ≤ c.toNat) (d : Dec) :
    tokenOnDec (decodeToken c f) d = d.longToken (low5 c) (f 0) (f 1) := by
  have hrow : (lcode c).toNat = 7 := by
    have := c.isLt
    rw [lcode_toNat]
    omega
  rw [decodeToken, hrow]
  rfl

end

theorem fetchToken_eq_ok {i : Instr} (hip : d.ip.toNat < d.job.inLen.toNat) (h : d.fetchToken = .ok i) : i = tokenAt d := by
  rw [Dec.fetchToken, readIn_ok .dec hip] at h
  cases h
  rfl

/-- The token at `ip` is its byte steps (R113). -/
theorem token_tokenSteps (hp : d.phase = .fetch) (hip : d.ip.toNat < d.job.inLen.toNat) (hop : d.op.toNat ≤ d.job.outCap.toNat)
    (he : tokenOnDec (tokenAt d) d = .ok e) : ∃ n, 1 ≤ n ∧ n ≤ 267 ∧ TokenSteps n d e := by
  rw [tokenAt] at he
  by_cases h1 : (ipByte d).toNat < 32
  · have hctrl := decodeToken_control (ipByte d) d.followUp
    rw [decodeToken_lit _ h1] at he hctrl
    rw [tokenOnDec, hctrl] at he
    refine literalToken_tokenSteps hp hip hop h1 (by simp) (fun k hk hin => ?_) he
    have hk' : k < (ipByte d).toNat + 1 := by simpa using hk
    rw [List.getElem?_map, List.getElem?_range hk', Option.map_some, followUp_of_lt hin]
  by_cases h2 : (ipByte d).toNat < 224
  · have h32 := Nat.le_of_not_lt h1
    rw [tokenOnDec_short _ h32 h2] at he
    exact shortToken_tokenSteps hp hip hop rfl h32 h2 (fun h => (followUp_of_lt (k := 0) h).symm) he
  · have h224 := Nat.le_of_not_lt h2
    rw [tokenOnDec_long _ h224] at he
    exact longToken_tokenSteps hp hip hop rfl h224 (fun h => (followUp_of_lt (k := 0) h).symm)
      (fun h => (followUp_of_lt (k := 1) h).symm) he

/-- Settles O29: by the three kinds of control byte (`token_tokenSteps`); the longest token is an `LREF` of length 264. -/
theorem tokenIsItsByteSteps : Obligations.TokenIsItsByteSteps := by
  unfold Obligations.TokenIsItsByteSteps
  intro s t i hp hip hop hfetch hexec
  obtain rfl := fetchToken_eq_ok hip hfetch
  obtain ⟨e, he, rfl⟩ := State_ofDec_eq_next (exec_eq_ofDec _ s ▸ hexec)
  obtain ⟨n, hn1, hn, hsteps, -, -⟩ := token_tokenSteps hp hip hop he
  exact ⟨n, hn1, hn, hsteps⟩

end Sys2Proof.Proofs
end

section
/-! `DecodeAll` token by token, and its closed form (spec/40_decoder_control.md R119, R122 (b), spec/30_encoding.md R93, R94). -/

namespace Sys2Proof.Proofs

open Sys2Proof.Machine Sys2Proof.Laws

variable {cap n : Nat} {c : Byte} {s rest out out' : List Byte} {t : Token}

/-! ### One token -/

/-- One token of `DecodeAll` in the terms of `parse` and `expand` (R94): what is left of the stream and the output after it, or the
error it ends the job with, truncation and underflow before room (R205). -/
def decodeOne (cap : Nat) (s out : List Byte) : Except ErrKind (List Byte × List Byte) :=
  match parseOne s with
  | none => .error .dataCorruption
  | some (t, rest) =>
    match expandOne t out with
    | none => .error .dataCorruption
    | some out' => if cap < out'.length then .error .insufficientBuffer else .ok (rest, out')

theorem decodeOne_truncated (h : parseOne s = none) : decodeOne cap s out = .error .dataCorruption := by
  rw [decodeOne, h]

theorem decodeOne_underflow (h : parseOne s = some (t, rest)) (ho : expandOne t out = none) :
    decodeOne cap s out = .error .dataCorruption := by
  simp only [decodeOne, h, ho]

theorem decodeOne_noRoom (h : parseOne s = some (t, rest)) (ho : expandOne t out = some out') (hr : cap < out'.length) :
    decodeOne cap s out = .error .insufficientBuffer := by
  simp only [decodeOne, h, ho, if_pos hr]

theorem decodeOne_ok (h : parseOne s = some (t, rest)) (ho : expandOne t out = some out') (hr : out'.length ≤ cap) :
    decodeOne cap s out = .ok (rest, out') := by
  simp only [decodeOne, h, ho, if_neg (Nat.not_lt.mpr hr)]

@[simp] theorem appendBack_length (d l : Nat) (o : List Byte) : (appendBack d l o).length = o.length + l := by
  induction l generalizing o with
  | zero => rfl
  | succ l ih => rw [appendBack, ih, List.length_append, List.length_singleton]; omega

/-- A back-reference as `DecodeAll` executes it (R119): underflow before room, then the copy. -/
theorem decodeOne_ref {d l : Nat} (hl : 1 ≤ l) (h : parseOne s = some (.ref d l, rest)) :
    decodeOne cap s out =
      if d > out.length then .error .dataCorruption
      else if l > cap - out.length then .error .insufficientBuffer
      else .ok (rest, appendBack d l out) := by
  by_cases hd : d ≤ out.length
  · have ho : expandOne (.ref d l) out = some (appendBack d l out) := if_pos hd
    rw [if_neg (Nat.not_lt.mpr hd)]
    split
    · exact decodeOne_noRoom h ho (by rw [appendBack_length]; omega)
    · exact decodeOne_ok h ho (by rw [appendBack_length]; omega)
  · rw [if_pos (Nat.lt_of_not_le hd)]
    exact decodeOne_underflow h (if_neg hd)

/-- A literal token as `DecodeAll` executes it (R119): input before room, then the bytes. -/
theorem decodeOne_lit (hc : c.toNat < 32) :
    decodeOne cap (c :: s) out =
      if s.length < c.toNat + 1 then .error .dataCorruption
      else if cap - out.length < c.toNat + 1 then .error .insufficientBuffer
      else .ok (s.drop (c.toNat + 1), out ++ s.take (c.toNat + 1)) := by
  by_cases hs : s.length < c.toNat + 1
  · rw [if_pos hs]
    exact decodeOne_truncated (by simp only [parseOne, if_pos hc, if_pos hs])
  · have h : parseOne (c :: s) = some (.lit (s.take (c.toNat + 1)), s.drop (c.toNat + 1)) := by
      simp only [parseOne, if_pos hc, if_neg hs]
    have hlen : (out ++ s.take (c.toNat + 1)).length = out.length + (c.toNat + 1) := by
      rw [List.length_append, List.length_take_of_le (by omega)]
    rw [if_neg hs]
    split
    · exact decodeOne_noRoom h rfl (by omega)
    · exact decodeOne_ok h rfl (by omega)

/-- `DecodeAll` is one token, then the rest. -/
theorem decodeAllAux_cons (cap n : Nat) (c : Byte) (s out : List Byte) :
    decodeAllAux cap (n + 1) (c :: s) out =
      match decodeOne cap (c :: s) out with
      | .error k => .error k
      | .ok (rest, out') => decodeAllAux cap n rest out' := by
  conv_lhs => unfold decodeAllAux
  by_cases hc : c.toNat < 32
  · rw [if_pos hc, decodeOne_lit hc]
    split
    · rfl
    · split <;> rfl
  · have hrow : c.toNat >>> 5 ≤ 7 := by
      have := c.isLt
      rw [Nat.shiftRight_eq_div_pow]
      omega
    rw [if_neg hc]
    split
    · next h7 =>
      match s with
      | [] => rw [decodeOne_truncated (by simp [parseOne, hc, h7])]
      | [_] => rw [decodeOne_truncated (by simp [parseOne, hc, h7])]
      | e :: r :: s =>
        rw [decodeOne_ref (d := refDistance c r) (l := e.toNat + 9) (rest := s) (by omega) (by simp [parseOne, hc, h7])]
        simp only
        split
        · rfl
        · split <;> rfl
    · next h7 =>
      have h6 : c.toNat >>> 5 < 7 := by omega
      match s with
      | [] => rw [decodeOne_truncated (by simp [parseOne, hc, h6])]
      | r :: s =>
        rw [decodeOne_ref (d := refDistance c r) (l := (c.toNat >>> 5) + 2) (rest := s) (by omega) (by simp [parseOne, hc, h6])]
        simp only
        split
        · rfl
        · split <;> rfl

/-! ### The closed form -/

/-- A token that `parse` reads is an encoded instruction: `parse` and the decoder agree (O7). -/
theorem parseOne_eq_some (h : parseOne s = some (t, rest)) :
    ∃ i : Instr, i.wellFormed = true ∧ s = encode i ++ rest ∧ t = tokenOf i := by
  rw [decoderAgreesWithParse s] at h
  split at h
  · next i rest' hdec =>
    cases h
    obtain ⟨hwf, hs⟩ := encode_of_decode hdec
    exact ⟨i, hwf, hs, rfl⟩
  · cases h

/-- A token takes a byte of the stream at least. -/
theorem parseOne_length_lt (h : parseOne s = some (t, rest)) : rest.length < s.length := by
  obtain ⟨i, -, rfl, -⟩ := parseOne_eq_some h
  rw [List.length_append, encode, List.length_cons]
  omega

theorem expandOne_length_le (h : expandOne t out = some out') : out.length ≤ out'.length := by
  cases t with
  | lit b =>
    cases h
    rw [List.length_append]
    omega
  | ref d l =>
    rw [expandOne] at h
    split at h
    · cases h
      rw [appendBack_length]
      omega
    · cases h

/-- Good tokens only add to the output. -/
theorem goodOutputAux_length_le (n : Nat) (s out : List Byte) : out.length ≤ (goodOutputAux n s out).length := by
  induction n generalizing s out with
  | zero => exact le_rfl
  | succ n ih =>
    rw [goodOutputAux]
    split
    · exact le_rfl
    · split
      · exact le_rfl
      · next h => exact (expandOne_length_le h).trans (ih _ _)

theorem goodOutputAux_ok (h : parseOne s = some (t, rest)) (ho : expandOne t out = some out') :
    goodOutputAux (n + 1) s out = goodOutputAux n rest out' := by
  simp only [goodOutputAux, h, ho]

/-- What a string from the output `out` on stands for (R94), the number of tokens bounded: none when it is truncated or underflows. -/
def dataFrom (n : Nat) (s out : List Byte) : Option (List Byte) := (parseAux n s).bind fun ts => expandFrom ts out

theorem dataFrom_nil (n : Nat) (out : List Byte) : dataFrom n [] out = some out := by
  cases n <;> rfl

theorem dataFrom_truncated (h : parseOne (c :: s) = none) : dataFrom (n + 1) (c :: s) out = none := by
  simp only [dataFrom, parseAux, h, Option.bind_none]

theorem dataFrom_underflow (h : parseOne (c :: s) = some (t, rest)) (ho : expandOne t out = none) :
    dataFrom (n + 1) (c :: s) out = none := by
  simp only [dataFrom, parseAux, h, Option.bind_map, Function.comp_def, expandFrom, ho, Option.bind_fun_none]

theorem dataFrom_ok (h : parseOne (c :: s) = some (t, rest)) (ho : expandOne t out = some out') :
    dataFrom (n + 1) (c :: s) out = dataFrom n rest out' := by
  simp only [dataFrom, parseAux, h, Option.bind_map, Function.comp_def, expandFrom, ho]

/-- The result in closed form (R122 (b)), of what the good tokens produce and of the decoded data, if there is such. -/
def closedForm (cap : Nat) (good : List Byte) (data : Option (List Byte)) : JobResult :=
  if cap < good.length then .error .insufficientBuffer else data.elim (.error .dataCorruption) .ok

theorem closedForm_fits {good : List Byte} (h : good.length ≤ cap) (data : Option (List Byte)) :
    closedForm cap good data = data.elim (.error .dataCorruption) .ok :=
  if_neg (Nat.not_lt.mpr h)

/-- The closed form from any point of the stream at which the output fits. -/
theorem decodeAllAux_eq_closedForm (hs : s.length ≤ n) (hout : out.length ≤ cap) :
    decodeAllAux cap n s out = closedForm cap (goodOutputAux n s out) (dataFrom n s out) := by
  induction n generalizing s out with
  | zero =>
    obtain rfl := List.length_eq_zero_iff.mp (Nat.le_zero.mp hs)
    rw [dataFrom_nil]
    exact (closedForm_fits hout (some out)).symm
  | succ n ih =>
    cases s with
    | nil =>
      rw [dataFrom_nil]
      exact (closedForm_fits hout (some out)).symm
    | cons c s =>
      rw [decodeAllAux_cons]
      cases hparse : parseOne (c :: s) with
      | none =>
        have hgood : goodOutputAux (n + 1) (c :: s) out = out := by simp only [goodOutputAux, hparse]
        rw [decodeOne_truncated hparse, dataFrom_truncated hparse, hgood, closedForm_fits hout]
        rfl
      | some p =>
        obtain ⟨t, rest⟩ := p
        cases hexp : expandOne t out with
        | none =>
          have hgood : goodOutputAux (n + 1) (c :: s) out = out := by simp only [goodOutputAux, hparse, hexp]
          rw [decodeOne_underflow hparse hexp, dataFrom_underflow hparse hexp, hgood, closedForm_fits hout]
          rfl
        | some out' =>
          rw [goodOutputAux_ok hparse hexp, dataFrom_ok hparse hexp]
          rcases Nat.lt_or_ge cap out'.length with hroom | hroom
          · rw [decodeOne_noRoom hparse hexp hroom, closedForm,
              if_pos (hroom.trans_le (goodOutputAux_length_le n rest out'))]
          · have hlt := parseOne_length_lt hparse
            rw [decodeOne_ok hparse hexp hroom]
            exact ih (by omega) hroom

/-- Settles O32: by induction over the tokens (`decodeAllAux_eq_closedForm`), from the empty output, which fits any capacity. -/
theorem decodeAllHasItsClosedForm : Obligations.DecodeAllHasItsClosedForm := by
  unfold Obligations.DecodeAllHasItsClosedForm
  intro s cap
  have h : decodeAll s cap = closedForm cap (goodOutput s) (decodedData s) :=
    decodeAllAux_eq_closedForm (s := s) (out := []) le_rfl (Nat.zero_le cap)
  rw [h]
  cases decodedData s <;> rfl

end Sys2Proof.Proofs
end

section
/-! One token of the engine is one token of `DecodeAll` (spec/40_decoder_control.md R119, R122 (a), spec/30_encoding.md R94). -/

namespace Sys2Proof.Proofs

open Sys2Proof.Machine Sys2Proof.Laws

variable {d e : Dec} {s rest out data : List Byte} {m : Memory} {op : Word}

/-! ### The output so far (R25, R52) -/

/-- `OUT[0 .. op]` is the string. -/
structure Holds (out : List Byte) (m : Memory) (op : Word) : Prop where
  cursor : op.toNat = out.length
  written : ∀ a, a < out.length → m.read? a = out[a]?

/-- A string placed at `op` is appended to the output. -/
theorem Holds.place (h : Holds out m op) {cap : Word} (hroom : op.toNat + data.length ≤ cap.toNat) :
    Holds (out ++ data) (Memory.place data op.toNat m) (op + BitVec.ofNat 32 data.length) := by
  obtain ⟨hop, hw⟩ := h
  refine ⟨by rw [word_add_toNat hroom, hop, List.length_append], fun a ha => ?_⟩
  rw [List.length_append] at ha
  rw [read?_place, List.getElem?_append, hop]
  by_cases hlt : a < out.length
  · rw [if_neg (by omega), if_pos hlt, hw a hlt]
  · rw [if_pos (by omega), if_neg hlt]

theorem Holds.outByte {a : Nat} (h : Holds out d.job.out op) (ha : a < out.length) : d.job.outByte .dec a = out.getD a 0 := by
  rw [Job.outByte, h.written a ha, List.getElem?_eq_getElem ha, Option.getD_some, List.getD_eq_getElem _ _ ha]

/-- The copy loop appends byte by byte what `expand` appends (R94, R142, R143). -/
theorem copyLoop_holds (n : Nat) (h : Holds out d.job.out d.op) (h1 : 1 ≤ d.dist.toNat) (h2 : d.dist.toNat ≤ out.length) :
    Answers (fun e => Holds (appendBack d.dist.toNat n out) e.job.out e.op) (Dec.copyLoop n d) := by
  induction n generalizing d out with
  | zero => exact answers_ok h
  | succ n ih =>
    have hop := h.cursor
    have hread : d.readBack = .ok (out.getD (out.length - d.dist.toNat) 0) := by
      rw [readBack_ok h1 (by omega), h.outByte (by omega), hop]
    rw [Dec.copyLoop, Dec.copyByte, hread, except_ok_bind, appendBack]
    refine answers_bind (putByte_answers _ d) ?_
    rintro _ ⟨hroom, rfl⟩
    exact ih (h.place (data := [out.getD (out.length - d.dist.toNat) 0]) (cap := d.job.outCap) hroom) h1
      (by rw [List.length_append]; exact Nat.le_add_right_of_le h2)

/-! ### The rest of the stream (R24) -/

theorem remaining_length (d : Dec) : d.remaining.length = d.job.inLen.toNat - d.ip.toNat := by
  rw [Dec.remaining, List.length_map, List.length_range]

/-- Past `k` bytes, the rest of the stream is without them. -/
theorem remaining_drop {k : Nat} (hin : e.job.inLen = d.job.inLen) (hinp : e.job.inp = d.job.inp)
    (hip : e.ip.toNat = d.ip.toNat + k) : e.remaining = d.remaining.drop k := by
  have hbyte : ∀ a, e.job.inByte .dec a = d.job.inByte .dec a := fun a => by rw [Job.inByte, Job.inByte, hinp]
  refine List.ext_getElem (by rw [List.length_drop, remaining_length, remaining_length, hin, hip]; omega) fun a _ _ => ?_
  simp only [Dec.remaining, List.getElem_drop, List.getElem_map, List.getElem_range, hbyte, hip, Nat.add_assoc]

/-! ### Between two tokens -/

/-- A running job between two tokens: what the parser has not read yet is `s`, and the output so far is `out`. -/
structure BetweenTokens (s out : List Byte) (d : Dec) : Prop where
  phase : d.phase = .fetch
  ipBound : d.ip.toNat ≤ d.job.inLen.toNat
  rest : d.remaining = s
  opBound : d.op.toNat ≤ d.job.outCap.toNat
  holds : Holds out d.job.out d.op

/-- What a token makes of a job, when `DecodeAll` makes `r` of it: an error raised, or the job between two tokens again. -/
inductive Meets : Except ErrKind (List Byte × List Byte) → Dec → Prop
  | raised (k : ErrKind) (d₀ : Dec) : Meets (.error k) (d₀.raise k)
  | completed {rest out : List Byte} {e : Dec} (h : BetweenTokens rest out e) : Meets (.ok (rest, out)) e

theorem validateAndCopy_meets {dist : BitVec 14} {length : BitVec 9} (hd : 1 ≤ dist.toNat) (hl : 1 ≤ length.toNat)
    (hip : d.ip.toNat ≤ d.job.inLen.toNat) (hrest : d.remaining = rest) (hop : d.op.toNat ≤ d.job.outCap.toNat)
    (h : Holds out d.job.out d.op) :
    Succeeds (Meets (if dist.toNat > out.length then .error .dataCorruption
      else if length.toNat > d.job.outCap.toNat - out.length then .error .insufficientBuffer
      else .ok (rest, appendBack dist.toNat length.toNat out))) (d.validateAndCopy dist length) := by
  rw [validateAndCopy_cases hd hl, h.cursor]
  by_cases hback : dist.toNat > out.length
  · rw [if_pos hback, if_pos hback]
    exact succeeds_ok (.raised _ d)
  rw [if_neg hback, if_neg hback]
  by_cases hroom : length.toNat > d.job.outCap.toNat - out.length
  · rw [if_pos hroom, if_pos hroom]
    exact succeeds_ok (.raised _ d)
  rw [if_neg hroom, if_neg hroom]
  have hcur := h.cursor
  have hout : d.op.toNat + length.toNat ≤ d.job.outCap.toNat := by omega
  have hloop := copyLoop_ok (d := { d with dist := dist, len := length }) hd (by simp only; omega) hout
  have hcopy := copyLoop_holds (d := { d with dist := dist, len := length }) length.toNat h hd (by simp only; omega) _ hloop
  rw [← h.cursor]
  exact succeeds_ok (.completed ⟨rfl, hip, hrest, by rw [word_add_toNat hout]; exact hout, hcopy⟩)

/-- A literal token that is all there. -/
theorem literalToken_meets (c : Byte) (h : BetweenTokens s out d) (hip : d.ip.toNat + 1 + data.length ≤ d.job.inLen.toNat)
    (hs : s.drop (1 + data.length) = rest) :
    Succeeds (Meets (if d.job.outCap.toNat < (out ++ data).length then .error .insufficientBuffer else .ok (rest, out ++ data)))
      (d.literalToken c data) := by
  obtain ⟨hp, -, hrest, hop, hout⟩ := h
  have hcur := hout.cursor
  rw [List.length_append]
  by_cases hroom : d.job.outCap.toNat < out.length + data.length
  · rw [if_pos hroom, literalToken_noRoom (by omega) hip (by omega)]
    exact succeeds_ok (.raised _ _)
  · have hfit : d.op.toNat + data.length ≤ d.job.outCap.toNat := by omega
    have hadv : (d.ip + BitVec.ofNat 32 (data.length + 1)).toNat = d.ip.toNat + (1 + data.length) := by
      rw [word_add_toNat (y := d.job.inLen) (by omega), Nat.add_comm 1]
    rw [if_neg hroom, literalToken_ok hip hfit]
    refine succeeds_ok (.completed ⟨rfl, ?_, ?_, by rw [word_add_toNat hfit]; exact hfit, hout.place hfit⟩)
    · simp only [hadv]
      omega
    · rw [← hs, ← hrest]
      exact remaining_drop rfl rfl hadv

/-- A short token that is all there. -/
theorem shortToken_meets {lc : BitVec 3} {dh : BitVec 5} {r : Byte} (h : BetweenTokens s out d)
    (hip : d.ip.toNat + 2 ≤ d.job.inLen.toNat) (hs : s.drop 2 = rest) :
    Succeeds (Meets (if refDist dh r > out.length then .error .dataCorruption
      else if lc.toNat + 2 > d.job.outCap.toNat - out.length then .error .insufficientBuffer
      else .ok (rest, appendBack (refDist dh r) (lc.toNat + 2) out))) (d.shortToken lc dh r) := by
  obtain ⟨hp, -, hrest, hop, hout⟩ := h
  have hadv : (d.ip + 2).toNat = d.ip.toNat + 2 := word_add_toNat (n := 2) hip
  have hlen := shortLength_toNat lc
  have h1 : d.ip.toNat + 1 ≠ d.job.inLen.toNat := by omega
  rw [shortToken_eq (by omega), if_neg h1, refDist, ← distance_toNat, ← hlen]
  refine validateAndCopy_meets (d := { d with ip := d.ip + 2, ctrl := controlByte lc dh, len := shortLength lc })
    (distance_pos dh r) (by omega) (by simp only [hadv]; exact hip) ?_ hop hout
  rw [← hs, ← hrest]
  exact remaining_drop rfl rfl hadv

/-- A long token that is all there. -/
theorem longToken_meets {dh : BitVec 5} {x r : Byte} (h : BetweenTokens s out d)
    (hip : d.ip.toNat + 3 ≤ d.job.inLen.toNat) (hs : s.drop 3 = rest) :
    Succeeds (Meets (if refDist dh r > out.length then .error .dataCorruption
      else if x.toNat + 9 > d.job.outCap.toNat - out.length then .error .insufficientBuffer
      else .ok (rest, appendBack (refDist dh r) (x.toNat + 9) out))) (d.longToken dh x r) := by
  obtain ⟨hp, -, hrest, hop, hout⟩ := h
  have hadv : (d.ip + 3).toNat = d.ip.toNat + 3 := word_add_toNat (n := 3) hip
  have hlen := longLength_toNat x
  have h1 : d.ip.toNat + 1 ≠ d.job.inLen.toNat := by omega
  have h2 : d.ip.toNat + 2 ≠ d.job.inLen.toNat := by omega
  rw [longToken_eq (by omega), if_neg h1, if_neg h2, refDist, ← distance_toNat, ← hlen]
  refine validateAndCopy_meets (d := { d with ip := d.ip + 3, ctrl := controlByte 7 dh, len := longLength x })
    (distance_pos dh r) (by omega) (by simp only [hadv]; exact hip) ?_ hop hout
  rw [← hs, ← hrest]
  exact remaining_drop rfl rfl hadv

/-- An instruction that is all there does what `DecodeAll` does with its abstract token. -/
theorem tokenOnDec_meets {i : Instr} (hwf : i.wellFormed = true) (h : BetweenTokens (encode i ++ rest) out d) :
    Succeeds (Meets (decodeOne d.job.outCap.toNat (encode i ++ rest) out)) (tokenOnDec i d) := by
  have hparse := parseOne_encode hwf rest
  have hlen := remaining_length d
  have hle := h.ipBound
  rw [h.rest, List.length_append, encode, List.length_cons] at hlen
  have hdrop : (encode i ++ rest).drop (i.followUp.length + 1) = rest := List.drop_left' (by rw [encode, List.length_cons])
  cases i with
  | lit data =>
    have hone : decodeOne d.job.outCap.toNat (encode (.lit data) ++ rest) out =
        if d.job.outCap.toNat < (out ++ data).length then .error .insufficientBuffer else .ok (rest, out ++ data) := by
      split
      · next hr => exact decodeOne_noRoom hparse rfl hr
      · next hr => exact decodeOne_ok hparse rfl (Nat.le_of_not_lt hr)
    simp only [Instr.followUp] at hlen hdrop
    rw [hone]
    exact literalToken_meets _ h (by omega) (by rw [Nat.add_comm 1]; exact hdrop)
  | lref dh x r =>
    simp only [Instr.followUp, List.length_cons, List.length_nil] at hlen
    rw [decodeOne_ref (by omega) hparse]
    exact longToken_meets h (by omega) hdrop
  | _ dh r =>
    simp only [Instr.followUp, List.length_cons, List.length_nil] at hlen
    rw [decodeOne_ref (by omega) hparse]
    exact shortToken_meets h (by omega) hdrop

/-- The token at `ip` does what `DecodeAll` does with the rest of the stream (R119), also where the stream is cut short. -/
theorem tokenAt_meets (h : BetweenTokens s out d) (hip : d.ip.toNat < d.job.inLen.toNat) :
    Succeeds (Meets (decodeOne d.job.outCap.toNat s out)) (tokenOnDec (tokenAt d) d) := by
  have hrest := h.rest
  have hparse := decoderAgreesWithParse s
  cases hdec : decode s with
  | ok p =>
    obtain ⟨i, rest⟩ := p
    obtain ⟨hwf, rfl⟩ := encode_of_decode hdec
    rw [← hrest] at hdec
    rw [← decode_remaining_eq_ok hip hdec]
    exact tokenOnDec_meets hwf h
  | error err =>
    rw [hdec] at hparse
    rw [← hrest] at hdec
    obtain ⟨d₀, hraise⟩ := tokenOnDec_cut (tokenAt d) hip (decode_remaining_eq_error hip hdec)
    rw [hraise, decodeOne_truncated hparse]
    exact succeeds_ok (.raised _ d₀)

end Sys2Proof.Proofs
end

section
/-! Whole jobs (spec/40_decoder_control.md R118, R119, R122 (a)): a job is a run of turns of `DEC`, whole tokens and then its end. The
block takes those turns, and the sequencer takes the byte steps of each. -/

namespace Sys2Proof.Proofs

open Sys2Proof.Machine Sys2Proof.Laws

variable {d d' e : Dec} {k n : Nat} {s out stream : List Byte}

/-! ### A job as a run of turns -/

/-- A running job between two tokens, with its cursors in bounds. -/
structure AtToken (d : Dec) : Prop where
  phase : d.phase = .fetch
  ipBound : d.ip.toNat ≤ d.job.inLen.toNat
  opBound : d.op.toNat ≤ d.job.outCap.toNat

/-- From between two tokens, `k` turns of `DEC` end the job in `e`. -/
inductive RunsTo : Nat → Dec → Dec → Prop
  | last {d e : Dec} (hat : AtToken d) (hturn : turnOnDec d = .ok e) (hdone : e.phase = .done) : RunsTo 1 d e
  | token {k : Nat} {d d' e : Dec} (hat : AtToken d) (hturn : turnOnDec d = .ok d') (hrest : RunsTo k d' e) : RunsTo (k + 1) d e

theorem RunsTo.at_token (h : RunsTo k d e) : AtToken d := by
  cases h with
  | last hat _ _ => exact hat
  | token hat _ _ => exact hat

theorem BetweenTokens.atToken (h : BetweenTokens s out d) : AtToken d := ⟨h.phase, h.ipBound, h.opBound⟩

theorem turnOnDec_end (hp : d.phase = .fetch) (h : d.ip = d.job.inLen) : turnOnDec d = .ok d.finish := by
  rw [turnOnDec, if_pos hp, if_pos (atEnd_of_eq h)]

theorem turnOnDec_token (hp : d.phase = .fetch) (hip : d.ip.toNat < d.job.inLen.toNat) :
    turnOnDec d = tokenOnDec (tokenAt d) d := by
  rw [turnOnDec, if_pos hp, if_neg (by simp [atEnd_of_lt hip]), Dec.fetchToken, readIn_ok .dec hip]
  rfl

/-! ### The result of a job -/

/-- The job of `d` has ended in `e` with the result `r`: EMPTY tells an empty input, and `IN` is as it was. -/
structure Ended (r : JobResult) (d e : Dec) : Prop where
  phase : e.phase = .done
  reports : e.job.reports r
  empty : e.job.empty = decide (d.job.inLen = 0)
  inp : e.job.inp = d.job.inp

/-- A job that ends at the end of the stream has the output so far as its result (R114). -/
theorem finish_ended (h : Holds out d.job.out d.op) : Ended (.ok out) d d.finish := by
  obtain ⟨hop, hw⟩ := h
  refine ⟨rfl, ⟨rfl, hop, fun a ha => ?_⟩, rfl, rfl⟩
  rw [Dec_finish_job, succeed_read?, if_neg (by omega), hw a ha]

/-- A job that raises has read a byte, so its input is not empty (R206). -/
theorem raise_ended {kind : ErrKind} (d₀ : Dec) (hip : d.ip.toNat < d.job.inLen.toNat)
    (hinp : d₀.job.inp = d.job.inp) : Ended (.error kind) d (d₀.raise kind) := by
  refine ⟨rfl, ⟨rfl, rfl, rfl⟩, (decide_eq_false fun h => ?_).symm, hinp⟩
  rw [h] at hip
  exact Nat.not_lt_zero _ hip

theorem Ended.of_frame {r : JobResult} (h : Ended r d' e) (hf : JobFrame d.job d'.job) : Ended r d e :=
  ⟨h.phase, h.reports, by rw [h.empty, hf.inLen], by rw [h.inp, hf.inp]⟩

theorem decodeOne_length_lt {cap : Nat} {rest out' : List Byte} (h : decodeOne cap s out = .ok (rest, out')) :
    rest.length < s.length := by
  cases hparse : parseOne s with
  | none =>
    rw [decodeOne_truncated hparse] at h
    cases h
  | some p =>
    obtain ⟨t, rest'⟩ := p
    cases hexp : expandOne t out with
    | none =>
      rw [decodeOne_underflow hparse hexp] at h
      cases h
    | some out₁ =>
      simp only [decodeOne, hparse, hexp] at h
      split at h
      · cases h
      · cases h
        exact parseOne_length_lt hparse

theorem decodeAllAux_nil (cap n : Nat) (out : List Byte) : decodeAllAux cap n [] out = .ok out := by
  cases n <;> rfl

theorem job_runsTo_end (h : BetweenTokens [] out d) : RunsTo 1 d d.finish ∧ Ended (.ok out) d d.finish := by
  have hend : d.ip = d.job.inLen := by
    have hlen := remaining_length d
    have hle := h.ipBound
    rw [h.rest, List.length_nil] at hlen
    exact BitVec.eq_of_toNat_eq (by omega)
  exact ⟨.last h.atToken (turnOnDec_end h.phase hend) rfl, finish_ended h.holds⟩

/-- From between two tokens the turns of `DEC` end the job with the result of `DecodeAll` on the rest of the stream, after as many
turns as there are bytes left, and one, at most. -/
theorem job_runsTo (h : BetweenTokens s out d) (hs : s.length ≤ n) :
    ∃ k e, k ≤ s.length + 1 ∧ RunsTo k d e ∧ Ended (decodeAllAux d.job.outCap.toNat n s out) d e := by
  induction n generalizing s out d with
  | zero =>
    obtain rfl := List.length_eq_zero_iff.mp (Nat.le_zero.mp hs)
    obtain ⟨hrun, hend⟩ := job_runsTo_end h
    exact ⟨1, _, le_rfl, hrun, hend⟩
  | succ n ih =>
    cases s with
    | nil =>
      obtain ⟨hrun, hend⟩ := job_runsTo_end h
      exact ⟨1, _, le_rfl, hrun, by rwa [decodeAllAux_nil]⟩
    | cons c s =>
      have hip : d.ip.toNat < d.job.inLen.toNat := by
        have hlen := remaining_length d
        rw [h.rest, List.length_cons] at hlen
        omega
      obtain ⟨d', htok, hmeets⟩ := tokenAt_meets h hip
      have hturn := (turnOnDec_token h.phase hip).trans htok
      have hf : JobFrame d.job d'.job := turnOnDec_frame (.refl _) d' hturn
      rw [decodeAllAux_cons]
      generalize hone : decodeOne d.job.outCap.toNat (c :: s) out = r at hmeets
      cases hmeets with
      | raised kind d₀ => exact ⟨1, _, by omega, .last h.atToken hturn rfl, raise_ended d₀ hip hf.inp⟩
      | completed h' =>
        have hlt := decodeOne_length_lt hone
        obtain ⟨k, e, hk, hrun, hend⟩ := ih h' (by omega)
        rw [hf.outCap] at hend
        exact ⟨k + 1, e, by omega, .token h.atToken hturn hrun, hend.of_frame hf⟩

/-! ### From the launch -/

/-- `START` leaves the job between two tokens: all of the stream ahead and no output (R110). -/
theorem launched_betweenTokens (h : d.launched stream) : BetweenTokens stream [] d := by
  obtain ⟨hp, hip, hop, hlen, hbytes⟩ := h
  have hrest : d.remaining = stream := by
    refine List.ext_getElem (by rw [remaining_length, hip, hlen]; rfl) fun a _ ha => ?_
    have hbyte := hbytes a ha
    rw [List.getD_eq_getElem _ _ ha] at hbyte
    simpa [Dec.remaining, hip] using hbyte
  exact ⟨hp, by rw [hip]; exact Nat.zero_le _, hrest, by rw [hop]; exact Nat.zero_le _, by rw [hop]; rfl, nofun⟩

theorem launched_runsTo (h : d.launched stream) : ∃ k e, k ≤ stream.length + 1 ∧ RunsTo k d e
    ∧ Ended (decodeAll stream d.job.outCap.toNat) d e :=
  job_runsTo (launched_betweenTokens h) le_rfl

theorem launched_inLen_eq_zero (h : d.launched stream) : d.job.inLen = 0 ↔ stream = [] := by
  obtain ⟨-, -, -, hlen, -⟩ := h
  rw [← List.length_eq_zero_iff, ← hlen]
  exact ⟨fun h0 => by rw [h0]; rfl, word_eq_zero⟩

theorem Ended.empty_eq {r : JobResult} (h : Ended r d e) (hl : d.launched stream) : e.job.empty = decide (stream = []) := by
  rw [h.empty, decide_eq_decide]
  exact launched_inLen_eq_zero hl

/-! ### The steps of the block -/

theorem run_succ {s t : State} (h : step s = .next t) (k : Nat) :
    Sys2Proof.core.run (k + 1) s = Sys2Proof.core.run k t := by
  have hs : Sys2Proof.core.step s = .next t := h
  simp only [Host.Core.run, hs]

/-- With no move listed the block takes the turns of a running `DEC` (log 11). -/
theorem step_turn {s : State} (hm : s.moves = []) (hb : s.dec.phase.busy = true) (h : turnOnDec s.dec = .ok d) :
    step s = .next { s with dec := d } := by
  have hnext : s.nextMove = some (.run .dec, s) := by simp [State.nextMove, hm, hb]
  rw [step_dec hnext, decTurn_eq_ofDec, h, State_ofDec_ok]

theorem AtToken.busy (h : AtToken d) : d.phase.busy = true := by rw [h.phase]; rfl

/-- The block's own steps are those turns, and leave the rest of the block as it was. -/
theorem RunsTo.run (h : RunsTo k d e) {s : State} (hm : s.moves = []) (hd : s.dec = d) :
    Sys2Proof.core.run k s = .next { s with dec := e } := by
  induction h generalizing s with
  | last hat hturn _ =>
    subst hd
    exact run_succ (step_turn hm hat.busy hturn) 0
  | token hat hturn _ ih =>
    subst hd
    rw [run_succ (step_turn hm hat.busy hturn)]
    exact ih hm rfl

/-- Settles O31: the turns from the launch end the job with the result of `DecodeAll` (`job_runsTo`), and the block takes them
(`RunsTo.run`). -/
theorem blockComputesDecodeAll : Obligations.BlockComputesDecodeAll := by
  unfold Obligations.BlockComputesDecodeAll
  intro stream s hm hl
  obtain ⟨k, e, hk, hrun, hend⟩ := launched_runsTo hl
  exact ⟨k, { s with dec := e }, hk, hrun.run hm rfl, hend.phase, hend.reports, hend.empty_eq hl, hend.inp, rfl, rfl, hm⟩

/-! ### The steps of the sequencer -/

theorem byteSteps_add (m n : Nat) (d : Dec) : Dec.byteSteps (m + n) d = Dec.byteSteps m d >>= Dec.byteSteps n := by
  induction m generalizing d with
  | zero => rw [Nat.zero_add]; rfl
  | succ m ih =>
    rw [Nat.succ_add, Dec.byteSteps, Dec.byteSteps]
    cases d.byteStep with
    | error f => rfl
    | ok d' => exact ih d'

/-- A turn from between two tokens is the byte steps of a token, or the step that ends the job (R113, R114). -/
theorem turn_tokenSteps (hat : AtToken d) (h : turnOnDec d = .ok e) : ∃ n, TokenSteps n d e := by
  obtain ⟨hp, hip, hop⟩ := hat
  by_cases hend : d.ip = d.job.inLen
  · cases (turnOnDec_end hp hend).symm.trans h
    have hstep := (byteStep_fetch hp).trans (fetchStep_end hend)
    exact ⟨1, by rw [byteSteps_succ hstep]; rfl, nofun, fun _ => by omega⟩
  · have hlt := word_lt_of_ne hip hend
    rw [turnOnDec_token hp hlt] at h
    obtain ⟨n, -, -, hsteps⟩ := token_tokenSteps hp hlt hop h
    exact ⟨n, hsteps⟩

/-- The byte steps of those turns: no more than there are bytes left to read and to write, and one (R118). -/
theorem RunsTo.byteSteps (h : RunsTo k d e) :
    ∃ n, n + d.ip.toNat + d.op.toNat ≤ d.job.inLen.toNat + d.job.outCap.toNat + 1 ∧ Dec.byteSteps n d = .ok e := by
  induction h with
  | last hat hturn hdone =>
    obtain ⟨n, hsteps, -, hraises⟩ := turn_tokenSteps hat hturn
    have hn := hraises hdone
    have hop := hat.opBound
    exact ⟨n, by omega, hsteps⟩
  | @token k d d' e hat hturn hrest ih =>
    obtain ⟨n, hsteps, hcompletes, -⟩ := turn_tokenSteps hat hturn
    have hn := hcompletes hrest.at_token.phase
    have hf : JobFrame d.job d'.job := turnOnDec_frame (.refl _) d' hturn
    obtain ⟨n', hn', hsteps'⟩ := ih
    rw [hf.inLen, hf.outCap] at hn'
    exact ⟨n + n', by omega, by rw [byteSteps_add, hsteps, except_ok_bind, hsteps']⟩

/-- From a launch the sequencer ends the job with the result of `DecodeAll`. -/
theorem launched_byteSteps (h : d.launched stream) : ∃ n e, n ≤ d.job.inLen.toNat + d.job.outCap.toNat + 1
    ∧ Dec.byteSteps n d = .ok e ∧ Ended (decodeAll stream d.job.outCap.toNat) d e := by
  obtain ⟨k, e, -, hrun, hend⟩ := launched_runsTo h
  obtain ⟨n, hn, hsteps⟩ := hrun.byteSteps
  exact ⟨n, e, by omega, hsteps, hend⟩

/-- Settles O30: the same turns (`job_runsTo`), each by its byte steps, which are as many as `RunsTo.byteSteps` counts. -/
theorem sequencerComputesDecodeAll : Obligations.SequencerComputesDecodeAll := by
  unfold Obligations.SequencerComputesDecodeAll
  intro stream d hl
  obtain ⟨n, e, hn, hsteps, hend⟩ := launched_byteSteps hl
  exact ⟨n, e, hn, hsteps, hend.phase, hend.reports, hend.empty_eq hl, hend.inp⟩

end Sys2Proof.Proofs
end

section
/-! Two jobs side by side (spec/20_memory.md R61, spec/40_decoder_control.md R117, spec/10_state.md R37 (g)): engines that agree on the
cursors, on the registers their phase relies on and on the output so far go on agreeing while the bytes they read agree. -/

namespace Sys2Proof.Proofs

open Sys2Proof.Machine Sys2Proof.Laws

variable {d d₁ d₂ e e₁ e₂ : Dec} {n : Nat}

/-! ### What two engines agree on -/

/-- Below `op` both memories hold the same known bytes. -/
def SameOutput (op : Word) (m₁ m₂ : Memory) : Prop :=
  ∀ a, a < op.toNat → ∃ b, m₁.read? a = some b ∧ m₂.read? a = some b

/-- Two engines agree on what their steps depend on: phase, cursors, the working registers the phase relies on, the output so far. -/
structure SameJob (d₁ d₂ : Dec) : Prop where
  phase : d₂.phase = d₁.phase
  ip : d₂.ip = d₁.ip
  op : d₂.op = d₁.op
  ctrl : d₁.phase ≠ .fetch → d₂.ctrl = d₁.ctrl
  len : d₁.phase ≠ .fetch → d₁.phase ≠ .ext → d₂.len = d₁.len
  dist : d₁.phase = .copy → d₂.dist = d₁.dist
  output : SameOutput d₁.op d₁.job.out d₂.job.out

/-- Two engines have the same stream and the same capacity. -/
structure SameInput (d₁ d₂ : Dec) : Prop where
  inLen : d₂.job.inLen = d₁.job.inLen
  outCap : d₂.job.outCap = d₁.job.outCap
  bytes : ∀ a, a < d₁.job.inLen.toNat → d₂.job.inByte .dec a = d₁.job.inByte .dec a

/-- What one step each makes of two engines that agree: if both still run and have read the same byte, if any, they agree; and with
the same input both still run or neither does. -/
structure Lockstep (d₁ d₂ e₁ e₂ : Dec) : Prop where
  running : e₁.phase.busy = true → e₂.phase.busy = true → (d₁.ip.toNat < e₁.ip.toNat → ipByte d₂ = ipByte d₁) → SameJob e₁ e₂
  ending : SameInput d₁ d₂ → e₁.phase.busy = e₂.phase.busy

theorem sameOutput_write {op cap : Word} {m₁ m₂ : Memory} (h : SameOutput op m₁ m₂) (b : Byte) (ho : op.toNat < cap.toNat) :
    SameOutput (op + 1) (m₁.write op.toNat b) (m₂.write op.toNat b) := by
  intro a ha
  rw [word_succ_toNat ho] at ha
  rw [read?_write, read?_write]
  split
  · exact ⟨b, rfl, rfl⟩
  · exact h a (by omega)

theorem SameOutput.outByte_eq {op : Word} (h : SameOutput op d₁.job.out d₂.job.out) {a : Nat} (ha : a < op.toNat) :
    d₂.job.outByte .dec a = d₁.job.outByte .dec a := by
  obtain ⟨b, h₁, h₂⟩ := h a ha
  rw [Job.outByte, Job.outByte, h₁, h₂, Option.getD_some, Option.getD_some]

/-! ### Rules for steps in lockstep -/

/-- A step that agrees on running and on what it leaves. -/
theorem lockstep_of_same (h : SameJob e₁ e₂) : Lockstep d₁ d₂ e₁ e₂ :=
  ⟨fun _ _ _ => h, fun _ => by rw [h.phase]⟩

/-- A test that ends the job, and that the same input decides the same way. -/
theorem lockstep_guard {c₁ c₂ : Prop} [Decidable c₁] [Decidable c₂] {a₁ a₂ b₁ b₂ : Dec} (hc : SameInput d₁ d₂ → (c₁ ↔ c₂))
    (ha₁ : a₁.phase = .done) (ha₂ : a₂.phase = .done) (h : ¬ c₁ → ¬ c₂ → Lockstep d₁ d₂ b₁ b₂) :
    Lockstep d₁ d₂ (if c₁ then a₁ else b₁) (if c₂ then a₂ else b₂) := by
  have hnot : ∀ {a : Dec} {p : Prop}, a.phase = .done → a.phase.busy = true → p := fun ha hb => by
    rw [ha] at hb
    cases hb
  by_cases h₁ : c₁ <;> by_cases h₂ : c₂
  · rw [if_pos h₁, if_pos h₂]
    exact ⟨fun hb => hnot ha₁ hb, fun _ => by rw [ha₁, ha₂]⟩
  · rw [if_pos h₁, if_neg h₂]
    exact ⟨fun hb => hnot ha₁ hb, fun hs => absurd ((hc hs).1 h₁) h₂⟩
  · rw [if_neg h₁, if_pos h₂]
    exact ⟨fun _ hb => hnot ha₂ hb, fun hs => absurd ((hc hs).2 h₂) h₁⟩
  · rw [if_neg h₁, if_neg h₂]
    exact h h₁ h₂

/-- A step that reads the byte at `ip` and moves past it. -/
theorem lockstep_read (h : SameJob d₁ d₂) (hip : d₁.ip.toNat < d₁.job.inLen.toNat) (he : e₁.ip = d₁.ip + 1)
    (hread : ipByte d₂ = ipByte d₁ → Lockstep d₁ d₂ e₁ e₂) : Lockstep d₁ d₂ e₁ e₂ := by
  have hip1 := word_succ_toNat hip
  refine ⟨fun hb₁ hb₂ hbyte => ?_, fun hs => (hread ?_).ending hs⟩
  · exact (hread (hbyte (by rw [he]; omega))).running hb₁ hb₂ hbyte
  · rw [ipByte, h.ip]
    exact hs.bytes _ hip

/-! ### What a byte step answers, by phase -/

/-- A phase that tests for the end of the stream and then reads answers inside `IN` or at its end only (R58 (a)). -/
theorem reads_inside {a : Dec} {f : Byte → Except Fault Dec}
    (h : (if d.atEnd then .ok a else d.job.readIn .dec d.ip.toNat >>= f) = .ok e) :
    d.ip = d.job.inLen ∨ d.ip ≠ d.job.inLen ∧ d.ip.toNat < d.job.inLen.toNat := by
  by_cases hend : d.ip = d.job.inLen
  · exact .inl hend
  · rw [if_neg (by simp [Dec.atEnd, hend])] at h
    obtain ⟨b, hb, -⟩ := bind_eq_ok h
    rw [Job.readIn] at hb
    split at hb
    · next hlt => exact .inr ⟨hend, hlt⟩
    · cases hb

/-- What a FETCH step leaves (R111, R112). -/
def afterFetch (d : Dec) : Dec :=
  if d.ip = d.job.inLen then d.finish else Dec.dispatch (ipByte d) { d with ip := d.ip + 1, ctrl := ipByte d }

/-- What an EXT step leaves (R144). -/
def afterExt (d : Dec) : Dec :=
  if d.ip = d.job.inLen then d.raise .dataCorruption
  else { d with ip := d.ip + 1, len := longLength (ipByte d), phase := .low }

/-- What a LOW step leaves (R145). -/
def afterLow (d : Dec) : Dec :=
  if d.ip = d.job.inLen then d.raise .dataCorruption
  else if d.op.toNat < (lowDistance d).toNat then Dec.raise .dataCorruption { d with ip := d.ip + 1 }
  else if d.job.outCap.toNat - d.op.toNat < d.len.toNat then Dec.raise .insufficientBuffer { d with ip := d.ip + 1 }
  else { d with ip := d.ip + 1, dist := lowDistance d, phase := .copy }

/-- What a copy phase leaves when the byte is `b` and `ip` is moved to `ip` (R131, R143). -/
def afterCopyByte (d : Dec) (b : Byte) (ip : Word) : Dec :=
  { d with
    job := { d.job with out := d.job.out.write d.op.toNat b }
    phase := d.afterCopy d.phase
    ip := ip
    op := d.op + 1
    len := d.len - 1 }

theorem fetchStep_answer (h : d.fetchStep = .ok e) :
    e = afterFetch d ∧ (d.ip ≠ d.job.inLen → d.ip.toNat < d.job.inLen.toNat) := by
  rcases reads_inside h with hend | ⟨hne, hlt⟩
  · cases (fetchStep_end hend).symm.trans h
    exact ⟨(if_pos hend).symm, absurd hend⟩
  · cases (fetchStep_ok hlt).symm.trans h
    exact ⟨(if_neg hne).symm, fun _ => hlt⟩

theorem extStep_answer (h : d.extStep = .ok e) :
    e = afterExt d ∧ (d.ip ≠ d.job.inLen → d.ip.toNat < d.job.inLen.toNat) := by
  rcases reads_inside h with hend | ⟨hne, hlt⟩
  · cases (extStep_end hend).symm.trans h
    exact ⟨(if_pos hend).symm, absurd hend⟩
  · cases (extStep_ok hlt).symm.trans h
    exact ⟨(if_neg hne).symm, fun _ => hlt⟩

theorem lowStep_answer (h : d.lowStep = .ok e) :
    e = afterLow d ∧ (d.ip ≠ d.job.inLen → d.ip.toNat < d.job.inLen.toNat) := by
  rcases reads_inside h with hend | ⟨hne, hlt⟩
  · cases (lowStep_end hend).symm.trans h
    exact ⟨(if_pos hend).symm, absurd hend⟩
  · refine ⟨?_, fun _ => hlt⟩
    rw [afterLow, if_neg hne]
    rcases Nat.lt_or_ge d.op.toNat (lowDistance d).toNat with hback | hback
    · cases (lowStep_underflow hlt hback).symm.trans h
      rw [if_pos hback]
    rw [if_neg (Nat.not_lt.mpr hback)]
    rcases Nat.lt_or_ge (d.job.outCap.toNat - d.op.toNat) d.len.toNat with hroom | hroom
    · cases (lowStep_noRoom hlt hback hroom).symm.trans h
      rw [if_pos hroom]
    · cases (lowStep_ok hlt hback hroom).symm.trans h
      rw [if_neg (Nat.not_lt.mpr hroom)]

theorem litStep_answer (hp : d.phase = .lit) (h : d.litStep = .ok e) : d.ip.toNat < d.job.inLen.toNat
    ∧ d.op.toNat < d.job.outCap.toNat ∧ e = afterCopyByte d (ipByte d) (d.ip + 1) := by
  obtain ⟨b, hb, h⟩ := bind_eq_ok h
  obtain ⟨d₁, hd₁, h⟩ := bind_eq_ok h
  obtain ⟨hop, hip, rfl⟩ := literalByte_answers b d d₁ hd₁
  cases (readIn_ok .dec hip).symm.trans hb
  cases h
  exact ⟨hip, hop, by rw [afterCopyByte, hp]⟩

theorem copyStep_answer (hp : d.phase = .copy) (h : d.copyStep = .ok e) : 1 ≤ d.dist.toNat ∧ d.dist.toNat ≤ d.op.toNat
    ∧ d.op.toNat < d.job.outCap.toNat ∧ e = afterCopyByte d (d.job.outByte .dec (d.op.toNat - d.dist.toNat)) d.ip := by
  obtain ⟨d₁, hd₁, h⟩ := bind_eq_ok h
  obtain ⟨b, hb, hput⟩ := bind_eq_ok hd₁
  obtain ⟨hop, rfl⟩ := putByte_answers b d d₁ hput
  rw [Dec.readBack] at hb
  split at hb
  · next hdist =>
    cases hb
    cases h
    exact ⟨hdist.1, hdist.2, hop, by rw [afterCopyByte, hp]⟩
  · cases hb

/-! ### Where `ip` moves (R24) -/

@[simp] theorem dispatch_ip (c : Byte) (d : Dec) : (d.dispatch c).ip = d.ip := by
  unfold Dec.dispatch
  split
  · split
    · rfl
    · split <;> rfl
  · split <;> rfl

theorem afterFetch_ip (h : d.ip ≠ d.job.inLen) : (afterFetch d).ip = d.ip + 1 := by
  rw [afterFetch, if_neg h, dispatch_ip]

theorem afterExt_ip (h : d.ip ≠ d.job.inLen) : (afterExt d).ip = d.ip + 1 := by
  rw [afterExt, if_neg h]

theorem afterLow_ip (h : d.ip ≠ d.job.inLen) : (afterLow d).ip = d.ip + 1 := by
  rw [afterLow, if_neg h]
  split
  · rfl
  · split <;> rfl

/-- A byte step leaves `ip` or moves it past one byte of `IN`. -/
theorem byteStep_ip (h : d.byteStep = .ok e) :
    e.ip = d.ip ∨ d.ip.toNat < d.job.inLen.toNat ∧ e.ip = d.ip + 1 := by
  cases hp : d.phase
  case idle | done =>
    cases (byteStep_not_busy (by rw [hp]; rfl)).symm.trans h
    exact .inl rfl
  case fetch =>
    obtain ⟨rfl, hlt⟩ := fetchStep_answer (byteStep_fetch hp ▸ h)
    by_cases hend : d.ip = d.job.inLen
    · exact .inl (by rw [afterFetch, if_pos hend]; rfl)
    · exact .inr ⟨hlt hend, afterFetch_ip hend⟩
  case lit =>
    obtain ⟨hip, -, rfl⟩ := litStep_answer hp (byteStep_lit hp ▸ h)
    exact .inr ⟨hip, rfl⟩
  case ext =>
    obtain ⟨rfl, hlt⟩ := extStep_answer (byteStep_ext hp ▸ h)
    by_cases hend : d.ip = d.job.inLen
    · exact .inl (by rw [afterExt, if_pos hend]; rfl)
    · exact .inr ⟨hlt hend, afterExt_ip hend⟩
  case low =>
    obtain ⟨rfl, hlt⟩ := lowStep_answer (byteStep_low hp ▸ h)
    by_cases hend : d.ip = d.job.inLen
    · exact .inl (by rw [afterLow, if_pos hend]; rfl)
    · exact .inr ⟨hlt hend, afterLow_ip hend⟩
  case copy =>
    obtain ⟨-, -, -, rfl⟩ := copyStep_answer hp (byteStep_copy hp ▸ h)
    exact .inl rfl

/-! ### The steps in lockstep -/

theorem sameInput_atEnd (h : SameJob d₁ d₂) (hs : SameInput d₁ d₂) : d₁.ip = d₁.job.inLen ↔ d₂.ip = d₂.job.inLen := by
  rw [h.ip, hs.inLen]

theorem dispatch_lockstep (c : Byte) (hip : e₂.ip = e₁.ip) (hop : e₂.op = e₁.op) (hctrl : e₂.ctrl = e₁.ctrl)
    (hout : SameOutput e₁.op e₁.job.out e₂.job.out)
    (hs : SameInput d₁ d₂ → e₂.job.inLen = e₁.job.inLen ∧ e₂.job.outCap = e₁.job.outCap) :
    Lockstep d₁ d₂ (e₁.dispatch c) (e₂.dispatch c) := by
  unfold Dec.dispatch
  by_cases hc : c.toNat < 32
  · rw [if_pos hc, if_pos hc]
    refine lockstep_guard (fun h => by rw [hip, (hs h).1]) rfl rfl fun _ _ =>
      lockstep_guard (fun h => by rw [hop, (hs h).2]) rfl rfl fun _ _ => ?_
    exact lockstep_of_same ⟨rfl, hip, hop, fun _ => hctrl, fun _ _ => rfl, nofun, hout⟩
  rw [if_neg hc, if_neg hc]
  by_cases h7 : lcode c = 7
  · rw [if_pos h7, if_pos h7]
    exact lockstep_of_same ⟨rfl, hip, hop, fun _ => hctrl, fun _ h => absurd rfl h, nofun, hout⟩
  · rw [if_neg h7, if_neg h7]
    exact lockstep_of_same ⟨rfl, hip, hop, fun _ => hctrl, fun _ _ => rfl, nofun, hout⟩

theorem fetch_lockstep (h : SameJob d₁ d₂) (h₁ : d₁.fetchStep = .ok e₁) (h₂ : d₂.fetchStep = .ok e₂) :
    Lockstep d₁ d₂ e₁ e₂ := by
  obtain ⟨rfl, hlt⟩ := fetchStep_answer h₁
  obtain ⟨rfl, -⟩ := fetchStep_answer h₂
  refine lockstep_guard (sameInput_atEnd h) rfl rfl fun hne _ => lockstep_read h (hlt hne) (dispatch_ip _ _) fun hb => ?_
  rw [hb]
  exact dispatch_lockstep _ (congrArg (· + 1) h.ip) h.op rfl h.output fun hs => ⟨hs.inLen, hs.outCap⟩

theorem ext_lockstep (h : SameJob d₁ d₂) (hp : d₁.phase = .ext) (h₁ : d₁.extStep = .ok e₁) (h₂ : d₂.extStep = .ok e₂) :
    Lockstep d₁ d₂ e₁ e₂ := by
  obtain ⟨rfl, hlt⟩ := extStep_answer h₁
  obtain ⟨rfl, -⟩ := extStep_answer h₂
  refine lockstep_guard (sameInput_atEnd h) rfl rfl fun hne _ => lockstep_read h (hlt hne) rfl fun hb => lockstep_of_same ?_
  rw [hb]
  exact ⟨rfl, congrArg (· + 1) h.ip, h.op, fun _ => h.ctrl (by rw [hp]; nofun), fun _ _ => rfl, nofun, h.output⟩

theorem low_lockstep (h : SameJob d₁ d₂) (hp : d₁.phase = .low) (h₁ : d₁.lowStep = .ok e₁) (h₂ : d₂.lowStep = .ok e₂) :
    Lockstep d₁ d₂ e₁ e₂ := by
  obtain ⟨rfl, hlt⟩ := lowStep_answer h₁
  obtain ⟨rfl, -⟩ := lowStep_answer h₂
  have hctrl : d₂.ctrl = d₁.ctrl := h.ctrl (by rw [hp]; nofun)
  have hlen : d₂.len = d₁.len := h.len (by rw [hp]; nofun) (by rw [hp]; nofun)
  refine lockstep_guard (sameInput_atEnd h) rfl rfl fun hne _ =>
    lockstep_read h (hlt hne) (by have := afterLow_ip hne; rwa [afterLow, if_neg hne] at this) fun hb => ?_
  have hdist : lowDistance d₂ = lowDistance d₁ := by rw [lowDistance, hctrl, hb]
  rw [hdist, hlen, h.op]
  refine lockstep_guard (fun _ => Iff.rfl) rfl rfl fun _ _ =>
    lockstep_guard (fun hs => by rw [hs.outCap]) rfl rfl fun _ _ => lockstep_of_same ?_
  exact ⟨rfl, congrArg (· + 1) h.ip, rfl, fun _ => hctrl, fun _ _ => rfl, fun _ => rfl, h.output⟩

/-- A copy phase that moves the same byte in both engines. -/
theorem afterCopyByte_same (h : SameJob d₁ d₂) (hp : d₁.phase = .lit ∨ d₁.phase = .copy) (b : Byte) {ip₁ ip₂ : Word}
    (hip : ip₂ = ip₁) (ho : d₁.op.toNat < d₁.job.outCap.toNat) :
    SameJob (afterCopyByte d₁ b ip₁) (afterCopyByte d₂ b ip₂) := by
  have hf : d₁.phase ≠ .fetch := by rcases hp with hp | hp <;> rw [hp] <;> nofun
  have he : d₁.phase ≠ .ext := by rcases hp with hp | hp <;> rw [hp] <;> nofun
  have hlen := h.len hf he
  refine ⟨?_, hip, congrArg (· + 1) h.op, fun _ => h.ctrl hf, fun _ _ => congrArg (· - 1) hlen, fun hc => ?_, ?_⟩
  · simp only [afterCopyByte, Dec.afterCopy, hlen, h.phase]
  · refine h.dist ?_
    simp only [afterCopyByte, Dec.afterCopy] at hc
    split at hc
    · cases hc
    · exact hc
  · simp only [afterCopyByte, h.op]
    exact sameOutput_write h.output b ho

theorem lit_lockstep (h : SameJob d₁ d₂) (hp : d₁.phase = .lit) (h₁ : d₁.litStep = .ok e₁) (h₂ : d₂.litStep = .ok e₂) :
    Lockstep d₁ d₂ e₁ e₂ := by
  obtain ⟨hip, hop, rfl⟩ := litStep_answer hp h₁
  obtain ⟨-, -, rfl⟩ := litStep_answer (h.phase.trans hp) h₂
  refine lockstep_read h hip rfl fun hb => lockstep_of_same ?_
  rw [hb]
  exact afterCopyByte_same h (.inl hp) _ (congrArg (· + 1) h.ip) hop

theorem copy_lockstep (h : SameJob d₁ d₂) (hp : d₁.phase = .copy) (h₁ : d₁.copyStep = .ok e₁) (h₂ : d₂.copyStep = .ok e₂) :
    Lockstep d₁ d₂ e₁ e₂ := by
  obtain ⟨hd1, hback, hop, rfl⟩ := copyStep_answer hp h₁
  obtain ⟨-, -, -, rfl⟩ := copyStep_answer (h.phase.trans hp) h₂
  have hb := h.output.outByte_eq (a := d₁.op.toNat - d₁.dist.toNat) (by omega)
  rw [h.op, h.dist hp, hb]
  exact lockstep_of_same (afterCopyByte_same h (.inr hp) _ h.ip hop)

theorem byteStep_lockstep (h : SameJob d₁ d₂) (h₁ : d₁.byteStep = .ok e₁) (h₂ : d₂.byteStep = .ok e₂) :
    Lockstep d₁ d₂ e₁ e₂ := by
  have hp₂ := h.phase
  cases hp : d₁.phase
  all_goals rw [hp] at hp₂
  case idle | done =>
    cases (byteStep_not_busy (by rw [hp]; rfl)).symm.trans h₁
    cases (byteStep_not_busy (by rw [hp₂]; rfl)).symm.trans h₂
    exact lockstep_of_same h
  case fetch => exact fetch_lockstep h (byteStep_fetch hp ▸ h₁) (byteStep_fetch hp₂ ▸ h₂)
  case lit => exact lit_lockstep h hp (byteStep_lit hp ▸ h₁) (byteStep_lit hp₂ ▸ h₂)
  case ext => exact ext_lockstep h hp (byteStep_ext hp ▸ h₁) (byteStep_ext hp₂ ▸ h₂)
  case low => exact low_lockstep h hp (byteStep_low hp ▸ h₁) (byteStep_low hp₂ ▸ h₂)
  case copy => exact copy_lockstep h hp (byteStep_copy hp ▸ h₁) (byteStep_copy hp₂ ▸ h₂)

end Sys2Proof.Proofs
end

section
/-! Two launched jobs: the result depends on the stream and the capacity alone, and the output of a running job on the bytes of `IN`
read so far (spec/20_memory.md R61, spec/40_decoder_control.md R117, spec/10_state.md R37 (g)). -/

namespace Sys2Proof.Proofs

open Sys2Proof.Machine Sys2Proof.Laws

variable {d e d₁ d₂ e₁ e₂ : Dec} {n m : Nat} {stream stream₁ stream₂ : List Byte}

/-! ### What any number of byte steps keeps -/

theorem byteSteps_succ_eq_ok (h : Dec.byteSteps (n + 1) d = .ok e) :
    ∃ d', d.byteStep = .ok d' ∧ Dec.byteSteps n d' = .ok e := bind_eq_ok h

theorem byteSteps_not_busy (hb : d.phase.busy = false) (n : Nat) : Dec.byteSteps n d = .ok d := by
  induction n with
  | zero => rfl
  | succ n ih => rw [byteSteps_succ (byteStep_not_busy hb), ih]

/-- An engine that still runs has been running. -/
theorem busy_of_byteSteps (h : Dec.byteSteps n d = .ok e) (hb : e.phase.busy = true) : d.phase.busy = true := by
  by_contra hd
  cases (byteSteps_not_busy (Bool.eq_false_iff.2 hd) n).symm.trans h
  exact hd hb

/-- `ip` never moves back, nor past the end of `IN` (R24, R37 (a)). -/
theorem byteSteps_ip (h : Dec.byteSteps n d = .ok e) :
    d.ip.toNat ≤ e.ip.toNat ∧ (d.ip.toNat ≤ d.job.inLen.toNat → e.ip.toNat ≤ d.job.inLen.toNat) := by
  induction n generalizing d with
  | zero =>
    cases h
    exact ⟨le_rfl, id⟩
  | succ n ih =>
    obtain ⟨d', hstep, hrest⟩ := byteSteps_succ_eq_ok h
    have hf : JobFrame d.job d'.job := byteStep_frame (.refl _) d' hstep
    obtain ⟨hle, hin⟩ := ih hrest
    rw [hf.inLen] at hin
    rcases byteStep_ip hstep with hip | ⟨hlt, hip⟩
    · rw [hip] at hle hin
      exact ⟨hle, hin⟩
    · rw [hip, word_succ_toNat hlt] at hle hin
      exact ⟨by omega, fun _ => hin hlt⟩

theorem JobFrame.inByte_eq {j k : Job} (h : JobFrame j k) (u : Engine) (a : Nat) : k.inByte u a = j.inByte u a := by
  rw [Job.inByte, Job.inByte, h.inp]

theorem SameInput.of_frames (h : SameInput d₁ d₂) (h₁ : JobFrame d₁.job e₁.job) (h₂ : JobFrame d₂.job e₂.job) :
    SameInput e₁ e₂ :=
  ⟨by rw [h₁.inLen, h₂.inLen, h.inLen], by rw [h₁.outCap, h₂.outCap, h.outCap], fun a ha => by
    rw [h₁.inByte_eq, h₂.inByte_eq, h.bytes a (by rw [← h₁.inLen]; exact ha)]⟩

/-! ### Two engines that agree, step by step -/

/-- Both engines still run after the same number of steps: if the bytes read are the same, they agree still. -/
theorem byteSteps_running (h : SameJob d₁ d₂) (h₁ : Dec.byteSteps n d₁ = .ok e₁) (h₂ : Dec.byteSteps n d₂ = .ok e₂)
    (hb₁ : e₁.phase.busy = true) (hb₂ : e₂.phase.busy = true)
    (hbytes : ∀ a, a < e₁.ip.toNat → d₂.job.inByte .dec a = d₁.job.inByte .dec a) : SameJob e₁ e₂ := by
  induction n generalizing d₁ d₂ with
  | zero =>
    cases h₁
    cases h₂
    exact h
  | succ n ih =>
    obtain ⟨m₁, hstep₁, hrest₁⟩ := byteSteps_succ_eq_ok h₁
    obtain ⟨m₂, hstep₂, hrest₂⟩ := byteSteps_succ_eq_ok h₂
    have hf₁ : JobFrame d₁.job m₁.job := byteStep_frame (.refl _) m₁ hstep₁
    have hf₂ : JobFrame d₂.job m₂.job := byteStep_frame (.refl _) m₂ hstep₂
    have hle := (byteSteps_ip hrest₁).1
    have hread : d₁.ip.toNat < m₁.ip.toNat → ipByte d₂ = ipByte d₁ := fun hlt => by
      rw [ipByte, h.ip]
      exact hbytes _ (by omega)
    have hm := (byteStep_lockstep h hstep₁ hstep₂).running (busy_of_byteSteps hrest₁ hb₁) (busy_of_byteSteps hrest₂ hb₂) hread
    exact ih hm hrest₁ hrest₂ fun a ha => by rw [hf₁.inByte_eq, hf₂.inByte_eq, hbytes a ha]

/-- With the same input both engines still run after the same number of steps, or neither does. -/
theorem byteSteps_ending (h : SameJob d₁ d₂) (hs : SameInput d₁ d₂) (h₁ : Dec.byteSteps n d₁ = .ok e₁)
    (h₂ : Dec.byteSteps n d₂ = .ok e₂) : e₁.phase.busy = e₂.phase.busy := by
  induction n generalizing d₁ d₂ with
  | zero =>
    cases h₁
    cases h₂
    rw [h.phase]
  | succ n ih =>
    obtain ⟨m₁, hstep₁, hrest₁⟩ := byteSteps_succ_eq_ok h₁
    obtain ⟨m₂, hstep₂, hrest₂⟩ := byteSteps_succ_eq_ok h₂
    obtain ⟨hrun, hend⟩ := byteStep_lockstep h hstep₁ hstep₂
    have hbusy := hend hs
    by_cases hb₁ : m₁.phase.busy = true
    · have hread : d₁.ip.toNat < m₁.ip.toNat → ipByte d₂ = ipByte d₁ := fun hlt => by
        rcases byteStep_ip hstep₁ with hip | ⟨hin, -⟩
        · rw [hip] at hlt
          exact absurd hlt (lt_irrefl _)
        · rw [ipByte, h.ip]
          exact hs.bytes _ hin
      exact ih (hrun hb₁ (hbusy ▸ hb₁) hread)
        (hs.of_frames (byteStep_frame (.refl _) m₁ hstep₁) (byteStep_frame (.refl _) m₂ hstep₂)) hrest₁ hrest₂
    · have hb₁ := Bool.eq_false_iff.2 hb₁
      cases (byteSteps_not_busy hb₁ n).symm.trans hrest₁
      cases (byteSteps_not_busy (hbusy ▸ hb₁) n).symm.trans hrest₂
      exact hbusy

/-! ### Launched jobs -/

theorem launched_sameJob (h₁ : d₁.launched stream₁) (h₂ : d₂.launched stream₂) : SameJob d₁ d₂ := by
  obtain ⟨hp₁, hip₁, hop₁, -⟩ := h₁
  obtain ⟨hp₂, hip₂, hop₂, -⟩ := h₂
  refine ⟨by rw [hp₁, hp₂], by rw [hip₁, hip₂], by rw [hop₁, hop₂], absurd hp₁, fun hne => absurd hp₁ hne, fun hc => ?_, ?_⟩
  · rw [hp₁] at hc
    cases hc
  · rw [hop₁]
    nofun

theorem launched_sameInput (h₁ : d₁.launched stream) (h₂ : d₂.launched stream) (hcap : d₁.job.outCap = d₂.job.outCap) :
    SameInput d₁ d₂ := by
  obtain ⟨-, -, -, hlen₁, hbytes₁⟩ := h₁
  obtain ⟨-, -, -, hlen₂, hbytes₂⟩ := h₂
  refine ⟨BitVec.eq_of_toNat_eq (hlen₂.trans hlen₁.symm), hcap.symm, fun a ha => ?_⟩
  rw [hlen₁] at ha
  rw [hbytes₁ a ha, hbytes₂ a ha]

/-- Streams that agree up to some byte are in `IN` the same bytes up to there. -/
theorem launched_sameBytes (h₁ : d₁.launched stream₁) (h₂ : d₂.launched stream₂) {k : Nat} (hk : k ≤ d₁.job.inLen.toNat)
    (htake : stream₂.take k = stream₁.take k) (a : Nat) (ha : a < k) : d₂.job.inByte .dec a = d₁.job.inByte .dec a := by
  obtain ⟨-, -, -, hlen₁, hbytes₁⟩ := h₁
  obtain ⟨-, -, -, -, hbytes₂⟩ := h₂
  have hlen := congrArg List.length htake
  rw [List.length_take, List.length_take] at hlen
  have hget : stream₂[a]? = stream₁[a]? := by
    rw [← List.getElem?_take_of_lt ha, htake, List.getElem?_take_of_lt ha]
  rw [hbytes₁ a (by omega), hbytes₂ a (by omega), List.getD_eq_getElem?_getD, List.getD_eq_getElem?_getD, hget]

/-- A launched engine never faults, and once it runs no more it has ended with the result of `DecodeAll`. -/
theorem launched_byteSteps_any (h : d.launched stream) (n : Nat) : ∃ e, Dec.byteSteps n d = .ok e
    ∧ (e.phase.busy = false → Ended (decodeAll stream d.job.outCap.toNat) d e) := by
  obtain ⟨m, e', -, hsteps, hend⟩ := launched_byteSteps h
  have hall : Dec.byteSteps (n + m) d = .ok e' := by
    rw [Nat.add_comm, byteSteps_add, hsteps, except_ok_bind]
    exact byteSteps_not_busy (by rw [hend.phase]; rfl) n
  rw [byteSteps_add] at hall
  obtain ⟨e, he, hrest⟩ := bind_eq_ok hall
  refine ⟨e, he, fun hb => ?_⟩
  cases (byteSteps_not_busy hb m).symm.trans hrest
  exact hend

/-- Two interfaces that report the same result show the host the same kind, count and bytes (R61). -/
theorem reports_agree {r : JobResult} {j₁ j₂ : Job} (h₁ : j₁.reports r) (h₂ : j₂.reports r) : j₂.err = j₁.err
    ∧ j₂.count = j₁.count ∧ ∀ a, a < j₁.count.toNat → j₂.out.read? a = j₁.out.read? a := by
  cases r with
  | ok out =>
    obtain ⟨he₁, hc₁, ho₁⟩ := h₁
    obtain ⟨he₂, hc₂, ho₂⟩ := h₂
    refine ⟨he₂.trans he₁.symm, BitVec.eq_of_toNat_eq (hc₂.trans hc₁.symm), fun a ha => ?_⟩
    rw [ho₁ a (hc₁ ▸ ha), ho₂ a (hc₁ ▸ ha)]
  | error k =>
    obtain ⟨he₁, hc₁, -⟩ := h₁
    obtain ⟨he₂, hc₂, -⟩ := h₂
    refine ⟨he₂.trans he₁.symm, hc₂.trans hc₁.symm, ?_⟩
    rw [hc₁]
    nofun

/-- Settles O33: two launched engines agree (`launched_sameJob`). With the same input they end at the same step (`byteSteps_ending`),
each with the result of `DecodeAll`; while both run they agree on what they have read and written (`byteSteps_running`). -/
theorem resultDependsOnStreamAndCapacity : Obligations.ResultDependsOnStreamAndCapacity := by
  unfold Obligations.ResultDependsOnStreamAndCapacity
  refine ⟨fun stream d₁ d₂ e₁ n hl₁ hl₂ hcap h₁ hdone => ?_,
    fun stream₁ stream₂ d₁ d₂ e₁ e₂ n hl₁ hl₂ h₁ h₂ hb₁ hb₂ htake => ?_⟩
  · obtain ⟨e, he, hend₁⟩ := launched_byteSteps_any hl₁ n
    cases he.symm.trans h₁
    obtain ⟨e₂, h₂, hend₂⟩ := launched_byteSteps_any hl₂ n
    have hb₁ : e₁.phase.busy = false := by rw [hdone]; rfl
    have hb₂ := byteSteps_ending (launched_sameJob hl₁ hl₂) (launched_sameInput hl₁ hl₂ hcap) h₁ h₂
    have hend₁ := hend₁ hb₁
    have hend₂ := hend₂ (hb₂ ▸ hb₁)
    rw [← hcap] at hend₂
    obtain ⟨herr, hcount, hout⟩ := reports_agree hend₁.reports hend₂.reports
    exact ⟨e₂, h₂, hend₂.phase, herr, hcount, by rw [hend₁.empty_eq hl₁, hend₂.empty_eq hl₂], hout⟩
  · have hk : e₁.ip.toNat ≤ d₁.job.inLen.toNat := (byteSteps_ip h₁).2 (launched_betweenTokens hl₁).ipBound
    obtain ⟨-, hip, hop, -, -, -, hout⟩ := byteSteps_running (launched_sameJob hl₁ hl₂) h₁ h₂ hb₁ hb₂
      (launched_sameBytes hl₁ hl₂ hk htake)
    refine ⟨hip, hop, fun a ha => ?_⟩
    obtain ⟨b, hr₁, hr₂⟩ := hout a ha
    rw [hr₁, hr₂]

end Sys2Proof.Proofs
end

section
/-! The literal token as a whole and byte by byte, and the byte moves of COPY (spec/41_literal.md R130 to R132, spec/42_backref.md
R143). -/

namespace Sys2Proof.Proofs

open Sys2Proof.Machine Sys2Proof.Laws

/-! ### The whole token (R130) -/

section
variable {data : List Byte} {s : State}

theorem lit_control_eq (h : (Instr.lit data).wellFormed = true) :
    (Instr.lit data).control = BitVec.ofNat 8 (data.length - 1) := by
  rw [← lit_control_toNat h, BitVec.ofNat_toNat, BitVec.setWidth_eq]

/-- A literal token that is there and fits (R130, R132). -/
theorem exec_lit_ok (hin : s.dec.ip.toNat + 1 + data.length ≤ s.dec.job.inLen.toNat)
    (hout : s.dec.op.toNat + data.length ≤ s.dec.job.outCap.toNat) :
    exec (.lit data) s = .next { s with dec := { s.dec with
      job := { s.dec.job with out := Memory.place data s.dec.op.toNat s.dec.job.out }
      phase := .fetch
      ip := s.dec.ip + BitVec.ofNat 32 (data.length + 1)
      op := s.dec.op + BitVec.ofNat 32 data.length
      ctrl := (Instr.lit data).control
      len := 0 } } :=
  congrArg s.ofDec (literalToken_ok hin hout)

end

/-- Settles O9: both tests of the token pass, and the loop places its bytes at `op` (`exec_lit_ok`, `read?_place`). -/
theorem literalCopiesItsBytes : Obligations.LiteralCopiesItsBytes := by
  unfold Obligations.LiteralCopiesItsBytes
  intro data s hwf hin hout
  exact ⟨_, lit_control_eq hwf ▸ exec_lit_ok hin hout, read?_place data _ _⟩

/-- Settles O10: the input test comes first (`literalToken_cut`), the room test second (`literalToken_noRoom`); a well-formed
literal has a byte, so that a room of none is too little. -/
theorem literalErrorsInOrder : Obligations.LiteralErrorsInOrder := by
  unfold Obligations.LiteralErrorsInOrder
  intro data s hwf hip
  obtain ⟨hpos, -⟩ := (lit_wellFormed data).1 hwf
  rw [← lit_control_eq hwf]
  exact ⟨fun hcut => congrArg s.ofDec (literalToken_cut hip hcut),
    fun hin hroom => congrArg s.ofDec (literalToken_noRoom hip hin (by omega))⟩

/-! ### The token as the block fetches it (R132) -/

/-- The `n` follow-up bytes of the token at `ip`. -/
abbrev followBytes (d : Dec) (n : Nat) : List Byte := (List.range n).map d.followUp

theorem followBytes_getElem? {d : Dec} {n k : Nat} (hk : k < n) (hin : d.ip.toNat + 1 + n ≤ d.job.inLen.toNat) :
    (followBytes d n)[k]? = some (d.job.inByte .dec (d.ip.toNat + 1 + k)) := by
  rw [List.getElem?_map, List.getElem?_range hk, Option.map_some, followUp_of_lt (by omega)]

theorem tokenLength_lit {c : Byte} (hc : c.toNat < 32) : tokenLength c = c.toNat + 1 + 1 := by
  rw [tokenLength, if_pos hc, low5_toNat]
  omega

/-- Settles O23: the token at `ip` is the literal of the bytes after its control byte (`decodeToken_lit`), and it completes
(`exec_lit_ok`). -/
theorem literalStepCopiesInToOut : Obligations.LiteralStepCopiesInToOut := by
  unfold Obligations.LiteralStepCopiesInToOut
  intro s s' hm hp c hc hin hout
  have hlen : (followBytes s'.dec (c.toNat + 1)).length = c.toNat + 1 := by simp
  have htoken : tokenAt s'.dec = .lit (followBytes s'.dec (c.toNat + 1)) := decodeToken_lit _ hc
  have hstep := step_fetch hm hp (by omega)
  rw [htoken, exec_lit_ok (by omega) (by omega), hlen] at hstep
  refine ⟨_, hstep, rfl, rfl, ?_, word_add_toNat hout, fun j hj => ?_, fun a ha => ?_⟩
  · rw [tokenLength_lit hc]
    exact word_add_toNat (y := s'.dec.job.inLen) (by omega)
  · simp only [read?_place, hlen]
    rw [if_pos (by omega), Nat.add_sub_cancel_left, followBytes_getElem? hj hin]
  · simp only [read?_place, hlen]
    rw [if_neg (by omega)]

/-! ### The copy phases (R131, R143) -/

section
variable {d : Dec}

theorem literalByte_ok (b : Byte) (hin : d.ip.toNat < d.job.inLen.toNat) (hout : d.op.toNat < d.job.outCap.toNat) :
    d.literalByte b = .ok { d with
      job := { d.job with out := d.job.out.write d.op.toNat b }, ip := d.ip + 1, op := d.op + 1, len := d.len - 1 } := by
  rw [Dec.literalByte, putByte_ok b hout, except_ok_bind]
  exact advance_ok hin

theorem copyByte_ok (hdist : 1 ≤ d.dist.toNat) (hback : d.dist.toNat ≤ d.op.toNat) (hout : d.op.toNat < d.job.outCap.toNat) :
    d.copyByte = .ok { d with
      job := { d.job with out := d.job.out.write d.op.toNat (d.job.outByte .dec (d.op.toNat - d.dist.toNat)) }
      op := d.op + 1
      len := d.len - 1 } := by
  rw [Dec.copyByte, readBack_ok hdist hback, except_ok_bind, putByte_ok _ hout]

end

/-- Inside a token the block takes a byte step (log 1). -/
theorem step_byteStep {s s' : State} (hm : s.nextMove = some (.run .dec, s')) (hp : s'.dec.phase ≠ .fetch) :
    step s = s'.ofDec s'.dec.byteStep := by
  rw [step_dec hm, decTurn_eq_ofDec, turnOnDec, if_neg hp]

/-- Settles O25: each copy phase writes one byte at `op` (`literalByte_ok`, `copyByte_ok`), and its tests pass. -/
theorem copyPhasesMoveOneByte : Obligations.CopyPhasesMoveOneByte := by
  unfold Obligations.CopyPhasesMoveOneByte
  refine ⟨fun s s' hm hp hin hout => ?_, fun s s' hm hp hdist hback hout => ?_⟩
  · have hstep := step_byteStep hm (by rw [hp]; decide)
    rw [byteStep_literalByte hp hin (literalByte_ok _ hin hout)] at hstep
    exact ⟨_, hstep, fun a => read?_write _ _ a _⟩
  · have hstep := step_byteStep hm (by rw [hp]; decide)
    rw [byteStep_copyByte hp (copyByte_ok hdist hback hout)] at hstep
    exact ⟨_, hstep, fun a => read?_write _ _ a _⟩

end Sys2Proof.Proofs
end

section
/-! The back-references: `ValidateAndCopy` and the overlap law, then the short and the long token as a whole (spec/42_backref.md R140
to R142, R146), and the EXT and LOW steps (R144, R145). -/

namespace Sys2Proof.Proofs

open Sys2Proof.Machine Sys2Proof.Laws

/-! ### `ValidateAndCopy` (R142, R146) -/

/-- The overlap law of R146: what `OUT` holds once the pattern has been placed at `op`. -/
theorem read?_place_copyPattern (d : Dec) (n a : Nat) :
    (Memory.place (copyPattern d n) d.op.toNat d.job.out).read? a =
      if d.op.toNat ≤ a ∧ a < d.op.toNat + n then
        some (d.job.outByte .dec (d.op.toNat - d.dist.toNat + (a - d.op.toNat) % d.dist.toNat))
      else d.job.out.read? a := by
  rw [read?_place, copyPattern_length]
  split
  · next h => rw [copyPattern, List.getElem?_map, List.getElem?_range (by omega), Option.map_some]
  · rfl

/-- Settles O11: the outcome is that of the test that fails first (`validateAndCopy_underflow`, `validateAndCopy_noRoom`), or the copy
(`validateAndCopy_ok`) with the overlap law. -/
theorem validateAndCopyFollowsItsRule : Obligations.ValidateAndCopyFollowsItsRule := by
  unfold Obligations.ValidateAndCopyFollowsItsRule
  intro dist length d hdist
  refine ⟨validateAndCopy_underflow, validateAndCopy_noRoom,
    fun hback hroom => ⟨_, validateAndCopy_ok hdist hback hroom, fun j hj => ?_, fun a ha => ?_⟩⟩
  · have hlaw := read?_place_copyPattern { d with dist := dist } length.toNat (d.op.toNat + j)
    rwa [if_pos (by simp only; omega), Nat.add_sub_cancel_left] at hlaw
  · exact (read?_place_copyPattern { d with dist := dist } length.toNat a).trans (if_neg (by simp only; omega))

/-! ### A reference that is all there: its distance and its length as numbers (R87, R88) -/

theorem refDist_eq_distance (dh : BitVec 5) (r : Byte) : refDist dh r = (distance dh r).toNat :=
  (distance_toNat dh r).symm

theorem ofNat_refDist (dh : BitVec 5) (r : Byte) : BitVec.ofNat 14 (refDist dh r) = distance dh r :=
  (BitVec.toNat_eq_nat.1 (distance_toNat dh r)).2.symm

theorem longLength_eq (e : Byte) : longLength e = BitVec.ofNat 9 (e.toNat + 9) :=
  (BitVec.toNat_eq_nat.1 (longLength_toNat e)).2

section
variable {i : Instr} {s : State} {d : Dec} {dh : BitVec 5} {r : Byte} {l : Nat}

/-- The reference `i` comes down to `ValidateAndCopy` of its distance and the length `l`, run on `d`. -/
def Validates (i : Instr) (s : State) (dh : BitVec 5) (r : Byte) (l : Nat) (d : Dec) : Prop :=
  exec i s = s.ofDec (d.validateAndCopy (distance dh r) (BitVec.ofNat 9 l))

/-- The length of a reference fits its 9 bits. -/
theorem ofNat_length_toNat (hl : l ≤ 264) : (BitVec.ofNat 9 l).toNat = l := Nat.mod_eq_of_lt (by omega)

/-- `DC4`. -/
theorem Validates.underflow (h : Validates i s dh r l d) (hback : d.op.toNat < refDist dh r) :
    exec i s = .next { s with dec := d.raise .dataCorruption } := by
  rw [refDist_eq_distance] at hback
  rw [h, validateAndCopy_underflow hback, State_ofDec_ok]

/-- `IB2`. -/
theorem Validates.noRoom (h : Validates i s dh r l d) (hl : 1 ≤ l ∧ l ≤ 264) (hback : refDist dh r ≤ d.op.toNat)
    (hroom : d.job.outCap.toNat < d.op.toNat + l) :
    exec i s = .next { s with dec := d.raise .insufficientBuffer } := by
  rw [refDist_eq_distance] at hback
  rw [h, validateAndCopy_noRoom hback (by rw [ofNat_length_toNat hl.2]; omega), State_ofDec_ok]

/-- The copy (R142), with the overlap law (R146). -/
theorem Validates.completes (h : Validates i s dh r l d) (hl : l ≤ 264) (hback : refDist dh r ≤ d.op.toNat)
    (hroom : d.op.toNat + l ≤ d.job.outCap.toNat) :
    ∃ out : Memory,
      exec i s = .next { s with dec := { d with
        job := { d.job with out := out }
        phase := .fetch
        op := d.op + BitVec.ofNat 32 l
        len := 0
        dist := BitVec.ofNat 14 (refDist dh r) } }
      ∧ ∀ a, out.read? a =
          if d.op.toNat ≤ a ∧ a < d.op.toNat + l then
            some (d.job.outByte .dec (d.op.toNat - refDist dh r + (a - d.op.toNat) % refDist dh r))
          else d.job.out.read? a := by
  rw [refDist_eq_distance] at hback
  have hcopy := validateAndCopy_ok (length := BitVec.ofNat 9 l) (distance_pos dh r) hback (by rwa [ofNat_length_toNat hl])
  rw [ofNat_length_toNat hl] at hcopy
  rw [ofNat_refDist, refDist_eq_distance]
  exact ⟨_, by rw [h, hcopy, State_ofDec_ok], read?_place_copyPattern { d with dist := distance dh r } l⟩

/-! ### The short token (R140) -/

/-- What executing a short row is, said once for the six: `shortToken` at the row's `lcode`. -/
theorem srefRows_exec (h : (i, l) ∈ srefRows dh r) : ∃ lc : BitVec 3, shortLength lc = BitVec.ofNat 9 l
    ∧ i.control = controlByte lc dh ∧ tokenOnDec i = Dec.shortToken lc dh r := by
  simp only [srefRows, List.mem_cons, List.not_mem_nil, or_false, Prod.mk.injEq] at h
  rcases h with ⟨rfl, rfl⟩ | ⟨rfl, rfl⟩ | ⟨rfl, rfl⟩ | ⟨rfl, rfl⟩ | ⟨rfl, rfl⟩ | ⟨rfl, rfl⟩
  · exact ⟨1, rfl, rfl, rfl⟩
  · exact ⟨2, rfl, rfl, rfl⟩
  · exact ⟨3, rfl, rfl, rfl⟩
  · exact ⟨4, rfl, rfl, rfl⟩
  · exact ⟨5, rfl, rfl, rfl⟩
  · exact ⟨6, rfl, rfl, rfl⟩

theorem srefRows_length (h : (i, l) ∈ srefRows dh r) : 1 ≤ l ∧ l ≤ 264 := by
  simp only [srefRows, List.mem_cons, List.not_mem_nil, or_false, Prod.mk.injEq] at h
  omega

/-- `DC3`. -/
theorem exec_sref_cut (h : (i, l) ∈ srefRows dh r) (hcut : s.dec.ip.toNat + 1 = s.dec.job.inLen.toNat) :
    exec i s = .next { s with dec := Dec.raise .dataCorruption { s.dec with
      ip := s.dec.ip + 1, ctrl := i.control, len := BitVec.ofNat 9 l } } := by
  obtain ⟨lc, hlen, hctrl, htok⟩ := srefRows_exec h
  rw [exec_eq_ofDec, htok, shortToken_eq (by omega), if_pos hcut, State_ofDec_ok, hlen, hctrl]

theorem exec_sref_whole (h : (i, l) ∈ srefRows dh r) (hin : s.dec.ip.toNat + 2 ≤ s.dec.job.inLen.toNat) :
    Validates i s dh r l { s.dec with ip := s.dec.ip + 2, ctrl := i.control, len := BitVec.ofNat 9 l } := by
  obtain ⟨lc, hlen, hctrl, htok⟩ := srefRows_exec h
  rw [Validates, exec_eq_ofDec, htok, shortToken_eq (by omega), if_neg (by omega), hlen, hctrl]

/-! ### The long token (R141) -/

theorem lref_control_eq (dh : BitVec 5) : BitVec.ofNat 8 (224 + dh.toNat) = controlByte 7 dh :=
  (BitVec.toNat_eq_nat.1 (controlByte_toNat 7 dh)).2.symm

variable {e : Byte}

theorem lref_length : 1 ≤ e.toNat + 9 ∧ e.toNat + 9 ≤ 264 := by
  have := e.isLt
  omega

/-- `DC2`. -/
theorem exec_lref_noExtension (hcut : s.dec.ip.toNat + 1 = s.dec.job.inLen.toNat) :
    exec (.lref dh e r) s = .next { s with dec := Dec.raise .dataCorruption { s.dec with
      ip := s.dec.ip + 1, ctrl := BitVec.ofNat 8 (224 + dh.toNat) } } := by
  rw [exec_eq_ofDec, tokenOnDec, longToken_eq (by omega), if_pos hcut, State_ofDec_ok, lref_control_eq]

/-- `DC3`. -/
theorem exec_lref_noLow (hcut : s.dec.ip.toNat + 2 = s.dec.job.inLen.toNat) :
    exec (.lref dh e r) s = .next { s with dec := Dec.raise .dataCorruption { s.dec with
      ip := s.dec.ip + 2, ctrl := BitVec.ofNat 8 (224 + dh.toNat), len := BitVec.ofNat 9 (e.toNat + 9) } } := by
  rw [exec_eq_ofDec, tokenOnDec, longToken_eq (by omega), if_neg (by omega), if_pos hcut, State_ofDec_ok, lref_control_eq,
    longLength_eq]

theorem exec_lref_whole (hin : s.dec.ip.toNat + 3 ≤ s.dec.job.inLen.toNat) :
    Validates (.lref dh e r) s dh r (e.toNat + 9)
      { s.dec with ip := s.dec.ip + 3, ctrl := BitVec.ofNat 8 (224 + dh.toNat), len := BitVec.ofNat 9 (e.toNat + 9) } := by
  rw [Validates, exec_eq_ofDec, tokenOnDec, longToken_eq (by omega), if_neg (by omega), if_neg (by omega), lref_control_eq,
    longLength_eq]

end

/-! ### The statements about the two tokens -/

/-- Settles O12: a row whose low byte is there is `ValidateAndCopy` past the token (`exec_sref_whole`), and its copy completes. -/
theorem shortReferencesRepeatThePattern : Obligations.ShortReferencesRepeatThePattern := by
  unfold Obligations.ShortReferencesRepeatThePattern
  intro dh r s row hrow hin hback hroom
  exact (exec_sref_whole hrow hin).completes (srefRows_length hrow).2 hback hroom

/-- Settles O13: the low byte is tested for first (`exec_sref_cut`), then the two tests of `ValidateAndCopy`. -/
theorem shortReferenceErrorsInOrder : Obligations.ShortReferenceErrorsInOrder := by
  unfold Obligations.ShortReferenceErrorsInOrder
  intro dh r s row hrow
  exact ⟨exec_sref_cut hrow, fun hin => (exec_sref_whole hrow hin).underflow,
    fun hin => (exec_sref_whole hrow hin).noRoom (srefRows_length hrow)⟩

/-- Settles O14: a token that is all there is `ValidateAndCopy` past it (`exec_lref_whole`), and its copy completes. -/
theorem longReferenceRepeatsThePattern : Obligations.LongReferenceRepeatsThePattern := by
  unfold Obligations.LongReferenceRepeatsThePattern
  intro dh e r s hin hback hroom
  exact (exec_lref_whole hin).completes lref_length.2 hback hroom

/-- Settles O15: the extension byte is tested for first, the low byte second (`exec_lref_noExtension`, `exec_lref_noLow`), then the two
tests of `ValidateAndCopy`. -/
theorem longReferenceErrorsInOrder : Obligations.LongReferenceErrorsInOrder := by
  unfold Obligations.LongReferenceErrorsInOrder
  intro dh e r s
  exact ⟨exec_lref_noExtension, exec_lref_noLow, fun hin => (exec_lref_whole hin).underflow,
    fun hin => (exec_lref_whole hin).noRoom lref_length⟩

/-! ### The EXT and LOW steps (R144, R145) -/

theorem step_ext {s s' : State} (hm : s.nextMove = some (.run .dec, s')) (hp : s'.dec.phase = .ext) :
    step s = s'.ofDec s'.dec.extStep := by
  rw [step_byteStep hm (by rw [hp]; decide), byteStep_ext hp]

theorem step_low {s s' : State} (hm : s.nextMove = some (.run .dec, s')) (hp : s'.dec.phase = .low) :
    step s = s'.ofDec s'.dec.lowStep := by
  rw [step_byteStep hm (by rw [hp]; decide), byteStep_low hp]

/-- The distance a LOW step reads, as a number (R88). -/
theorem lowDistance_toNat (d : Dec) : (lowDistance d).toNat = d.ctrl.toNat % 32 * 256 + (ipByte d).toNat + 1 := by
  rw [distance_toNat, low5_toNat]

/-- Settles O26: the two branches of the EXT step (`extStep_end`, `extStep_ok`). -/
theorem extensionPhaseReadsTheLength : Obligations.ExtensionPhaseReadsTheLength := by
  unfold Obligations.ExtensionPhaseReadsTheLength
  intro s s' hm hp
  rw [step_ext hm hp]
  refine ⟨fun hend => ?_, fun hin => ?_⟩
  · rw [extStep_end hend, State_ofDec_ok]
  · rw [extStep_ok hin, State_ofDec_ok, longLength_eq]

/-- Settles O27: the four branches of the LOW step, its tests in order (`lowStep_end`, `lowStep_underflow`, `lowStep_noRoom`,
`lowStep_ok`), with the distance it reads as a number. -/
theorem lowPhaseChecksTheReference : Obligations.LowPhaseChecksTheReference := by
  unfold Obligations.LowPhaseChecksTheReference
  intro s s' hm hp d
  have hd : d = (lowDistance s'.dec).toNat := (lowDistance_toNat s'.dec).symm
  rw [step_low hm hp, hd]
  refine ⟨fun hend => ?_, fun hin hback => ?_, fun hin hback hroom => ?_, fun hin hback hroom => ?_⟩
  · rw [lowStep_end hend, State_ofDec_ok]
  · rw [lowStep_underflow hin hback, State_ofDec_ok]
  · rw [lowStep_noRoom hin hback hroom, State_ofDec_ok]
  · rw [lowStep_ok hin hback hroom, State_ofDec_ok, BitVec.ofNat_toNat, BitVec.setWidth_eq]

end Sys2Proof.Proofs
end

section
/-! Registers and operands of the compressor: `START` (spec/45_compressor.md R162), `BOUND_RESULT` (spec/10_state.md R33, R176) and the
default hash (R164). -/

namespace Sys2Proof.Proofs

open Sys2Proof.Machine Sys2Proof.Laws

theorem encWriteCtrl_start {e : Enc} {v : Word} (hb : e.phase.busy = false) (hv : v.getLsbD 0 = true) :
    e.writeCtrl v = { e with i := 0, ls := 0, eop := 0, htab := [], phase := .probe } := by
  simp [Enc.writeCtrl, Enc.start, hb, hv]

theorem encWriteCtrl_ignored {e : Enc} {v : Word} (h : e.phase.busy = true ∨ v.getLsbD 0 = false) : e.writeCtrl v = e := by
  rcases h with hb | hv
  · simp [Enc.writeCtrl, Enc.start, hb]
  · simp only [Enc.writeCtrl, hv, Bool.false_eq_true, if_false]

/-- Settles O39: by the two cases of `START` (R162); in PROBE an engine is running and has no result. -/
theorem encoderStartBeginsAJob : Obligations.EncoderStartBeginsAJob := by
  unfold Obligations.EncoderStartBeginsAJob
  refine fun s v rest h => ⟨fun hb hv => ?_, fun hno => ?_⟩
  · refine ⟨_, step_writeReg h, ?_, ?_⟩
    · rw [State.regWrite, encWriteCtrl_start hb hv]
    · rw [State.regWrite, encWriteCtrl_start hb hv]
      exact ⟨status_running _, rfl⟩
  · rw [step_writeReg h, State.regWrite, encWriteCtrl_ignored hno]

/-! ### `BOUND_RESULT` -/

theorem boundNat_eq (n : Nat) : boundNat n = n * 26 / 25 + 1 := by
  rw [boundNat]
  omega

/-- The bound of a `W`-bit number fits in `W + 1` bits. -/
theorem boundResult_toNat (n : Word) : (boundResult n).toNat = boundNat n.toNat := by
  have := n.isLt
  rw [boundResult, BitVec.toNat_ofNat, Nat.mod_eq_of_lt (by rw [boundNat]; omega)]

/-- A 33-bit number is its low word and its bit 32. -/
theorem low_add_bit32 (x : BitVec 33) : (x.setWidth 32).toNat + 2 ^ 32 * (x.getLsbD 32).toNat = x.toNat := by
  have := x.isLt
  rw [BitVec.toNat_setWidth, BitVec.getLsbD, Nat.toNat_testBit]
  omega

/-- Settles O44: the two registers show the low word and bit 32 of `BOUND_RESULT`, which does not wrap (`boundResult_toNat`). -/
theorem boundRegistersHoldTheBound : Obligations.BoundRegistersHoldTheBound := by
  unfold Obligations.BoundRegistersHoldTheBound
  refine ⟨fun s => ?_, boundNat_eq⟩
  have hhigh : (s.regRead 18).getLsbD 0 = (boundResult s.boundN).getLsbD 32 := by
    simp [State.regRead]
  rw [hhigh, State.regRead, low_add_bit32, boundResult_toNat, boundNat_eq]

/-! ### The default hash -/

/-- The little-endian load of three bytes, as a number. -/
theorem load_toNat (b0 b1 b2 : Byte) :
    ((b2 ++ b1 ++ b0).setWidth 32).toNat = b0.toNat + 256 * b1.toNat + 65536 * b2.toNat := by
  have h0 := b0.isLt
  have h1 := b1.isLt
  have h2 := b2.isLt
  have h : (b2 ++ b1 ++ b0).toNat = b0.toNat + 256 * b1.toNat + 65536 * b2.toNat := by
    rw [BitVec.toNat_append, BitVec.toNat_append, ← Nat.shiftLeft_add_eq_or_of_lt h1, ← Nat.shiftLeft_add_eq_or_of_lt h0,
      Nat.shiftLeft_eq, Nat.shiftLeft_eq]
    omega
  rw [BitVec.toNat_setWidth, h]
  omega

/-- The top bits of a word, as a number. -/
theorem topBits_toNat (x : Word) {n : Nat} (hn : n ≤ 32) : ((x >>> (32 - n)).setWidth n).toNat = x.toNat / 2 ^ (32 - n) := by
  have hx : x.toNat < 2 ^ n * 2 ^ (32 - n) := by
    rw [← Nat.pow_add, Nat.add_sub_cancel' hn]
    exact x.isLt
  rw [BitVec.toNat_setWidth, BitVec.toNat_ushiftRight, Nat.shiftRight_eq_div_pow,
    Nat.mod_eq_of_lt (Nat.div_lt_of_lt_mul (by rwa [Nat.mul_comm]))]

/-- Settles O51: the index is the top bits of the product (`topBits_toNat`), formed in 32 bits from the load (`load_toNat`). -/
theorem defaultHashIsItsFormula : Obligations.DefaultHashIsItsFormula := by
  unfold Obligations.DefaultHashIsItsFormula
  refine ⟨fun hlog b0 b1 b2 _ h24 => ?_, rfl⟩
  simp only [defaultHash]
  rw [topBits_toNat _ (by omega), BitVec.toNat_mul, load_toNat]
  rfl

end Sys2Proof.Proofs
end

section
/-! The steps of the compressor, by phase (spec/45_compressor.md R165 to R172, R180): one lemma per branch of each. -/

namespace Sys2Proof.Proofs

open Sys2Proof.Machine Sys2Proof.Laws

variable {e : Enc}

theorem encStep_probe (P : EncParams) (hp : e.phase = .probe) : e.step P = e.probeStep P := by rw [Enc.step, hp]

theorem encStep_extend (P : EncParams) (hp : e.phase = .extend) : e.step P = e.extendStep := by rw [Enc.step, hp]

theorem encStep_flush (P : EncParams) (hp : e.phase = .flush) : e.step P = e.flushStep := by rw [Enc.step, hp]

theorem encStep_emit (P : EncParams) (hp : e.phase = .emit) : e.step P = e.emitStep := by rw [Enc.step, hp]

theorem encStep_done (P : EncParams) (hp : e.phase = .done) : e.step P = .ok e := by rw [Enc.step, hp]

/-! ### PROBE -/

/-- Clauses (a) to (d) of R166 for a candidate `r` at a position `i`, of the bytes of an input of `len` bytes. -/
structure Candidate (byte : Nat → Byte) (len i r : Nat) : Prop where
  back : 1 ≤ i - r
  reach : i - r ≤ 8192
  window : ∀ k, k < 3 → byte (r + k) = byte (i + k)
  beyond : 3 < len - i

/-- A candidate lies before the position, so only the bytes of the input matter to it. -/
theorem candidate_congr {byte byte' : Nat → Byte} {len i r : Nat} (h : ∀ a, a < len → byte a = byte' a) :
    Candidate byte len i r ↔ Candidate byte' len i r := by
  have hwindow : 1 ≤ i - r → 3 < len - i → ∀ k, k < 3 → byte (r + k) = byte' (r + k) ∧ byte (i + k) = byte' (i + k) :=
    fun _ _ k _ => ⟨h _ (by omega), h _ (by omega)⟩
  refine ⟨fun ⟨h1, h2, h3, h4⟩ => ⟨h1, h2, fun k hk => ?_, h4⟩, fun ⟨h1, h2, h3, h4⟩ => ⟨h1, h2, fun k hk => ?_, h4⟩⟩
  · rw [← (hwindow h1 h4 k hk).1, ← (hwindow h1 h4 k hk).2, h3 k hk]
  · rw [(hwindow h1 h4 k hk).1, (hwindow h1 h4 k hk).2, h3 k hk]

/-- Equality of the three bytes of a window, byte by byte. -/
theorem window_iff {byte : Nat → Byte} {i r : Nat} : (∀ k, k < 3 → byte (r + k) = byte (i + k)) ↔
    byte r = byte i ∧ byte (r + 1) = byte (i + 1) ∧ byte (r + 2) = byte (i + 2) := by
  refine ⟨fun h => ⟨h 0 (by omega), h 1 (by omega), h 2 (by omega)⟩, fun ⟨h0, h1, h2⟩ k hk => ?_⟩
  interval_cases k
  · exact h0
  · exact h1
  · exact h2

/-- The byte of `IN` that `ENC` reads at an offset. -/
abbrev encByte (e : Enc) (a : Nat) : Byte := e.job.inByte .enc a

/-- The candidate in `ref` of an engine, by R166. -/
abbrev RefViable (e : Enc) : Prop :=
  e.refValid = true ∧ Candidate (encByte e) e.job.inLen.toNat e.i.toNat e.ref.toNat

theorem windowMatches_ok {r : Nat} (b0 b1 b2 : Byte) (h : r + 3 ≤ e.job.inLen.toNat) :
    e.windowMatches r b0 b1 b2 = .ok (decide (encByte e r = b0 ∧ encByte e (r + 1) = b1 ∧ encByte e (r + 2) = b2)) := by
  rw [Enc.windowMatches, encReadIn_ok (by omega), except_ok_bind, encReadIn_ok (by omega), except_ok_bind,
    encReadIn_ok (by omega), except_ok_bind]

/-- The viability test decides R166 for a full window. -/
theorem viable_decides (h : e.i.toNat + 3 ≤ e.job.inLen.toNat) :
    ∃ ok, e.viable (encByte e e.i.toNat) (encByte e (e.i.toNat + 1)) (encByte e (e.i.toNat + 2)) = .ok ok
      ∧ (ok = true ↔ RefViable e) := by
  by_cases hreach : e.candidateInReach = true
  · rw [Enc.viable, if_pos hreach]
    simp only [Enc.candidateInReach, Bool.and_eq_true, decide_eq_true_eq] at hreach
    obtain ⟨⟨hvalid, hback⟩, hfar⟩ := hreach
    refine ⟨_, by rw [windowMatches_ok _ _ _ (by omega), except_ok_bind], ?_⟩
    rw [Bool.and_eq_true, decide_eq_true_iff, decide_eq_true_iff, ← window_iff]
    exact ⟨fun ⟨hw, hd⟩ => ⟨hvalid, hback, hfar, hw, hd⟩, fun ⟨_, hc⟩ => ⟨hc.window, hc.beyond⟩⟩
  · refine ⟨false, if_neg hreach, nofun, fun ⟨hvalid, hc⟩ => absurd ?_ hreach⟩
    simp [Enc.candidateInReach, hvalid, hc.back, Config.maxDist, hc.reach]

theorem probeStep_end (P : EncParams) (h : e.i = e.job.inLen) : e.probeStep P = .ok { e with phase := .flush } := if_pos h

/-- Fewer than three bytes are left: the byte joins the run (R171). -/
theorem probeStep_tail (P : EncParams) (h : e.i.toNat < e.job.inLen.toNat) (ht : e.job.inLen.toNat < e.i.toNat + 3) :
    e.probeStep P = .ok e.skipByte := by
  rw [Enc.probeStep, if_neg (fun hi => by rw [hi] at h; omega), if_neg (by omega), encReadIn_ok h, except_ok_bind]

/-- The index a probe of a full window hashes to (R164). -/
def probeIndex (P : EncParams) (e : Enc) : Nat :=
  (P.hash (encByte e e.i.toNat) (encByte e (e.i.toNat + 1)) (encByte e (e.i.toNat + 2))).toNat

/-- What is left of a probe after its table access (R166): a match of the shortest length, or one more byte of the run. -/
theorem probeStep_window (P : EncParams) (h : e.i.toNat + 3 ≤ e.job.inLen.toNat) :
    (RefViable (e.probeTable (probeIndex P e)) →
      e.probeStep P = .ok { e.probeTable (probeIndex P e) with mlen := 3, phase := .extend })
    ∧ (¬ RefViable (e.probeTable (probeIndex P e)) → e.probeStep P = .ok (e.probeTable (probeIndex P e)).skipByte) := by
  obtain ⟨ok, hok, hiff⟩ := viable_decides (e := e.probeTable (probeIndex P e)) h
  have hstep : e.probeStep P = .ok (if ok then { e.probeTable (probeIndex P e) with mlen := 3, phase := .extend }
      else (e.probeTable (probeIndex P e)).skipByte) := by
    rw [Enc.probeStep, if_neg (fun hi => by rw [hi] at h; omega), if_pos (by omega), encReadIn_ok (by omega), except_ok_bind,
      encReadIn_ok (by omega), except_ok_bind, encReadIn_ok (by omega), except_ok_bind]
    exact congrArg (· >>= _) hok
  rw [hstep, ← hiff]
  exact ⟨fun hv => by rw [if_pos hv], fun hv => by rw [if_neg hv]⟩

/-- The candidate a probe tests is the entry it reads (R165). -/
theorem refViable_probeTable (h : Nat) : RefViable (e.probeTable h) ↔
    ∃ r : Word, Table.get? e.htab h = some r ∧ Candidate (encByte e) e.job.inLen.toNat e.i.toNat r.toNat := by
  obtain ⟨hvalid, href, -⟩ := probeTable_entry e h
  cases hentry : Table.get? e.htab h with
  | none => simp [RefViable, hentry]
  | some r =>
    rw [RefViable, hvalid, hentry, href r hentry]
    exact ⟨fun ⟨_, hc⟩ => ⟨r, rfl, hc⟩, fun ⟨_, hr, hc⟩ => ⟨rfl, by cases hr; exact hc⟩⟩

/-- Settles O52: by the branches of a probe (`probeStep_end`, `probeStep_tail`, `probeStep_window`). -/
theorem probeReadsThenWritesThenDecides : Obligations.ProbeReadsThenWritesThenDecides := by
  unfold Obligations.ProbeReadsThenWritesThenDecides
  refine ⟨fun P e hp hi => ?_, fun P e hp hi ht => ?_, fun P e hp hw => ?_⟩
  · rw [encStep_probe P hp, probeStep_end P hi]
  · rw [encStep_probe P hp, probeStep_tail P hi ht, Enc.skipByte]
  · intro byte h viable
    obtain ⟨hmatch, hskip⟩ := probeStep_window P hw
    obtain ⟨hvalid, href, htable⟩ := probeTable_entry e h
    have hiff : viable ↔ RefViable (e.probeTable h) := by
      rw [refViable_probeTable]
      exact exists_congr fun r => and_congr_right fun _ =>
        ⟨fun ⟨h1, h2, h3, h4⟩ => ⟨h1, h2, h3, h4⟩, fun ⟨h1, h2, h3, h4⟩ => ⟨h1, h2, h3, h4⟩⟩
    have hself := (htable h).trans (if_pos rfl)
    rw [encStep_probe P hp]
    by_cases hv : viable
    · exact ⟨_, hmatch (hiff.1 hv), rfl, hself, href, hvalid, rfl, rfl, rfl, fun _ => ⟨rfl, rfl, rfl⟩,
        fun hn => absurd hv hn⟩
    · exact ⟨_, hskip (mt hiff.2 hv), rfl, hself, href, hvalid, rfl, rfl, rfl, fun hy => absurd hy hv,
        fun _ => ⟨hp, rfl, rfl⟩⟩

/-! ### EXTEND -/

/-- Whether the match in progress grows (R167). -/
abbrev Grows (e : Enc) : Prop :=
  e.mlen.toNat < 264 ∧ e.i.toNat + e.mlen.toNat < e.job.inLen.toNat
    ∧ encByte e (e.ref.toNat + e.mlen.toNat) = encByte e (e.i.toNat + e.mlen.toNat)

theorem extendStep_grows (href : e.ref.toNat < e.i.toNat) (h : Grows e) : e.extendStep = .ok { e with mlen := e.mlen + 1 } := by
  obtain ⟨hmax, hin, heq⟩ := h
  rw [Enc.extendStep, if_pos ⟨hmax, hin⟩, encReadIn_ok (by omega), except_ok_bind, encReadIn_ok hin, except_ok_bind, if_pos heq]

theorem extendStep_stops (href : e.ref.toNat < e.i.toNat) (h : ¬ Grows e) : e.extendStep = .ok { e with phase := .flush } := by
  by_cases hgo : e.mlen.toNat < Config.maxLen ∧ e.i.toNat + e.mlen.toNat < e.job.inLen.toNat
  · have hne : ¬ encByte e (e.ref.toNat + e.mlen.toNat) = encByte e (e.i.toNat + e.mlen.toNat) :=
      fun heq => h ⟨hgo.1, hgo.2, heq⟩
    rw [Enc.extendStep, if_pos hgo, encReadIn_ok (by omega), except_ok_bind, encReadIn_ok hgo.2, except_ok_bind, if_neg hne]
  · rw [Enc.extendStep, if_neg hgo]

/-- Settles O53: by the two outcomes of the comparison. -/
theorem matchGrowsWhileBytesAreEqual : Obligations.MatchGrowsWhileBytesAreEqual := by
  unfold Obligations.MatchGrowsWhileBytesAreEqual
  intro P e hp href grows
  rw [encStep_extend P hp]
  exact ⟨extendStep_grows href, extendStep_stops href⟩

/-! ### FLUSH and EMIT -/

/-- The bytes of a literal token (R97). -/
theorem encode_lit {data : List Byte} (h1 : 1 ≤ data.length) (h32 : data.length ≤ 32) :
    encode (.lit data) = BitVec.ofNat 8 (data.length - 1) :: data :=
  referenceEncodingIsInverse.2 data h1 h32

theorem flushStep_match (hls : e.ls = e.i) (hi : e.i ≠ e.job.inLen) : e.flushStep = .ok { e with phase := .emit } := by
  rw [Enc.flushStep, if_pos (by rw [hls]), if_neg hi]

theorem flushStep_end (hls : e.ls = e.i) (hi : e.i = e.job.inLen) : e.flushStep = .ok e.finish := by
  rw [Enc.flushStep, if_pos (by rw [hls]), if_pos hi]

/-- The number of bytes of the next literal token of the pending run (R170). -/
def groupLength (e : Enc) : Nat := min 32 (e.i.toNat - e.ls.toNat)

/-- The next literal token of the pending run (R170). -/
def groupToken (e : Enc) : List Byte :=
  BitVec.ofNat 8 (groupLength e - 1) :: (List.range (groupLength e)).map (fun k => encByte e (e.ls.toNat + k))

theorem groupToken_length (e : Enc) : (groupToken e).length = groupLength e + 1 := by simp [groupToken]

theorem flushStep_run (hls : e.ls.toNat < e.i.toNat) (hi : e.i.toNat ≤ e.job.inLen.toNat) :
    e.flushStep = e.emitToken (groupToken e) (fun e' => { e' with ls := e'.ls + BitVec.ofNat 32 (groupLength e) }) := by
  have hn : 1 ≤ groupLength e ∧ groupLength e ≤ 32 := by
    rw [groupLength]
    omega
  have hdata : encode (.lit ((List.range (groupLength e)).map fun k => encByte e (e.ls.toNat + k))) = groupToken e := by
    rw [encode_lit (by simpa using hn.1) (by simpa using hn.2), List.length_map, List.length_range, groupToken]
  have hspan := readSpan_ok (e := e) (n := groupLength e) (a := e.ls.toNat) (by rw [groupLength]; omega)
  rw [← hdata, Enc.flushStep, if_neg (by omega)]
  exact congrArg (· >>= _) hspan

/-- What an engine has after a token was placed at `eop` (R52, R172). -/
def afterToken (bytes : List Byte) (e : Enc) : Enc :=
  { e with
    job := { e.job with out := Memory.place bytes e.eop.toNat e.job.out }
    eop := e.eop + BitVec.ofNat 32 bytes.length }

/-- `Emit` with room for a token that is not empty. -/
theorem emitToken_fits {bytes : List Byte} (go : Enc → Enc) (h1 : 1 ≤ bytes.length)
    (h : bytes.length ≤ e.job.outCap.toNat - e.eop.toNat) : e.emitToken bytes go = .ok (go (afterToken bytes e)) :=
  emitToken_ok (by omega) h

/-- Settles O54: a pending run is one `Emit` of its next group (`flushStep_run`), with its two outcomes; an empty run emits nothing. -/
theorem flushEmitsOneGroupAtATime : Obligations.FlushEmitsOneGroupAtATime := by
  unfold Obligations.FlushEmitsOneGroupAtATime
  intro P e hp hi n token
  rw [encStep_flush P hp]
  have hlen : token.length = n + 1 := groupToken_length e
  refine ⟨fun hls hroom => ?_, fun hls hroom => ?_, flushStep_match, flushStep_end⟩
  · rw [flushStep_run hls hi]
    exact emitToken_noRoom (by rw [groupToken_length]; exact hroom)
  · refine ⟨Memory.place token e.eop.toNat e.job.out, ?_, fun a => ?_⟩
    · rw [flushStep_run hls hi, emitToken_fits _ (Nat.le_add_left 1 _) (by rw [groupToken_length]; exact hroom), ← hlen]
      rfl
    · rw [read?_place, hlen]

theorem encodeRef_length (d l : Nat) : (encodeRef d l).length = if l ≤ 8 then 2 else 3 := by
  rw [encodeRef]
  split <;> rfl

theorem encodeRef_length_pos (d l : Nat) : 1 ≤ (encodeRef d l).length := by
  rw [encodeRef_length]
  split <;> omega

/-- An EMIT step is one `Emit` of the reference token (R168), then the cursor moves past the match (R169). -/
theorem emitStep_eq (hback : 1 ≤ e.i.toNat - e.ref.toNat) (hfar : e.i.toNat - e.ref.toNat ≤ 8192) (hmin : 3 ≤ e.mlen.toNat)
    (hmax : e.mlen.toNat ≤ 264) : e.emitStep = e.emitToken (encodeRef (e.i.toNat - e.ref.toNat) e.mlen.toNat)
      (fun e' => { e' with
        i := e'.i + BitVec.ofNat 32 e'.mlen.toNat, ls := e'.i + BitVec.ofNat 32 e'.mlen.toNat, phase := .probe }) := by
  simp only [Enc.emitStep, (refInstr_spec hback hfar hmin hmax).2.2, BitVec.ofNat_toNat]

/-- Settles O55: by the two outcomes of `Emit` (R172). -/
theorem matchTokenMovesTheCursor : Obligations.MatchTokenMovesTheCursor := by
  unfold Obligations.MatchTokenMovesTheCursor
  intro P e hp hback hfar hmin hmax token
  rw [encStep_emit P hp, emitStep_eq hback hfar hmin hmax]
  refine ⟨emitToken_noRoom, fun hroom => ⟨Memory.place token e.eop.toNat e.job.out, ?_, fun a => read?_place token _ _ a⟩⟩
  rw [emitToken_fits _ (encodeRef_length_pos _ _) hroom]
  rfl

end Sys2Proof.Proofs
end

section
/-! What `Compress` emits (spec/45_compressor.md R163): every `Emit` and every `Flush` appends the bytes of instructions to the output,
or runs out of room. -/

namespace Sys2Proof.Proofs

open Sys2Proof.Machine Sys2Proof.Laws

variable {input out : List Byte} {cap n a b c : Nat}

/-! ### `Emit` -/

theorem emitBytes_nil (cap : Nat) (out : List Byte) : emitBytes cap [] out = some out := by
  rw [emitBytes, List.length_nil, if_neg (Nat.not_lt_zero _), List.append_nil]

theorem emitBytes_noRoom {bytes : List Byte} (h : cap - out.length < bytes.length) : emitBytes cap bytes out = none :=
  if_pos h

theorem emitBytes_fits {bytes : List Byte} (h : bytes.length ≤ cap - out.length) :
    emitBytes cap bytes out = some (out ++ bytes) :=
  if_neg (Nat.not_lt.mpr h)

/-- Two tokens in a row have room when their bytes together have. -/
theorem emitBytes_append (cap : Nat) (x y out : List Byte) :
    emitBytes cap (x ++ y) out = (emitBytes cap x out).bind (emitBytes cap y) := by
  by_cases hx : cap - out.length < x.length
  · rw [emitBytes_noRoom hx, emitBytes_noRoom (by rw [List.length_append]; omega), Option.bind_none]
  rw [emitBytes_fits (Nat.le_of_not_lt hx), Option.bind_some]
  by_cases hy : cap - (out ++ x).length < y.length
  · rw [emitBytes_noRoom hy]
    rw [List.length_append] at hy
    exact emitBytes_noRoom (by rw [List.length_append]; omega)
  · rw [emitBytes_fits (Nat.le_of_not_lt hy), List.append_assoc]
    rw [List.length_append] at hy
    exact emitBytes_fits (by rw [List.length_append]; omega)

/-! ### `Flush` -/

/-- The bytes of some instructions, in order. -/
def bytesOf (ts : List Instr) : List Byte := ts.flatMap encode

@[simp] theorem bytesOf_nil : bytesOf [] = [] := rfl

theorem bytesOf_cons (i : Instr) (ts : List Instr) : bytesOf (i :: ts) = encode i ++ bytesOf ts := rfl

theorem bytesOf_append (ts us : List Instr) : bytesOf (ts ++ us) = bytesOf ts ++ bytesOf us := List.flatMap_append

/-- The input between two offsets. -/
abbrev spanOf (input : List Byte) (a b : Nat) : List Byte := (input.drop a).take (b - a)

theorem spanOf_length (hb : b ≤ input.length) : (spanOf input a b).length = b - a := by
  rw [List.length_take, List.length_drop]
  omega

theorem take_append_spanOf (hab : a ≤ b) : input.take a ++ spanOf input a b = input.take b := by
  rw [← List.take_add, Nat.add_sub_cancel' hab]

/-- The groups of a span that is not empty: its next group, then those of the rest of it. -/
theorem literalRunAux_span (n : Nat) (hab : a < b) (hb : b ≤ input.length) :
    literalRunAux (n + 1) (spanOf input a b) =
      .lit ((input.drop a).take (min 32 (b - a))) :: literalRunAux n (spanOf input (a + min 32 (b - a)) b) := by
  have hgroup : (spanOf input a b).take Config.maxLit = (input.drop a).take (min 32 (b - a)) := List.take_take
  have hrest : (spanOf input a b).drop Config.maxLit = spanOf input (a + min 32 (b - a)) b := by
    rw [spanOf, List.drop_take, List.drop_drop, spanOf, Config.maxLit]
    rcases Nat.le_total 32 (b - a) with h | h
    · rw [Nat.min_eq_left h, Nat.sub_sub]
    · rw [Nat.min_eq_right h, Nat.sub_eq_zero_of_le h, Nat.sub_eq_zero_of_le (by omega), List.take_zero, List.take_zero]
  cases hs : spanOf input a b with
  | nil =>
    have := spanOf_length (a := a) hb
    rw [hs, List.length_nil] at this
    omega
  | cons x xs => rw [literalRunAux, ← hs, hgroup, hrest]

/-- `Flush` emits one group, then the rest of the span. -/
theorem flushAux_succ (hab : a < b) : flushAux input cap (n + 1) a b out =
    (emitBytes cap (BitVec.ofNat 8 (min 32 (b - a) - 1) :: (input.drop a).take (min 32 (b - a))) out).bind
      (flushAux input cap n (a + min 32 (b - a)) b) := by
  simp only [flushAux, if_pos hab]
  cases emitBytes cap (BitVec.ofNat 8 (min 32 (b - a) - 1) :: (input.drop a).take (min 32 (b - a))) out <;> rfl

theorem flushAux_eq (hb : b ≤ input.length) (hn : b - a ≤ n) :
    flushAux input cap n a b out = emitBytes cap (bytesOf (literalRunAux n (spanOf input a b))) out := by
  induction n generalizing a out with
  | zero => exact (emitBytes_nil cap out).symm
  | succ n ih =>
    by_cases hab : a < b
    · have hlen : ((input.drop a).take (min 32 (b - a))).length = min 32 (b - a) := by
        rw [List.length_take, List.length_drop]
        omega
      have htok := encode_lit (data := (input.drop a).take (min 32 (b - a))) (by omega) (by omega)
      rw [hlen] at htok
      rw [flushAux_succ hab, literalRunAux_span n hab hb, bytesOf_cons, htok, emitBytes_append]
      exact Option.bind_congr fun out _ => ih (by omega)
    · have hspan : spanOf input a b = [] := by rw [spanOf, Nat.sub_eq_zero_of_le (by omega), List.take_zero]
      rw [flushAux, if_neg hab, hspan, literalRunAux_nil]
      exact (emitBytes_nil cap out).symm

/-- `Flush(a, b)` emits the `LITS` of the span (R98, R170). -/
theorem flushSpan_eq (hb : b ≤ input.length) (cap : Nat) (out : List Byte) :
    flushSpan input cap a b out = emitBytes cap (bytesOf (literalRun (spanOf input a b))) out := by
  rw [flushSpan, flushAux_eq hb le_rfl, literalRun, spanOf_length hb]

/-! ### The size of what is emitted -/

theorem bytesOf_length (ts : List Instr) : (bytesOf ts).length = ts.length + (ts.flatMap Instr.followUp).length := by
  induction ts with
  | nil => rfl
  | cons i ts ih =>
    rw [bytesOf_cons, List.flatMap_cons, List.length_append, List.length_append, ih, encode, List.length_cons, List.length_cons]
    omega

/-- A run costs its bytes and a control byte for each group of 32. -/
theorem literals_size (hb : b ≤ input.length) :
    (bytesOf (literalRun (spanOf input a b))).length = (b - a) + (b - a + 31) / 32 := by
  obtain ⟨-, hfollow, -, hcount⟩ := literalRunCarriesTheSpan (spanOf input a b)
  rw [bytesOf_length, hfollow, hcount, spanOf_length hb, Nat.add_comm]

/-! ### What is emitted, decoded -/

/-- The instructions `ts` take the output from the first `a` bytes of the input to its first `b` bytes (R94). -/
structure Encodes (input : List Byte) (a b : Nat) (ts : List Instr) : Prop where
  wellFormed : ∀ i ∈ ts, i.wellFormed = true
  expands : expandFrom (ts.map tokenOf) (input.take a) = some (input.take b)

theorem encodes_nil (input : List Byte) (a : Nat) : Encodes input a a [] := ⟨nofun, rfl⟩

theorem expandFrom_append (ts us : List Token) (o : List Byte) :
    expandFrom (ts ++ us) o = (expandFrom ts o).bind (expandFrom us) := by
  induction ts generalizing o with
  | nil => rfl
  | cons t ts ih =>
    rw [List.cons_append, expandFrom, expandFrom]
    cases expandOne t o with
    | none => rfl
    | some o' => exact ih o'

theorem Encodes.append {ts us : List Instr} (h : Encodes input a b ts) (h' : Encodes input b c us) :
    Encodes input a c (ts ++ us) :=
  ⟨fun i hi => (List.mem_append.1 hi).elim (h.wellFormed i) (h'.wellFormed i),
    by rw [List.map_append, expandFrom_append, h.expands, Option.bind_some, h'.expands]⟩

/-- Literal tokens append the bytes they carry. -/
theorem expandFrom_literals {ts : List Instr} (h : ∀ i ∈ ts, ∃ data : List Byte, i = .lit data) (o : List Byte) :
    expandFrom (ts.map tokenOf) o = some (o ++ ts.flatMap Instr.followUp) := by
  induction ts generalizing o with
  | nil => exact congrArg some (List.append_nil o).symm
  | cons i ts ih =>
    obtain ⟨⟨data, rfl⟩, hts⟩ := List.forall_mem_cons.1 h
    rw [List.flatMap_cons, ← List.append_assoc]
    exact ih hts (o ++ data)

theorem literals_encodes (hab : a ≤ b) : Encodes input a b (literalRun (spanOf input a b)) := by
  obtain ⟨htokens, hfollow, -, -⟩ := literalRunCarriesTheSpan (spanOf input a b)
  refine ⟨fun i hi => (htokens i hi).1, ?_⟩
  rw [expandFrom_literals fun i hi => (htokens i hi).2, hfollow, take_append_spanOf hab]

/-- A match the encoder may emit: `l` bytes at `i` that repeat those at `r` (R166, R167). -/
structure Repeats (input : List Byte) (r i l : Nat) : Prop where
  back : r < i
  reach : i - r ≤ 8192
  min : 3 ≤ l
  max : l ≤ 264
  fits : i + l ≤ input.length
  same : ∀ k, k < l → input.getD (r + k) 0 = input.getD (i + k) 0

/-- Copying back from a place that repeats appends the input's own next bytes (R94). -/
theorem appendBack_repeat {r i l : Nat} (hback : r < i) (hfits : i + l ≤ input.length)
    (hsame : ∀ k, k < l → input.getD (r + k) 0 = input.getD (i + k) 0) :
    appendBack (i - r) l (input.take i) = input.take (i + l) := by
  induction l generalizing r i with
  | zero => rfl
  | succ l ih =>
    have hlen : (input.take i).length = i := List.length_take_of_le (by omega)
    have hbyte : (input.take i).getD (i - (i - r)) 0 = input[i]'(by omega) := by
      have h0 := hsame 0 (by omega)
      simp only [Nat.add_zero] at h0
      rw [List.getD_eq_getElem _ _ (by omega), List.getD_eq_getElem _ _ (by omega)] at h0
      rw [List.getD_eq_getElem _ _ (by omega), List.getElem_take, ← h0]
      congr 1
      omega
    have hnext : input.take i ++ [input[i]'(by omega)] = input.take (i + 1) := (List.take_succ_eq_append_getElem _).symm
    have hstep := ih (r := r + 1) (i := i + 1) (by omega) (by omega) fun k hk => by
      have hk1 := hsame (k + 1) (by omega)
      rwa [show r + (k + 1) = r + 1 + k by omega, show i + (k + 1) = i + 1 + k by omega] at hk1
    rw [appendBack, hlen, hbyte, hnext, show i - r = i + 1 - (r + 1) by omega, hstep]
    congr 1
    omega

theorem match_encodes {r i l : Nat} (h : Repeats input r i l) : Encodes input i (i + l) [refInstr (i - r) l] := by
  obtain ⟨hback, hreach, hmin, hmax, hfits, hsame⟩ := h
  obtain ⟨hwf, htok, -⟩ := refInstr_spec (d := i - r) (by omega) hreach hmin hmax
  have hlen : (input.take i).length = i := List.length_take_of_le (by omega)
  refine ⟨by simpa using hwf, ?_⟩
  rw [List.map_singleton, htok, expandFrom, expandOne, if_pos (by omega), appendBack_repeat hback hfits hsame]
  rfl

/-- The bytes of a match token. -/
theorem match_bytes {r i l : Nat} (h : Repeats input r i l) : bytesOf [refInstr (i - r) l] = encodeRef (i - r) l := by
  have hback := h.back
  rw [bytesOf_cons, bytesOf_nil, List.append_nil, (refInstr_spec (by omega) h.reach h.min h.max).2.2]

/-- `parse` reads the bytes of well-formed instructions as their tokens. -/
theorem parseAux_bytesOf {ts : List Instr} (hwf : ∀ i ∈ ts, i.wellFormed = true) (hn : (bytesOf ts).length ≤ n) :
    parseAux n (bytesOf ts) = some (ts.map tokenOf) := by
  induction ts generalizing n with
  | nil => cases n <;> rfl
  | cons i ts ih =>
    obtain ⟨hi, hts⟩ := List.forall_mem_cons.1 hwf
    have hone := parseOne_encode hi (bytesOf ts)
    rw [bytesOf_cons, List.length_append, encode, List.length_cons] at hn
    cases n with
    | zero => omega
    | succ n =>
      rw [bytesOf_cons, encode, List.cons_append, parseAux]
      rw [encode, List.cons_append] at hone
      simp only [hone, ih hts (show (bytesOf ts).length ≤ n by omega), Option.map_some, List.map_cons]

theorem parse_bytesOf {ts : List Instr} (hwf : ∀ i ∈ ts, i.wellFormed = true) :
    parse (bytesOf ts) = some (ts.map tokenOf) :=
  parseAux_bytesOf hwf le_rfl

/-- Every well-formed instruction stands for a token a conforming encoder may emit (R174). -/
theorem conformingToken_tokenOf {i : Instr} (h : i.wellFormed = true) : conformingToken (tokenOf i) := by
  have hdist : ∀ (dh : BitVec 5) (r : Byte), 1 ≤ refDist dh r ∧ refDist dh r ≤ 8192 := fun dh r => by
    rw [refDist]
    omega
  cases i with
  | lit data => exact (lit_wellFormed data).1 h
  | lref dh e r => exact ⟨(hdist dh r).1, (hdist dh r).2, by omega, by omega⟩
  | _ dh r => exact ⟨(hdist dh r).1, (hdist dh r).2, by decide, by decide⟩

end Sys2Proof.Proofs
end

section
/-! The passes of `Compress` (spec/45_compressor.md R163 to R171), and its contract: the stream is a conforming encoding of the input,
within the bound (R160, R174, R177). -/

namespace Sys2Proof.Proofs

open Sys2Proof.Machine Sys2Proof.Laws

variable {P : EncParams} {input out stream : List Byte} {cap n : Nat} {v : CompressVars}

/-! ### The match at a position -/

/-- The bytes of the input by position, as `Compress` reads them. -/
abbrev byteAt (input : List Byte) (a : Nat) : Byte := input.getD a 0

theorem viableMatch_eq_some {entry : Option Nat} {i r : Nat} :
    viableMatch input entry i = some r ↔ entry = some r ∧ Candidate (byteAt input) input.length i r := by
  cases entry with
  | none => simp [viableMatch]
  | some r' =>
    simp only [viableMatch, Option.ite_none_right_eq_some, Option.some.injEq]
    constructor
    · rintro ⟨⟨hback, hreach, h0, h1, h2, hbeyond⟩, rfl⟩
      exact ⟨rfl, hback, hreach, window_iff.2 ⟨h0, h1, h2⟩, hbeyond⟩
    · rintro ⟨rfl, hback, hreach, hwindow, hbeyond⟩
      obtain ⟨h0, h1, h2⟩ := window_iff.1 hwindow
      exact ⟨⟨hback, hreach, h0, h1, h2, hbeyond⟩, rfl⟩

/-- A viable candidate is a match of the shortest length. -/
theorem Candidate.repeats {i r : Nat} (h : Candidate (byteAt input) input.length i r) : Repeats input r i 3 := by
  obtain ⟨hback, hreach, hwindow, hbeyond⟩ := h
  exact ⟨by omega, hreach, le_rfl, by omega, by omega, hwindow⟩

/-- The extension keeps a match a match (R167). -/
theorem extendMatch_repeats {i r m : Nat} (n : Nat) (h : Repeats input r i m) :
    Repeats input r i (extendMatch input r i n m) := by
  induction n generalizing m with
  | zero => exact h
  | succ n ih =>
    rw [extendMatch]
    split
    · next hgrow =>
      obtain ⟨hmax, hin, heq⟩ := hgrow
      obtain ⟨hback, hreach, hmin, -, -, hsame⟩ := h
      refine ih ⟨hback, hreach, by omega, hmax, by omega, fun k hk => ?_⟩
      rcases Nat.lt_succ_iff_lt_or_eq.1 hk with hk | rfl
      · exact hsame k hk
      · exact heq
    · exact h

/-! ### One pass, by its branches -/

/-- The table after a probe of a full window at the cursor (R165). -/
def probedTable (P : EncParams) (input : List Byte) (v : CompressVars) : Table Nat :=
  v.htab.set (hashAt P input v.i) v.i

/-- The match found at the cursor, if there is one (R166). -/
def matchAt (P : EncParams) (input : List Byte) (v : CompressVars) : Option Nat :=
  viableMatch input (v.htab.get? (hashAt P input v.i)) v.i

/-- What a match at `r` leaves: the cursor past it, and the run empty (R169). -/
def pastMatch (P : EncParams) (input : List Byte) (v : CompressVars) (r : Nat) (out : List Byte) : CompressVars :=
  { htab := probedTable P input v
    i := v.i + extendMatch input r v.i 261 3
    ls := v.i + extendMatch input r v.i 261 3
    out := out }

theorem compressPass_tail (h : input.length < v.i + 3) : compressPass P input cap v = some { v with i := v.i + 1 } := by
  rw [compressPass, if_neg (by omega)]

theorem compressPass_literal (hw : v.i + 3 ≤ input.length) (h : matchAt P input v = none) :
    compressPass P input cap v = some { v with htab := probedTable P input v, i := v.i + 1 } := by
  rw [matchAt] at h
  simp only [compressPass, if_pos (show 3 ≤ input.length - v.i by omega), h, probedTable]

theorem compressPass_match {r : Nat} (hw : v.i + 3 ≤ input.length) (h : matchAt P input v = some r) :
    compressPass P input cap v =
      ((flushSpan input cap v.ls v.i v.out).bind (emitBytes cap (encodeRef (v.i - r) (extendMatch input r v.i 261 3)))).map
        (pastMatch P input v r) := by
  rw [matchAt] at h
  simp only [compressPass, if_pos (show 3 ≤ input.length - v.i by omega), h]
  cases flushSpan input cap v.ls v.i v.out with
  | none => rfl
  | some out =>
    simp only [Option.bind_some]
    cases emitBytes cap (encodeRef (v.i - r) (extendMatch input r v.i 261 3)) out <;> rfl

theorem matchAt_repeats {r : Nat} (h : matchAt P input v = some r) :
    Repeats input r v.i (extendMatch input r v.i 261 3) :=
  extendMatch_repeats 261 (viableMatch_eq_some.1 h).2.repeats

/-- Every pass, whatever the output so far and the capacity: a byte joins the run, or the run and a match are emitted. -/
theorem compressPass_cases (P : EncParams) (hi : v.i < input.length) :
    (∃ htab, ∀ cap out, compressPass P input cap { v with out := out } = some { v with htab := htab, i := v.i + 1, out := out })
    ∨ ∃ htab r l, Repeats input r v.i l ∧ ∀ cap out, compressPass P input cap { v with out := out } =
        (emitBytes cap (bytesOf (literalRun (spanOf input v.ls v.i) ++ [refInstr (v.i - r) l])) out).map
          fun out => { htab := htab, i := v.i + l, ls := v.i + l, out := out } := by
  by_cases hw : v.i + 3 ≤ input.length
  · cases h : matchAt P input v with
    | none => exact .inl ⟨probedTable P input v, fun cap out => compressPass_literal (v := { v with out := out }) hw h⟩
    | some r =>
      have hr := matchAt_repeats h
      refine .inr ⟨probedTable P input v, r, _, hr, fun cap out => ?_⟩
      rw [compressPass_match (v := { v with out := out }) hw h, flushSpan_eq hi.le, bytesOf_append, match_bytes hr,
        emitBytes_append]
      rfl
  · exact .inl ⟨v.htab, fun cap out => compressPass_tail (v := { v with out := out }) (by simp only; omega)⟩

/-! ### All passes -/

theorem compressLoop_end (h : input.length ≤ v.i) (n : Nat) : compressLoop P input cap n v = some v := by
  cases n with
  | zero => rfl
  | succ n => rw [compressLoop, if_neg (Nat.not_lt.mpr h)]

theorem compressLoop_succ (h : v.i < input.length) (n : Nat) :
    compressLoop P input cap (n + 1) v = (compressPass P input cap v).bind (compressLoop P input cap n) := by
  rw [compressLoop, if_pos h]
  cases compressPass P input cap v <;> rfl

theorem compress_eq_elim (P : EncParams) (input : List Byte) (cap : Nat) :
    compress P input cap = ((compressLoop P input cap input.length { htab := [], i := 0, ls := 0, out := [] }).bind
      fun v => flushSpan input cap v.ls input.length v.out).elim (.error .insufficientBuffer) .ok := by
  rw [compress]
  cases compressLoop P input cap input.length { htab := [], i := 0, ls := 0, out := [] } with
  | none => rfl
  | some v =>
    simp only [Option.bind_some]
    cases flushSpan input cap v.ls input.length v.out <;> rfl

/-- What the passes from `v` and the last flush emit: an encoding of the rest of the input. A pass spends at most 33 bytes for 32 of the
input, since a match saves the control byte of a short group; the last run may end in a short group (R176, R177). -/
structure EmitsRest (input : List Byte) (a : Nat) (ts : List Instr) : Prop where
  encodes : Encodes input a input.length ts
  size : 32 * (bytesOf ts).length + 33 * a ≤ 33 * input.length + 31

theorem emitsRest_run {a : Nat} (ha : a ≤ input.length) : EmitsRest input a (literalRun (spanOf input a input.length)) := by
  refine ⟨literals_encodes ha, ?_⟩
  rw [literals_size le_rfl]
  omega

theorem EmitsRest.before_match {a i r l : Nat} {ts : List Instr} (ha : a ≤ i) (hr : Repeats input r i l)
    (h : EmitsRest input (i + l) ts) : EmitsRest input a (literalRun (spanOf input a i) ++ [refInstr (i - r) l] ++ ts) := by
  have hmin := hr.min
  have hfits := hr.fits
  have hsize := h.size
  refine ⟨((literals_encodes ha).append (match_encodes hr)).append h.encodes, ?_⟩
  rw [bytesOf_append, bytesOf_append, match_bytes hr, List.length_append, List.length_append, literals_size (by omega),
    encodeRef_length]
  split <;> omega

/-- The passes from `v` and the last flush are one `Emit`, of the same tokens whatever the output so far and the capacity (R178). -/
theorem compressLoop_emits (P : EncParams) (hls : v.ls ≤ v.i) (hi : v.i ≤ input.length) (hn : input.length - v.i ≤ n) :
    ∃ ts, EmitsRest input v.ls ts ∧ ∀ cap out, (compressLoop P input cap n { v with out := out }).bind
      (fun v' => flushSpan input cap v'.ls input.length v'.out) = emitBytes cap (bytesOf ts) out := by
  induction n generalizing v with
  | zero =>
    refine ⟨_, emitsRest_run (hls.trans hi), fun cap out => ?_⟩
    rw [compressLoop_end (by simp only; omega), Option.bind_some, flushSpan_eq le_rfl]
  | succ n ih =>
    by_cases hlt : v.i < input.length
    · rcases compressPass_cases P hlt with ⟨htab, hpass⟩ | ⟨htab, r, l, hr, hpass⟩
      · obtain ⟨ts, hts, heq⟩ := ih (v := { v with htab := htab, i := v.i + 1 }) (by simp only; omega) hlt (by simp only; omega)
        refine ⟨ts, hts, fun cap out => ?_⟩
        rw [compressLoop_succ (v := { v with out := out }) hlt, hpass, Option.bind_some]
        exact heq cap out
      · have hmin := hr.min
        obtain ⟨ts, hts, heq⟩ := ih (v := { htab := htab, i := v.i + l, ls := v.i + l, out := [] }) le_rfl hr.fits
          (by simp only; omega)
        refine ⟨_, hts.before_match hls hr, fun cap out => ?_⟩
        rw [compressLoop_succ (v := { v with out := out }) hlt, hpass, bytesOf_append _ ts, emitBytes_append, Option.bind_map, Option.bind_assoc]
        exact Option.bind_congr fun out _ => heq cap out
    · refine ⟨_, emitsRest_run (hls.trans hi), fun cap out => ?_⟩
      rw [compressLoop_end (by simp only; omega), Option.bind_some, flushSpan_eq le_rfl]

/-- `Compress` in closed form: an encoding of the input that does not depend on the capacity, if it fits (R172, R178). -/
theorem compress_eq (P : EncParams) (input : List Byte) : ∃ ts, EmitsRest input 0 ts ∧ ∀ cap,
    compress P input cap = if cap < (bytesOf ts).length then .error .insufficientBuffer else .ok (bytesOf ts) := by
  obtain ⟨ts, hts, heq⟩ := compressLoop_emits (input := input) (v := { htab := [], i := 0, ls := 0, out := [] }) P le_rfl
    (Nat.zero_le _) le_rfl
  refine ⟨ts, hts, fun cap => ?_⟩
  rw [compress_eq_elim]
  refine (congrArg (Option.elim · _ _) (heq cap [])).trans ?_
  by_cases hroom : cap < (bytesOf ts).length
  · rw [if_pos hroom, emitBytes_noRoom hroom, Option.elim_none]
  · rw [if_neg hroom, emitBytes_fits (Nat.le_of_not_lt hroom), Option.elim_some, List.nil_append]

theorem compress_eq_ok (h : compress P input cap = .ok stream) :
    ∃ ts, EmitsRest input 0 ts ∧ stream = bytesOf ts ∧ stream.length ≤ cap := by
  obtain ⟨ts, hts, heq⟩ := compress_eq P input
  rw [heq] at h
  split at h
  · cases h
  · next hroom =>
    cases h
    exact ⟨ts, hts, rfl, Nat.le_of_not_lt hroom⟩

theorem EmitsRest.le_bound {ts : List Instr} (h : EmitsRest input 0 ts) : (bytesOf ts).length ≤ boundNat input.length := by
  have hsize := h.size
  rw [boundNat]
  omega

/-- Settles O58: the stream does not depend on the capacity (`compress_eq`), and is within the bound (`EmitsRest.le_bound`). -/
theorem compressionStaysWithinTheBound : Obligations.CompressionStaysWithinTheBound := by
  unfold Obligations.CompressionStaysWithinTheBound
  intro P input cap
  refine ⟨fun stream h => ?_, fun hcap => ?_, fun k h => ?_⟩
  · obtain ⟨ts, hts, rfl, hroom⟩ := compress_eq_ok h
    exact ⟨hroom, hts.le_bound⟩
  · obtain ⟨ts, hts, heq⟩ := compress_eq P input
    exact ⟨_, (heq cap).trans (if_neg (Nat.not_lt.mpr (hts.le_bound.trans hcap)))⟩
  · obtain ⟨ts, -, heq⟩ := compress_eq P input
    rw [heq] at h
    split at h <;> cases h
    rfl

theorem decodedData_of_encodes {ts : List Instr} (h : Encodes input 0 input.length ts) :
    decodedData (bytesOf ts) = some input := by
  have hexpand := h.expands
  rw [List.take_zero, List.take_length] at hexpand
  rw [decodedData, parse_bytesOf h.wellFormed, Option.bind_some]
  exact hexpand

/-- Settles O59: the stream is the bytes of well-formed instructions that encode the input (`compress_eq_ok`), and `parse` reads their
tokens (`parse_bytesOf`). -/
theorem emittedStreamConforms : Obligations.EmittedStreamConforms := by
  unfold Obligations.EmittedStreamConforms
  intro P input stream cap h
  obtain ⟨ts, ⟨hts, -⟩, rfl, -⟩ := compress_eq_ok h
  refine ⟨decodedData_of_encodes hts, _, parse_bytesOf hts.wellFormed, fun t ht => ?_⟩
  obtain ⟨i, hi, rfl⟩ := List.mem_map.1 ht
  exact conformingToken_tokenOf (hts.wellFormed i hi)

end Sys2Proof.Proofs
end

section
/-! Runs of the compressor's steps, and what they make of a computation of `Compress` that may run out of room
(spec/45_compressor.md R163, R172, R180). -/

namespace Sys2Proof.Proofs

open Sys2Proof.Machine Sys2Proof.Laws

variable {P : EncParams} {e e' e'' : Enc}

/-! ### Runs -/

/-- Some number of steps takes the engine from `e` to `e'`. -/
def Reaches (P : EncParams) (e e' : Enc) : Prop := ∃ n, Enc.steps P n e = .ok e'

theorem encSteps_add (P : EncParams) (m n : Nat) (e : Enc) :
    Enc.steps P (m + n) e = Enc.steps P m e >>= Enc.steps P n := by
  induction m generalizing e with
  | zero => rw [Nat.zero_add]; rfl
  | succ m ih =>
    rw [Nat.succ_add, Enc.steps, Enc.steps]
    cases e.step P with
    | error f => rfl
    | ok e' => exact ih e'

theorem Reaches.refl (P : EncParams) (e : Enc) : Reaches P e e := ⟨0, rfl⟩

theorem reaches_step (h : e.step P = .ok e') : Reaches P e e' :=
  ⟨1, by rw [Enc.steps, h]; rfl⟩

theorem Reaches.trans (h : Reaches P e e') (h' : Reaches P e' e'') : Reaches P e e'' := by
  obtain ⟨m, hm⟩ := h
  obtain ⟨n, hn⟩ := h'
  exact ⟨m + n, by rw [encSteps_add, hm, except_ok_bind, hn]⟩

theorem encSteps_frame {j : Job} (P : EncParams) (n : Nat) (h : JobFrame j e.job) : EncFrame j (Enc.steps P n e) := by
  induction n generalizing e with
  | zero => exact answers_ok h
  | succ n ih => exact answers_bind (encStep_frame P h) fun _ => ih

theorem Reaches.frame (h : Reaches P e e') : JobFrame e.job e'.job := by
  obtain ⟨n, hn⟩ := h
  exact encSteps_frame P n (.refl _) e' hn

theorem encSteps_done (hp : e.phase = .done) (n : Nat) : Enc.steps P n e = .ok e := by
  induction n with
  | zero => rfl
  | succ n ih => rw [Enc.steps, encStep_done P hp, except_ok_bind, ih]

/-- A longer run keeps the end of a finished job. -/
theorem encSteps_done_of_le {m n : Nat} (hm : Enc.steps P m e = .ok e') (hp : e'.phase = .done) (hle : m ≤ n) :
    Enc.steps P n e = .ok e' := by
  obtain ⟨k, rfl⟩ := Nat.exists_eq_add_of_le hle
  rw [encSteps_add, hm, except_ok_bind, encSteps_done hp]

/-- A job has one end. -/
theorem Reaches.done_unique (h : Reaches P e e') (hp : e'.phase = .done) (h' : Reaches P e e'') (hp' : e''.phase = .done) :
    e' = e'' := by
  obtain ⟨m, hm⟩ := h
  obtain ⟨n, hn⟩ := h'
  have h1 := encSteps_done_of_le hm hp (Nat.le_max_left m n)
  have h2 := encSteps_done_of_le hn hp' (Nat.le_max_right m n)
  exact Except.ok.inj (h1.symm.trans h2)

/-- A listed turn of `ENC` is a step of its sequencer. -/
theorem step_run_enc {s : State} {rest : List Move} (hm : s.moves = .run .enc :: rest) (h : s.enc.step encParams = .ok e) :
    step s = .next { s with enc := e, moves := rest } := by
  rw [step_of_moves hm]
  exact congrArg (State.ofEnc { s with moves := rest }) h

/-- With its turns listed, the block takes the steps of `ENC` (log 11). -/
theorem run_encSteps {n : Nat} {s : State} (h : Enc.steps encParams n s.enc = .ok e) (rest : List Move) :
    Sys2Proof.core.run n { s with moves := List.replicate n (.run .enc) ++ rest } = .next { s with enc := e, moves := rest } := by
  induction n generalizing s with
  | zero => cases h; rfl
  | succ n ih =>
    obtain ⟨e₁, h1, hn⟩ := bind_eq_ok h
    have hturn := step_run_enc (s := { s with moves := List.replicate (n + 1) (.run .enc) ++ rest }) rfl h1
    exact (run_succ hturn n).trans (ih (s := { s with enc := e₁ }) hn)

/-! ### Following a computation that may run out of room -/

/-- What the engine, from `e`, makes of such a computation: it raises when there is no room (R172), else it gets to an engine that the
result is said of. -/
inductive Follows (P : EncParams) (e : Enc) {α : Type} (p : α → Enc → Prop) : Option α → Prop
  | raises {e₀ : Enc} (h : Reaches P e (e₀.raise .insufficientBuffer)) : Follows P e p none
  | gets {a : α} {e' : Enc} (h : Reaches P e e') (hp : p a e') : Follows P e p (some a)

variable {α β : Type} {p : α → Enc → Prop} {q : β → Enc → Prop} {r : Option α}

theorem Follows.after (h : Reaches P e e') (hr : Follows P e' p r) : Follows P e p r := by
  cases hr with
  | raises h' => exact .raises (h.trans h')
  | gets h' hp => exact .gets (h.trans h') hp

theorem Follows.bind {f : α → Option β} (hr : Follows P e p r) (hf : ∀ a e', r = some a → p a e' → Follows P e' q (f a)) :
    Follows P e q (r.bind f) := by
  cases hr with
  | raises h => exact .raises h
  | gets h hp => exact (hf _ _ rfl hp).after h

theorem Follows.map {f : α → β} (hr : Follows P e p r) (hf : ∀ a e', p a e' → q (f a) e') : Follows P e q (r.map f) := by
  cases hr with
  | raises h => exact .raises h
  | gets h hp => exact .gets h (hf _ _ hp)

/-- From what the result is said of, the engine may go on. -/
theorem Follows.onward {q : α → Enc → Prop} (hr : Follows P e p r) (hq : ∀ a e', p a e' → ∃ e'', Reaches P e' e'' ∧ q a e'') :
    Follows P e q r := by
  cases hr with
  | raises h => exact .raises h
  | gets h hp =>
    obtain ⟨e'', h', hq'⟩ := hq _ _ hp
    exact .gets (h.trans h') hq'

end Sys2Proof.Proofs
end

section
/-! The compressor follows `Compress` (spec/45_compressor.md R163 to R172, R180): `Emit`, `Flush` and the extension of a match, each step
by step. -/

namespace Sys2Proof.Proofs

open Sys2Proof.Machine Sys2Proof.Laws

variable {P : EncParams} {e : Enc} {input out bytes : List Byte} {cap n : Nat}

/-! ### A running job -/

/-- A job on `input` with capacity `cap` whose output so far is `out`. -/
structure Writing (cap : Nat) (input out : List Byte) (e : Enc) : Prop where
  inLen : e.job.inLen.toNat = input.length
  bytes : ∀ a, a < input.length → encByte e a = byteAt input a
  outCap : e.job.outCap.toNat = cap
  room : e.eop.toNat ≤ cap
  holds : Holds out e.job.out e.eop

/-- What is said of a running job is said of its interface and of `eop`. -/
theorem Writing.congr {e' : Enc} (h : Writing cap input out e) (hj : e'.job = e.job) (heop : e'.eop = e.eop) :
    Writing cap input out e' := by
  obtain ⟨hin, hbytes, hcap, hroom, hholds⟩ := h
  refine ⟨by rw [hj, hin], fun a ha => ?_, by rw [hj, hcap], by rw [heop]; exact hroom, by rw [hj, heop]; exact hholds⟩
  rw [encByte, hj]
  exact hbytes a ha

/-- `Emit` of a token that is not empty does what `Compress` does with its bytes (R172). -/
theorem emitToken_follows (go : Enc → Enc) (h : Writing cap input out e) (h1 : 1 ≤ bytes.length) :
    (emitBytes cap bytes out = none ∧ e.emitToken bytes go = .ok (e.raise .insufficientBuffer))
    ∨ (emitBytes cap bytes out = some (out ++ bytes) ∧ e.emitToken bytes go = .ok (go (afterToken bytes e))
      ∧ Writing cap input (out ++ bytes) (afterToken bytes e)) := by
  obtain ⟨hin, hbytes, hcap, hroom, hholds⟩ := h
  have hcur := hholds.cursor
  by_cases hfit : bytes.length ≤ cap - out.length
  · have hend : e.eop.toNat + bytes.length ≤ e.job.outCap.toNat := by omega
    refine .inr ⟨emitBytes_fits hfit, emitToken_fits go h1 (by omega), hin, hbytes, hcap, ?_, hholds.place hend⟩
    rw [afterToken, word_add_toNat hend]
    omega
  · exact .inl ⟨emitBytes_noRoom (Nat.lt_of_not_le hfit), emitToken_noRoom (by omega)⟩

/-! ### The flush of the pending run -/

/-- `e` with its pending run flushed and the output `out`: no other register has changed. -/
def Flushed (cap : Nat) (input : List Byte) (e : Enc) (out : List Byte) (e' : Enc) : Prop :=
  (∃ job eop, e' = { e with job := job, eop := eop, ls := e.i }) ∧ Writing cap input out e'

theorem flushed_self (h : Writing cap input out e) (hls : e.ls = e.i) : Flushed cap input e out e :=
  ⟨⟨e.job, e.eop, congrArg (fun ls => { e with ls := ls }) hls⟩, h⟩

/-- The next group of the run is the token `Flush` emits (R170). -/
theorem groupToken_eq (h : Writing cap input out e) (hi : e.i.toNat ≤ input.length) :
    groupToken e = BitVec.ofNat 8 (groupLength e - 1) :: (input.drop e.ls.toNat).take (groupLength e) := by
  have hn : groupLength e ≤ e.i.toNat - e.ls.toNat := Nat.min_le_right _ _
  have hdata : (List.range (groupLength e)).map (fun k => encByte e (e.ls.toNat + k)) =
      (input.drop e.ls.toNat).take (groupLength e) := by
    refine List.ext_getElem (by simp; omega) fun k hk _ => ?_
    have hk' : k < groupLength e := by simpa using hk
    rw [List.getElem_map, List.getElem_range, h.bytes _ (by omega), List.getElem_take, List.getElem_drop,
      byteAt, List.getD_eq_getElem _ _ (by omega)]
  rw [groupToken, hdata]

theorem flush_follows (P : EncParams) (hp : e.phase = .flush) (h : Writing cap input out e) (hls : e.ls.toNat ≤ e.i.toNat)
    (hi : e.i.toNat ≤ input.length) (hn : e.i.toNat - e.ls.toNat ≤ n) :
    Follows P e (Flushed cap input e) (flushAux input cap n e.ls.toNat e.i.toNat out) := by
  induction n generalizing e out with
  | zero =>
    exact .gets (.refl P e) (flushed_self h (BitVec.eq_of_toNat_eq (by omega)))
  | succ n ih =>
    by_cases hlt : e.ls.toNat < e.i.toNat
    · have hgroup : 1 ≤ groupLength e ∧ e.ls.toNat + groupLength e ≤ e.i.toNat := by
        rw [groupLength]
        omega
      have hstep := (encStep_flush P hp).trans (flushStep_run hlt (by rw [h.inLen]; exact hi))
      have hflush : flushAux input cap (n + 1) e.ls.toNat e.i.toNat out =
          (emitBytes cap (groupToken e) out).bind (flushAux input cap n (e.ls.toNat + groupLength e) e.i.toNat) := by
        rw [groupToken_eq h hi]
        exact flushAux_succ hlt
      rw [hflush]
      rcases emitToken_follows (bytes := groupToken e) (fun e' => { e' with ls := e'.ls + BitVec.ofNat 32 (groupLength e) }) h
          (Nat.le_add_left 1 _) with ⟨hemit, htok⟩ | ⟨hemit, htok, hw⟩
      · rw [hemit]
        exact .raises (reaches_step (hstep.trans htok))
      · rw [hemit, Option.bind_some, ← word_add_toNat hgroup.2]
        refine .after (reaches_step (hstep.trans htok)) ?_
        have hadv : (e.ls + BitVec.ofNat 32 (groupLength e)).toNat = e.ls.toNat + groupLength e := word_add_toNat hgroup.2
        refine Follows.onward (ih (e := { afterToken (groupToken e) e with ls := e.ls + BitVec.ofNat 32 (groupLength e) }) hp
          (hw.congr rfl rfl) (by simp only [hadv]; exact hgroup.2) hi (by simp only [hadv, afterToken]; omega)) ?_
        rintro out' _ ⟨⟨job, eop, rfl⟩, hw'⟩
        exact ⟨_, .refl P _, ⟨job, eop, rfl⟩, hw'⟩
    · rw [flushAux, if_neg hlt]
      exact .gets (.refl P e) (flushed_self h (BitVec.eq_of_toNat_eq (by omega)))

/-! ### The extension of a match -/

theorem grows_iff (h : Writing cap input out e) (href : e.ref.toNat < e.i.toNat) : Grows e ↔
    e.mlen.toNat < 264 ∧ e.i.toNat + e.mlen.toNat < input.length
      ∧ byteAt input (e.ref.toNat + e.mlen.toNat) = byteAt input (e.i.toNat + e.mlen.toNat) := by
  rw [Grows, h.inLen]
  refine and_congr_right fun _ => and_congr_right fun hin => ?_
  rw [h.bytes _ (by omega), h.bytes _ hin]

theorem extend_stops (P : EncParams) (hp : e.phase = .extend) (href : e.ref.toNat < e.i.toNat) (hg : ¬ Grows e) :
    Reaches P e { e with phase := .flush, mlen := BitVec.ofNat 9 e.mlen.toNat } := by
  rw [BitVec.ofNat_toNat, BitVec.setWidth_eq]
  exact reaches_step ((encStep_extend P hp).trans (extendStep_stops href hg))

/-- The EXTEND steps compute the length of the match (R167). -/
theorem extend_reaches (P : EncParams) (hp : e.phase = .extend) (h : Writing cap input out e)
    (href : e.ref.toNat < e.i.toNat) (hn : e.mlen.toNat + n = 264) :
    Reaches P e { e with
      phase := .flush, mlen := BitVec.ofNat 9 (extendMatch input e.ref.toNat e.i.toNat n e.mlen.toNat) } := by
  induction n generalizing e with
  | zero =>
    refine extend_stops P hp href fun hg => ?_
    have := hg.1
    omega
  | succ n ih =>
    rw [extendMatch]
    by_cases hg : Grows e
    · have hnext : (e.mlen + 1).toNat = e.mlen.toNat + 1 := by
        have := hg.1
        bv_omega
      rw [if_pos ((grows_iff h href).1 hg), ← hnext]
      refine (reaches_step ((encStep_extend P hp).trans (extendStep_grows href hg))).trans ?_
      exact ih (e := { e with mlen := e.mlen + 1 }) hp (h.congr rfl rfl) href (by simp only [hnext]; omega)
    · rw [if_neg (mt (grows_iff h href).2 hg)]
      exact extend_stops P hp href hg

end Sys2Proof.Proofs
end

section
/-! The compressor computes `Compress` (spec/45_compressor.md R163, R178, R180): each pass, all passes, and the end of the job. -/

namespace Sys2Proof.Proofs

open Sys2Proof.Machine Sys2Proof.Laws

variable {P : EncParams} {e : Enc} {input out : List Byte} {cap n : Nat} {v : CompressVars}

/-! ### The table -/

/-- A hash table with its offsets as numbers. -/
def natTable (t : HTab) : Table Nat := t.map fun c => (c.1, c.2.toNat)

theorem get?_natTable (t : HTab) (k : Nat) : Table.get? (natTable t) k = (Table.get? t k).map BitVec.toNat := by
  induction t with
  | nil => rfl
  | cons c t ih =>
    obtain ⟨k', w⟩ := c
    have hcons : natTable ((k', w) :: t) = (k', w.toNat) :: natTable t := rfl
    rw [hcons, get?_cons, get?_cons, ih]
    split <;> rfl

theorem set_natTable (t : HTab) (k : Nat) (a : Word) : natTable (Table.set t k a) = Table.set (natTable t) k a.toNat := by
  induction t with
  | nil => rfl
  | cons c t ih =>
    obtain ⟨k', w⟩ := c
    have hcons : ∀ (c : Nat × Word) (t : HTab), natTable (c :: t) = (c.1, c.2.toNat) :: natTable t := fun _ _ => rfl
    simp only [Table.set, hcons]
    split
    · rfl
    · split
      · rfl
      · rw [hcons, ih]

/-! ### One pass -/

/-- The engine before a pass of the loop with the variables `v` (R163). -/
structure AtPass (cap : Nat) (input : List Byte) (v : CompressVars) (e : Enc) : Prop where
  phase : e.phase = .probe
  cursor : e.i.toNat = v.i
  runStart : e.ls.toNat = v.ls
  run : v.ls ≤ v.i
  inside : v.i ≤ input.length
  table : natTable e.htab = v.htab
  writing : Writing cap input v.out e

theorem hashAt_eq (h : AtPass cap input v e) (hw : v.i + 3 ≤ input.length) : hashAt P input v.i = probeIndex P e := by
  have hb := h.writing.bytes
  rw [probeIndex, h.cursor, hb _ (by omega), hb _ (by omega), hb _ (by omega), hashAt]

/-- The pass finds a match exactly where the candidate the probe reads is viable (R165, R166). -/
theorem matchAt_iff {r : Nat} (h : AtPass cap input v e) (hw : v.i + 3 ≤ input.length) :
    matchAt P input v = some r ↔
      RefViable (e.probeTable (probeIndex P e)) ∧ (e.probeTable (probeIndex P e)).ref.toNat = r := by
  obtain ⟨-, href, -⟩ := probeTable_entry e (probeIndex P e)
  have hcand : ∀ w : Word, Candidate (byteAt input) input.length v.i w.toNat ↔
      Candidate (encByte e) e.job.inLen.toNat e.i.toNat w.toNat := fun w => by
    rw [h.writing.inLen, h.cursor]
    exact candidate_congr fun a ha => (h.writing.bytes a ha).symm
  rw [matchAt, hashAt_eq h hw, ← h.table, get?_natTable, viableMatch_eq_some, refViable_probeTable]
  constructor
  · rintro ⟨hentry, hc⟩
    obtain ⟨w, hw, rfl⟩ := Option.map_eq_some_iff.1 hentry
    exact ⟨⟨w, hw, (hcand w).1 hc⟩, congrArg BitVec.toNat (href w hw)⟩
  · rintro ⟨⟨w, hw, hc⟩, rfl⟩
    rw [href w hw, hw]
    exact ⟨rfl, (hcand w).2 hc⟩

/-- A byte joins the run. -/
theorem AtPass.skip (h : AtPass cap input v e) (hlt : v.i < input.length) {e' : Enc} {htab : Table Nat}
    (hp : e'.phase = .probe) (hi : e'.i = e.i) (hls : e'.ls = e.ls) (htable : natTable e'.htab = htab)
    (hw : Writing cap input v.out e') :
    AtPass cap input { v with htab := htab, i := v.i + 1 } e'.skipByte := by
  have hcur : (e.i + 1).toNat = v.i + 1 := by
    rw [word_succ_toNat (y := e.job.inLen) (by rw [h.cursor, h.writing.inLen]; exact hlt), h.cursor]
  refine ⟨hp, by rw [Enc_skipByte_i, hi, hcur], by rw [Enc_skipByte_ls, hls, h.runStart], ?_, hlt, htable, hw.congr rfl rfl⟩
  exact h.run.trans (Nat.le_succ _)

/-- With the run flushed, the match token is emitted and the cursor moves past the match (R168, R169). -/
theorem emitMatch_follows (P : EncParams) (hp : e.phase = .flush) (hls : e.ls = e.i)
    (hr : Repeats input e.ref.toNat e.i.toNat e.mlen.toNat) (h : Writing cap input out e) :
    Follows P e (fun out' => AtPass cap input
        { htab := natTable e.htab, i := e.i.toNat + e.mlen.toNat, ls := e.i.toNat + e.mlen.toNat, out := out' })
      (emitBytes cap (encodeRef (e.i.toNat - e.ref.toNat) e.mlen.toNat) out) := by
  obtain ⟨hback, hreach, hmin, hmax, hfits, -⟩ := hr
  have hne : e.i ≠ e.job.inLen := fun hi => by
    have hin := h.inLen
    rw [← hi] at hin
    omega
  have hpast : (e.i + BitVec.ofNat 32 e.mlen.toNat).toNat = e.i.toNat + e.mlen.toNat :=
    word_add_toNat (y := e.job.inLen) (by rw [h.inLen]; exact hfits)
  refine .after (reaches_step ((encStep_flush P hp).trans (flushStep_match hls hne))) ?_
  have hstep := (encStep_emit (e := { e with phase := .emit }) P rfl).trans
    (emitStep_eq (e := { e with phase := .emit }) (by simp only; omega) hreach hmin hmax)
  rcases emitToken_follows (e := { e with phase := .emit }) (bytes := encodeRef (e.i.toNat - e.ref.toNat) e.mlen.toNat)
      (fun e' => { e' with
        i := e'.i + BitVec.ofNat 32 e'.mlen.toNat, ls := e'.i + BitVec.ofNat 32 e'.mlen.toNat, phase := .probe })
      (h.congr rfl rfl) (encodeRef_length_pos _ _) with ⟨hemit, htok⟩ | ⟨hemit, htok, hw⟩
  · rw [hemit]
    exact .raises (reaches_step (hstep.trans htok))
  · rw [hemit]
    exact .gets (reaches_step (hstep.trans htok)) ⟨rfl, hpast, hpast, le_rfl, hfits, rfl, hw.congr rfl rfl⟩

/-- The engine in a pass `v` that has found a match at `r` and extended it as far as it goes: the run is still pending. -/
structure AtMatch (P : EncParams) (cap : Nat) (input : List Byte) (v : CompressVars) (r : Nat) (e : Enc) : Prop where
  phase : e.phase = .flush
  cursor : e.i.toNat = v.i
  runStart : e.ls.toNat = v.ls
  ref : e.ref.toNat = r
  length : e.mlen.toNat = extendMatch input r v.i 261 3
  table : natTable e.htab = probedTable P input v
  writing : Writing cap input v.out e

theorem natTable_probeTable (h : AtPass cap input v e) (hw : v.i + 3 ≤ input.length) :
    natTable (e.probeTable (probeIndex P e)).htab = probedTable P input v := by
  rw [Enc_probeTable_htab, set_natTable, h.table, h.cursor, probedTable, hashAt_eq h hw]

/-- The steps from a probe that finds a match to the end of its extension (R165 to R167). -/
theorem match_reached {r : Nat} (h : AtPass cap input v e) (hw : v.i + 3 ≤ input.length) (hm : matchAt P input v = some r) :
    ∃ e', Reaches P e e' ∧ AtMatch P cap input v r e' := by
  obtain ⟨hv, href⟩ := (matchAt_iff h hw).1 hm
  have hr := matchAt_repeats hm
  have hwin : e.i.toNat + 3 ≤ e.job.inLen.toNat := by rw [h.cursor, h.writing.inLen]; exact hw
  have hback : (e.probeTable (probeIndex P e)).ref.toNat < e.i.toNat := by rw [href, h.cursor]; exact hr.back
  have hextend := extend_reaches (n := 261) (e := { e.probeTable (probeIndex P e) with mlen := 3, phase := .extend }) P rfl
    (h.writing.congr rfl rfl) hback rfl
  refine ⟨_, (reaches_step ((encStep_probe P h.phase).trans ((probeStep_window P hwin).1 hv))).trans hextend,
    rfl, h.cursor, h.runStart, href, ?_, natTable_probeTable h hw, h.writing.congr rfl rfl⟩
  have hmax := hr.max
  simp only [Enc_probeTable_i, href, h.cursor]
  show (BitVec.ofNat 9 (extendMatch input r v.i 261 3)).toNat = _
  rw [BitVec.toNat_ofNat, Nat.mod_eq_of_lt (by omega)]

/-- From there the run is flushed and the match emitted (R168, R169). -/
theorem AtMatch.follows {r : Nat} (h : AtMatch P cap input v r e) (hrun : v.ls ≤ v.i)
    (hr : Repeats input r v.i (extendMatch input r v.i 261 3)) :
    Follows P e (AtPass cap input)
      (((flushSpan input cap v.ls v.i v.out).bind (emitBytes cap (encodeRef (v.i - r) (extendMatch input r v.i 261 3)))).map
        (pastMatch P input v r)) := by
  obtain ⟨hp, hcur, hls, href, hlen, htable, hw⟩ := h
  have hfits := hr.fits
  have hflush := flush_follows (n := e.i.toNat - e.ls.toNat) P hp hw (by omega) (by omega) le_rfl
  rw [hcur, hls] at hflush
  refine (hflush.bind fun out' e' _ hf => ?_).map fun out' e' hat => hat
  obtain ⟨⟨job, eop, rfl⟩, hw'⟩ := hf
  rw [← hlen, ← href, ← hcur] at hr
  have hemit := emitMatch_follows (e := { e with job := job, eop := eop, ls := e.i }) P hp rfl hr hw'
  simpa only [pastMatch, htable, hcur, href, hlen] using hemit

theorem match_follows {r : Nat} (h : AtPass cap input v e) (hw : v.i + 3 ≤ input.length) (hm : matchAt P input v = some r) :
    Follows P e (AtPass cap input) (compressPass P input cap v) := by
  obtain ⟨e', hreach, hat⟩ := match_reached h hw hm
  rw [compressPass_match hw hm]
  exact .after hreach (hat.follows h.run (matchAt_repeats hm))

/-- A pass of the loop, by the branches of the probe. -/
theorem pass_follows (P : EncParams) (h : AtPass cap input v e) (hlt : v.i < input.length) :
    Follows P e (AtPass cap input) (compressPass P input cap v) := by
  have hi : e.i.toNat < e.job.inLen.toNat := by rw [h.cursor, h.writing.inLen]; exact hlt
  by_cases hw : v.i + 3 ≤ input.length
  · cases hm : matchAt P input v with
    | some r => exact match_follows h hw hm
    | none =>
      have hv : ¬ RefViable (e.probeTable (probeIndex P e)) := fun hv => by
        have := (matchAt_iff h hw).2 ⟨hv, rfl⟩
        rw [hm] at this
        cases this
      have hwin : e.i.toNat + 3 ≤ e.job.inLen.toNat := by rw [h.cursor, h.writing.inLen]; exact hw
      rw [compressPass_literal hw hm]
      refine .gets (reaches_step ((encStep_probe P h.phase).trans ((probeStep_window P hwin).2 hv)))
        (h.skip hlt (by exact h.phase) rfl rfl (natTable_probeTable h hw) (h.writing.congr rfl rfl))
  · have htail : e.job.inLen.toNat < e.i.toNat + 3 := by rw [h.cursor, h.writing.inLen]; omega
    rw [compressPass_tail (by omega)]
    exact .gets (reaches_step ((encStep_probe P h.phase).trans (probeStep_tail P hi htail)))
      (h.skip hlt h.phase rfl rfl h.table h.writing)

/-! ### All passes, and the end of the job -/

/-- A pass moves the cursor. -/
theorem compressPass_cursor_lt {v' : CompressVars} (hi : v.i < input.length) (h : compressPass P input cap v = some v') :
    v.i < v'.i := by
  rcases compressPass_cases P hi with ⟨htab, hpass⟩ | ⟨htab, r, l, hr, hpass⟩
  · cases (hpass cap v.out).symm.trans h
    exact Nat.lt_succ_self _
  · obtain ⟨out, -, rfl⟩ := Option.map_eq_some_iff.1 ((hpass cap v.out).symm.trans h)
    have hmin := hr.min
    simp only
    omega

/-- The passes end at the end of the input. -/
theorem loop_follows (P : EncParams) (h : AtPass cap input v e) (hn : input.length - v.i ≤ n) :
    Follows P e (fun v' e' => AtPass cap input v' e' ∧ v'.i = input.length) (compressLoop P input cap n v) := by
  have hinside := h.inside
  induction n generalizing v e with
  | zero =>
    rw [compressLoop_end (by omega)]
    exact .gets (.refl P e) ⟨h, by omega⟩
  | succ n ih =>
    by_cases hlt : v.i < input.length
    · rw [compressLoop_succ hlt]
      refine (pass_follows P h hlt).bind fun v' e' hv' h' => ?_
      have := compressPass_cursor_lt hlt hv'
      exact ih h' (by omega) h'.inside
    · rw [compressLoop_end (by omega)]
      exact .gets (.refl P e) ⟨h, by omega⟩

/-- A finished job of `ENC` that reports a result (R171, R172). -/
structure EncEnded (input : List Byte) (r : JobResult) (e : Enc) : Prop where
  phase : e.phase = .done
  reports : e.job.reports r
  empty : e.job.empty = decide (input = [])

theorem writing_inLen_eq_zero (h : Writing cap input out e) : e.job.inLen = 0 ↔ input = [] := by
  rw [← List.length_eq_zero_iff, ← h.inLen]
  exact ⟨fun h0 => by rw [h0]; rfl, word_eq_zero⟩

theorem finish_encEnded (h : Writing cap input out e) : EncEnded input (.ok out) e.finish := by
  obtain ⟨hcur, hwritten⟩ := h.holds
  refine ⟨rfl, ⟨rfl, hcur, fun a ha => ?_⟩, ?_⟩
  · rw [Enc_finish_job, succeed_read?, if_neg (by omega), hwritten a ha]
  · rw [Enc_finish_job, Job_succeed_empty, decide_eq_decide]
    exact writing_inLen_eq_zero h

/-- An input that is not empty is what a job that raises has read (R173). -/
theorem raise_encEnded (e₀ : Enc) (h : input ≠ []) :
    EncEnded input (.error .insufficientBuffer) (e₀.raise .insufficientBuffer) :=
  ⟨rfl, ⟨rfl, rfl, rfl⟩, (decide_eq_false h).symm⟩

/-- At the end of the input the last run is flushed and the job ends (R171). -/
theorem end_follows (P : EncParams) (h : AtPass cap input v e) (hend : v.i = input.length) :
    Follows P e (fun out => EncEnded input (.ok out)) (flushSpan input cap v.ls input.length v.out) := by
  have hcur := h.cursor
  have hls := h.runStart
  have hrun := h.run
  have hi : e.i = e.job.inLen := BitVec.eq_of_toNat_eq (by rw [hcur, hend, h.writing.inLen])
  refine .after (reaches_step ((encStep_probe P h.phase).trans (probeStep_end P hi))) ?_
  have hflush := flush_follows (e := { e with phase := .flush }) (n := e.i.toNat - e.ls.toNat) P rfl
    (h.writing.congr rfl rfl) (by simp only; omega) (by simp only; omega) le_rfl
  simp only [hcur, hls, hend] at hflush
  refine hflush.onward ?_
  rintro out _ ⟨⟨job, eop, rfl⟩, hw⟩
  have hi' : e.i = job.inLen := BitVec.eq_of_toNat_eq (by rw [hcur, hend]; exact hw.inLen.symm)
  exact ⟨_, reaches_step ((encStep_flush P rfl).trans (flushStep_end rfl hi')), finish_encEnded hw⟩

/-! ### From the launch -/

theorem launched_atPass (h : e.launched input) :
    AtPass e.job.outCap.toNat input { htab := [], i := 0, ls := 0, out := [] } e := by
  obtain ⟨hp, hi, hls, heop, htab, hlen, hbytes⟩ := h
  refine ⟨hp, by rw [hi]; rfl, by rw [hls]; rfl, le_rfl, Nat.zero_le _, by rw [htab]; rfl,
    hlen, hbytes, rfl, by rw [heop]; exact Nat.zero_le _, by rw [heop]; rfl, nofun⟩

theorem compress_nil (P : EncParams) (cap : Nat) : compress P [] cap = .ok [] := rfl

/-- From a launch the engine ends the job with the result of `Compress`. -/
theorem launched_reaches (P : EncParams) (h : e.launched input) :
    ∃ e', Reaches P e e' ∧ EncEnded input (compress P input e.job.outCap.toNat) e' := by
  have hfollows := (loop_follows (n := input.length) P (launched_atPass h) le_rfl).bind
    fun v' e' _ h' => end_follows P h'.1 h'.2
  have hc := compress_eq_elim P input e.job.outCap.toNat
  generalize (compressLoop P input e.job.outCap.toNat input.length _).bind _ = r at hfollows hc
  rw [hc]
  cases hfollows with
  | raises hreach =>
    refine ⟨_, hreach, raise_encEnded _ fun hnil => ?_⟩
    rw [hnil, compress_nil] at hc
    cases hc
  | gets hreach hend => exact ⟨_, hreach, hend⟩

/-- Settles O56: from the launch the engine follows the passes and the end of `Compress` (`launched_reaches`), and the block takes the
steps of its `ENC` (`run_encSteps`). -/
theorem engineComputesCompress : Obligations.EngineComputesCompress := by
  unfold Obligations.EngineComputesCompress
  refine ⟨fun P input e h => ?_, fun input s h => ?_⟩
  · obtain ⟨e', hreach, ⟨hp, hr, hempty⟩⟩ := launched_reaches P h
    obtain ⟨n, hn⟩ := hreach
    exact ⟨n, e', hn, hp, hr, hempty, (Reaches.frame ⟨n, hn⟩).inp⟩
  · obtain ⟨e', hreach, ⟨hp, hr, hempty⟩⟩ := launched_reaches encParams h
    obtain ⟨n, hn⟩ := hreach
    exact ⟨n, fun rest => ⟨_, run_encSteps hn rest, hp, hr, hempty, (Reaches.frame ⟨n, hn⟩).inp, rfl, rfl, rfl⟩⟩

end Sys2Proof.Proofs
end

section
/-! The round trip of the two engines (spec/45_compressor.md R175): what `ENC` emits is a stream of the input, and `DEC` decodes it. -/

namespace Sys2Proof.Proofs

open Sys2Proof.Machine Sys2Proof.Laws

variable {s out data stream x y : List Byte} {cap : Nat}

/-- Where a string decodes, all of its tokens are good. -/
theorem goodOutputAux_of_dataFrom (n : Nat) (h : dataFrom n s out = some data) : goodOutputAux n s out = data := by
  induction n generalizing s out with
  | zero =>
    cases s with
    | nil => exact Option.some.inj h
    | cons c s => cases h
  | succ n ih =>
    cases s with
    | nil => exact Option.some.inj h
    | cons c s =>
      cases hparse : parseOne (c :: s) with
      | none =>
        rw [dataFrom_truncated hparse] at h
        cases h
      | some p =>
        obtain ⟨t, rest⟩ := p
        cases hexp : expandOne t out with
        | none =>
          rw [dataFrom_underflow hparse hexp] at h
          cases h
        | some out' =>
          rw [dataFrom_ok hparse hexp] at h
          rw [goodOutputAux_ok hparse hexp, ih h]

/-- A valid stream whose data fits decodes to its data (R122 (b)). -/
theorem decodeAll_of_decodedData (h : decodedData stream = some data) (hcap : data.length ≤ cap) :
    decodeAll stream cap = .ok data := by
  have hgood : goodOutput stream = data := goodOutputAux_of_dataFrom stream.length h
  have hclosed : decodeAll stream cap = closedForm cap (goodOutput stream) (decodedData stream) :=
    decodeAllAux_eq_closedForm le_rfl (Nat.zero_le cap)
  rw [hclosed, hgood, h, closedForm_fits hcap]
  rfl

/-- What a finished job of `ENC` that succeeded holds in `OUT` is what `Compress` emits. -/
theorem EncEnded.compress_eq_ok {P : EncParams} {e : Enc} (h : EncEnded x (compress P x cap) e) (herr : e.job.err = .ok)
    (hlen : y.length = e.job.count.toNat) (hy : ∀ a, a < y.length → e.job.out.read? a = y[a]?) : compress P x cap = .ok y := by
  have hreports := h.reports
  cases hc : compress P x cap with
  | error k =>
    obtain rfl := (compressionStaysWithinTheBound P x cap).2.2 k hc
    rw [hc] at hreports
    obtain ⟨hk, -⟩ := hreports
    cases hk.symm.trans herr
  | ok stream =>
    rw [hc] at hreports
    obtain ⟨-, hcount, hread⟩ := hreports
    have hsame : stream.length = y.length := hcount.symm.trans hlen.symm
    have heq : stream = y := List.ext_getElem? fun a => by
      by_cases ha : a < y.length
      · rw [← hread a (by omega), hy a ha]
      · rw [List.getElem?_eq_none (by omega), List.getElem?_eq_none (by omega)]
    rw [heq]

/-- Settles O57: the end of the job is the one with the result of `Compress` (`launched_reaches`, `Reaches.done_unique`); its stream
decodes to the input (O59), which is what `DEC` computes (`launched_byteSteps`, `decodeAll_of_decodedData`). -/
theorem enginesRoundTrip : Obligations.EnginesRoundTrip := by
  unfold Obligations.EnginesRoundTrip
  intro P x y e e' d n hlaunch hsteps hdone herr hlen hy hdec hcap
  obtain ⟨e'', hreach, hend⟩ := launched_reaches P hlaunch
  obtain rfl : e' = e'' := Reaches.done_unique ⟨n, hsteps⟩ hdone hreach hend.phase
  have hdata := (emittedStreamConforms P x y _ (hend.compress_eq_ok herr hlen hy)).1
  obtain ⟨m, d', -, hm, hd'⟩ := launched_byteSteps hdec
  have hreports := hd'.reports
  rw [decodeAll_of_decodedData hdata hcap] at hreports
  exact ⟨m, d', hm, hd'.phase, hreports⟩

end Sys2Proof.Proofs
end

section
/-! What raising an error leaves (spec/60_exceptions.md R206): the result registers of the failed job, and the rest of the engine as it
was. -/

namespace Sys2Proof.Proofs

open Sys2Proof.Machine Sys2Proof.Laws

variable (k : ErrKind) (j : Job)

/-- A finished engine with a failed job reads DONE and the kind, and neither BUSY nor EMPTY (R22, R206). -/
theorem fail_status : (j.fail k).status false true = BitVec.ofNat 32 (2 + 4 * k.code.toNat) := by
  rw [status_finished, Job_fail_err, Job_fail_empty]
  rfl

theorem fail_countRead (finished : Bool) : (j.fail k).countRead finished = 0 := by
  rw [Job.countRead, Job_fail_count, ite_self]

/-- Of a job interface, failing sets the result registers and what is known of `OUT`: the lengths and `IN` stay. -/
theorem fail_changes_result_and_out : j.fail k =
    { j with err := k, count := 0, empty := false, out := (j.fail k).out, forgotten := (j.fail k).forgotten } := rfl

/-- Failing leaves `OUT` beyond `out_cap`, as known and as read. -/
theorem fail_out_beyond (u : Engine) {a : Nat} (ha : j.outCap.toNat ≤ a) :
    (j.fail k).out.read? a = j.out.read? a ∧ (j.fail k).outByte u a = j.outByte u a :=
  have hframe : JobFrame j (j.fail k) := (JobFrame.refl j).fail k
  ⟨hframe.beyond a ha, hframe.outByte_eq u ha⟩

/-- Settles O18: in either engine a raise is the phase DONE and the job failed with the kind (`Dec.raise`, `Enc.raise`), so each part is
a fact about a failed job. -/
theorem raiseLeavesOnlyTheKind : Obligations.RaiseLeavesOnlyTheKind := by
  unfold Obligations.RaiseLeavesOnlyTheKind
  refine ⟨fun k d => ⟨fail_status k d.job, fail_countRead k d.job _, ?_, fun a ha => fail_out_beyond k d.job .dec ha⟩,
    fun k e => ⟨fail_status k e.job, fail_countRead k e.job _, ?_, fun a ha => fail_out_beyond k e.job .enc ha⟩⟩
  · exact congrArg (fun j => { d with phase := .done, job := j }) (fail_changes_result_and_out k d.job)
  · exact congrArg (fun j => { e with phase := .done, job := j }) (fail_changes_result_and_out k e.job)

end Sys2Proof.Proofs
end

section
/-! The rules for the host during a job and between jobs (spec/70_reset_and_hazards.md R232, R234, R236, R242): which of its writes are
ignored, which of its moves are refused, and what the others leave. -/

namespace Sys2Proof.Proofs

open Sys2Proof.Machine Sys2Proof.Laws

variable {s : State} {u : Engine} {a : Word} {b : Byte} {rest : List Move}

/-! ### The state's operations -/

@[simp] theorem busy_moves (u : Engine) (s : State) (rest : List Move) :
    State.busy u { s with moves := rest } = s.busy u := by
  cases u <;> rfl

@[simp] theorem job_moves (u : Engine) (s : State) (rest : List Move) :
    State.job u { s with moves := rest } = s.job u := by
  cases u <;> rfl

@[simp] theorem job_withJob (u : Engine) (j : Job) (s : State) : (s.withJob u j).job u = j := by
  cases u <;> rfl

theorem inByte_write (u : Engine) (j : Job) (a x : Nat) (b : Byte) :
    Job.inByte u { j with inp := j.inp.write a b } x = if x = a then b else j.inByte u x := by
  simp only [Job.inByte, read?_write]
  split <;> rfl

theorem outByte_write (u : Engine) (j : Job) (a x : Nat) (b : Byte) :
    Job.outByte u { j with out := j.out.write a b } x = if x = a then b else j.outByte u x := by
  split
  · next h => rw [h, outByte_write_self]
  · next h => exact outByte_write_ne u j b h

/-! ### A step that reads or places a byte -/

theorem step_writeIn (h : s.moves = .writeIn u a b :: rest) :
    step s = if s.busy u then .refused .handsOff else
      .next (State.withJob u { s.job u with inp := (s.job u).inp.write a.toNat b } { s with moves := rest }) := by
  rw [step_of_moves h, ← busy_moves u s rest, ← job_moves u s rest]
  rfl

theorem step_writeOut (h : s.moves = .writeOut u a b :: rest) :
    step s = if s.busy u then .refused .handsOff else
      .next (State.withJob u { s.job u with out := (s.job u).out.write a.toNat b } { s with moves := rest }) := by
  rw [step_of_moves h, ← busy_moves u s rest, ← job_moves u s rest]
  rfl

theorem step_readOut (h : s.moves = .readOut u a :: rest) :
    step s = if s.busy u then .refused .handsOff else .next { s with moves := rest } := by
  rw [step_of_moves h, ← busy_moves u s rest]
  rfl

/-- The host reads the byte it placed in `IN`, and every other as before. -/
theorem hostReadIn_write (s t : State) (u : Engine) (a x : Word) (b : Byte) :
    State.hostReadIn u x (t.withJob u { s.job u with inp := (s.job u).inp.write a.toNat b }) =
      if x = a then b else s.hostReadIn u x := by
  rw [State.hostReadIn, job_withJob, inByte_write]
  simp only [BitVec.toNat_inj, State.hostReadIn]

/-- The host reads the byte it placed in `OUT`, and every other as before. -/
theorem hostReadOut_write (s t : State) (u : Engine) (a x : Word) (b : Byte) :
    State.hostReadOut u x (t.withJob u { s.job u with out := (s.job u).out.write a.toNat b }) =
      if x = a then b else s.hostReadOut u x := by
  rw [State.hostReadOut, job_withJob, outByte_write]
  simp only [BitVec.toNat_inj, State.hostReadOut]

/-- Settles O43: between jobs the step makes the move (`step_writeIn`, `step_writeOut`, `step_readOut`), and what is then known and read
is read after write. -/
theorem hostPlacesBytesBetweenJobs : Obligations.HostPlacesBytesBetweenJobs := by
  unfold Obligations.HostPlacesBytesBetweenJobs
  intro s u a b rest hb
  have hidle : ¬ s.busy u = true := Bool.eq_false_iff.1 hb
  refine ⟨fun h => ⟨_, ?_, fun x => read?_write _ _ x _, fun x => hostReadIn_write s _ u a x b⟩,
    fun h => ⟨_, ?_, fun x => read?_write _ _ x _, fun x => hostReadOut_write s _ u a x b⟩, fun h => ?_⟩
  · rw [step_writeIn h, if_neg hidle]
  · rw [step_writeOut h, if_neg hidle]
  · rw [step_readOut h, if_neg hidle]

/-- Settles O42: a running engine refuses each of the three moves (`step_writeIn`, `step_writeOut`, `step_readOut`); a read of `IN` asks
for nothing. -/
theorem handsOffDuringAJob : Obligations.HandsOffDuringAJob := by
  unfold Obligations.HandsOffDuringAJob
  refine ⟨fun s u a rest h => step_of_moves h, fun s u a b rest hb h => ?_⟩
  rcases h with h | h | h
  · rw [step_writeIn h, if_pos hb]
  · rw [step_writeOut h, if_pos hb]
  · rw [step_readOut h, if_pos hb]

/-! ### Register writes during a job (R236) -/

theorem decWriteInLen_busy {d : Dec} (hb : d.phase.busy = true) (v : Word) : d.writeInLen v = d := if_pos hb

theorem decWriteOutCap_busy {d : Dec} (hb : d.phase.busy = true) (v : Word) : d.writeOutCap v = d := if_pos hb

theorem encWriteInLen_busy {e : Enc} (hb : e.phase.busy = true) (v : Word) : e.writeInLen v = e := if_pos hb

theorem encWriteOutCap_busy {e : Enc} (hb : e.phase.busy = true) (v : Word) : e.writeOutCap v = e := if_pos hb

/-- The registers of `DEC` are 0 to 7 (R20); of those 0, 2 and 3 can be written. -/
theorem regWrite_decBusy {n : Nat} (hb : s.dec.phase.busy = true) (hn : n < 8) (v : Word) : s.regWrite n v = s := by
  by_cases hw : n ∈ [0, 2, 3, 8, 10, 11, 16]
  · obtain rfl | rfl | rfl : n = 0 ∨ n = 2 ∨ n = 3 := by simp at hw; omega
    · rw [State.regWrite, decWriteCtrl_ignored (.inl hb)]
    · rw [State.regWrite, decWriteInLen_busy hb]
    · rw [State.regWrite, decWriteOutCap_busy hb]
  · exact regWrite_readOnly hw v

/-- The registers of `ENC` are 8 to 15 (R30); of those 8, 10 and 11 can be written. -/
theorem regWrite_encBusy {n : Nat} (hb : s.enc.phase.busy = true) (hn : 8 ≤ n ∧ n < 16) (v : Word) : s.regWrite n v = s := by
  by_cases hw : n ∈ [0, 2, 3, 8, 10, 11, 16]
  · obtain rfl | rfl | rfl : n = 8 ∨ n = 10 ∨ n = 11 := by simp at hw; omega
    · rw [State.regWrite, encWriteCtrl_ignored (.inl hb)]
    · rw [State.regWrite, encWriteInLen_busy hb]
    · rw [State.regWrite, encWriteOutCap_busy hb]
  · exact regWrite_readOnly hw v

/-- Settles O37: a running engine ignores a write of each of its registers (`regWrite_decBusy`, `regWrite_encBusy`); a read is a move
that leaves the block as it was. -/
theorem writesWhileBusyAreIgnored : Obligations.WritesWhileBusyAreIgnored := by
  unfold Obligations.WritesWhileBusyAreIgnored
  refine ⟨fun s n v rest h hbusy => ?_, fun s n rest h => step_of_moves h⟩
  rw [step_writeReg h]
  rcases hbusy with ⟨hb, hn⟩ | ⟨hb, hn⟩
  · rw [regWrite_decBusy (s := { s with moves := rest }) hb hn]
  · rw [regWrite_encBusy (s := { s with moves := rest }) hb hn]

/-! ### Refusals (R234) -/

variable {r : Refusal} {m : Move}

/-- A turn of an engine is a computation on that engine, which answers or faults. -/
theorem turn_ne_refused (u : Engine) : s.turn u ≠ .refused r := by
  cases u with
  | dec =>
    rw [State.turn, decTurn_eq_ofDec]
    cases turnOnDec s.dec <;> nofun
  | enc =>
    rw [State.turn, State.encTurn]
    cases s.enc.step encParams <;> nofun

theorem handsOff_eq_refused {busy : Bool} {t : State}
    (h : (if busy then .refused .handsOff else .next t : Host.Outcome State Fault Refusal) = .refused r) :
    r = .handsOff ∧ busy = true := by
  split at h
  · next hb => cases h; exact ⟨rfl, hb⟩
  · cases h

/-- A move is refused only if it writes `IN` or touches `OUT` of an engine whose job is running. -/
theorem perform_eq_refused (h : s.perform m = .refused r) :
    r = .handsOff ∧ ∃ (u : Engine) (a : Word) (b : Byte), s.busy u = true ∧
      (m = .writeIn u a b ∨ m = .writeOut u a b ∨ m = .readOut u a) := by
  cases m with
  | run u => exact absurd h (turn_ne_refused u)
  | writeIn u a b =>
    obtain ⟨hr, hb⟩ := handsOff_eq_refused h
    exact ⟨hr, u, a, b, hb, .inl rfl⟩
  | writeOut u a b =>
    obtain ⟨hr, hb⟩ := handsOff_eq_refused h
    exact ⟨hr, u, a, b, hb, .inr (.inl rfl)⟩
  | readOut u a =>
    obtain ⟨hr, hb⟩ := handsOff_eq_refused h
    exact ⟨hr, u, a, 0, hb, .inr (.inr rfl)⟩
  | writeReg n v => cases h
  | readReg n => cases h
  | readIn u a => cases h
  | reset => cases h

/-- With no move listed only an engine moves (R123, R212). -/
theorem nextMove_eq_run {s' : State} (hm : s.moves = []) (h : s.nextMove = some (m, s')) : ∃ u, m = .run u := by
  simp only [State.nextMove, hm] at h
  split at h
  · cases h
    exact ⟨.dec, rfl⟩
  · split at h
    · cases h
      exact ⟨.enc, rfl⟩
    · cases h

theorem step_ne_refused_of_noMoves (hm : s.moves = []) : step s ≠ .refused r := by
  rcases step_cases s with hstep | ⟨m, s', hnext, hstep⟩
  · rw [hstep]
    nofun
  · obtain ⟨u, rfl⟩ := nextMove_eq_run hm hnext
    rw [hstep]
    exact turn_ne_refused u

/-- Settles O48: a step without a listed move is a turn or nothing (`step_ne_refused_of_noMoves`), and a listed move is refused only by
the hands-off rule (`perform_eq_refused`). -/
theorem onlyTheHostIsRefused : Obligations.OnlyTheHostIsRefused := by
  unfold Obligations.OnlyTheHostIsRefused
  intro s r h
  cases hm : s.moves with
  | nil => exact absurd h (step_ne_refused_of_noMoves hm)
  | cons m rest =>
    obtain ⟨hr, u, a, b, hb, hmove⟩ := perform_eq_refused ((step_of_moves hm).symm.trans h)
    refine ⟨hr, u, a, b, rest, busy_moves u s rest ▸ hb, ?_⟩
    exact hmove.imp (congrArg (· :: rest)) (.imp (congrArg (· :: rest)) (congrArg (· :: rest)))

end Sys2Proof.Proofs
end
